-- ==== Sys2Proof/Word.lean ====
section
/-! DEFINITION. The words, levels, lines and directions of spec/00_scope.md section 7.1. -/

namespace Sys2Proof

/-- A command word (30_encoding.md R90). -/
abbrev Word := BitVec 32

/-- An 8-bit unsigned value (00_scope.md section 7.1). -/
abbrev Byte := BitVec 8

/-- The level of a line: `true` is high (1), `false` is low (0) (D5). -/
abbrev Level := Bool

/-- The two bus lines (10_state.md R20): `scl` the document's clock, `sda` its data. -/
inductive Line where
  | scl
  | sda
deriving DecidableEq, Repr

/-- A line's direction: `output` is the spec's OUT = 1, `input` its IN = 0 (10_state.md R20). -/
inductive Dir where
  | input
  | output
deriving DecidableEq, Repr

end Sys2Proof
end

