-- ==== Sys2Proof/Syntax.lean ====
section
/-! DEFINITION. The thirteen commands of spec/opcode_table.json, one constructor a row (00_scope.md section 5). -/

namespace Sys2Proof

/-- A command with its operands. `VALUE` of SEND_BIT and `ADDR` of the block commands are carried as the
8-bit arguments of the document's signatures (30_encoding.md R93, R94); `Instr.wf` says which of their
values a word can spell. -/
inductive Instr where
  /-- SET_LINE, 40_line_driver.md R120. -/
  | setLine (line : Line) (level : Level)
  /-- SET_DIR, 40_line_driver.md R121. -/
  | setDir (line : Line) (dir : Dir)
  /-- READ_LINE, 40_line_driver.md R122. -/
  | readLine (line : Line)
  /-- WAIT_HALF, 41_bit_timer.md R140. -/
  | waitHalf
  /-- WAIT_FULL, 41_bit_timer.md R141. -/
  | waitFull
  /-- SEND_BIT, 42_bit_transfer.md R150; only bit 0 of `value` is the operand. -/
  | sendBit (value : Byte)
  /-- READ_BIT, 42_bit_transfer.md R151. -/
  | readBit
  /-- SEND_BYTE, 43_byte_transfer.md R165. -/
  | sendByte (value : Byte)
  /-- READ_BYTE, 43_byte_transfer.md R166. -/
  | readByte
  /-- START, 44_transaction.md R181; also the REPEATED-START (R189). -/
  | start
  /-- STOP, 44_transaction.md R182. -/
  | stop
  /-- WRITE_BLOCK, 44_transaction.md R186. -/
  | writeBlock (addr : Byte) (reg : Byte) (count : Byte)
  /-- READ_BLOCK, 44_transaction.md R187. -/
  | readBlock (addr : Byte) (reg : Byte) (count : Byte)
deriving DecidableEq, Repr

end Sys2Proof
end

