-- ==== Sys2Proof/WellFormed.lean ====
section
/-! DEFINITION. Which commands a word can spell (30_encoding.md R93, R94, R98). -/

namespace Sys2Proof

/-- The operands fit their fields: VALUE[7:1] of SEND_BIT is 0 (R93), a device address has seven bits
(R94, 90_conflicts.md C6). COUNT = 0 is encodable (R94); the command refuses it. -/
def Instr.wf : Instr → Bool
  | .sendBit value => decide (value < 2#8)
  | .writeBlock addr _ _ => decide (addr < 0x80#8)
  | .readBlock addr _ _ => decide (addr < 0x80#8)
  | .setLine _ _ => true
  | .setDir _ _ => true
  | .readLine _ => true
  | .waitHalf => true
  | .waitFull => true
  | .readBit => true
  | .sendByte _ => true
  | .readByte => true
  | .start => true
  | .stop => true

end Sys2Proof
end

