-- ==== Sys2Proof/Decode.lean ====
section
/-! DEFINITION. From command words to commands and back (30_encoding.md R90 to R100). -/

namespace Sys2Proof

/-- Why a word selects no operation. Both are refused as MISUSE at the command port (60_exceptions.md R223). -/
inductive Reject where
  /-- OP is 0x0, 0xE or 0xF (30_encoding.md R99). -/
  | reservedOpcode
  /-- A bit that the operation's format marks 0 is 1 (30_encoding.md R98). -/
  | mustBeZero
deriving DecidableEq, Repr

/-- LINE: 0 = clock, 1 = data (30_encoding.md R92). -/
def lineOfBit (b : Bool) : Line := if b then .sda else .scl

/-- LINE as a bit. -/
def bitOfLine : Line → BitVec 1
  | .scl => 0#1
  | .sda => 1#1

/-- VAL of SET_DIR: 1 = output, 0 = input (30_encoding.md R92). -/
def dirOfBit (b : Bool) : Dir := if b then .output else .input

/-- A direction as VAL of SET_DIR. -/
def bitOfDir : Dir → BitVec 1
  | .input => 0#1
  | .output => 1#1

/-- Format N: bits 27:0 are zero (30_encoding.md R91). -/
def decodeN (w : Word) (i : Instr) : Except Reject Instr :=
  if w.extractLsb' 0 28 = 0#28 then .ok i else .error .mustBeZero

/-- Format L: bits 27:2 are zero, bit 1 is LINE, bit 0 is VAL (30_encoding.md R92). -/
def decodeL (w : Word) (make : Line → Bool → Instr) : Except Reject Instr :=
  if w.extractLsb' 2 26 = 0#26 then .ok (make (lineOfBit (w.getLsbD 1)) (w.getLsbD 0)) else .error .mustBeZero

/-- Format L of READ_LINE, where VAL is no operand and must be 0 (30_encoding.md R92). -/
def decodeLineOnly (w : Word) (make : Line → Instr) : Except Reject Instr :=
  if w.extractLsb' 2 26 = 0#26 ∧ w.extractLsb' 0 1 = 0#1 then .ok (make (lineOfBit (w.getLsbD 1)))
  else .error .mustBeZero

/-- Format V with a whole byte as operand: bits 27:8 are zero (30_encoding.md R93). -/
def decodeV (w : Word) (make : Byte → Instr) : Except Reject Instr :=
  if w.extractLsb' 8 20 = 0#20 then .ok (make (w.extractLsb' 0 8)) else .error .mustBeZero

/-- Format V of SEND_BIT: VALUE[7:1] must be 0 too, so bits 27:1 are zero (30_encoding.md R93). -/
def decodeBit (w : Word) (make : Byte → Instr) : Except Reject Instr :=
  if w.extractLsb' 1 27 = 0#27 then .ok (make (w.extractLsb' 0 8)) else .error .mustBeZero

/-- Format T: bit 27 and bits 3:0 are zero, ADDR is 26:20, REG is 19:12, COUNT is 11:4 (30_encoding.md R94). -/
def decodeT (w : Word) (make : Byte → Byte → Byte → Instr) : Except Reject Instr :=
  if w.extractLsb' 27 1 = 0#1 ∧ w.extractLsb' 0 4 = 0#4 then
    .ok (make ((w.extractLsb' 20 7).setWidth 8) (w.extractLsb' 12 8) (w.extractLsb' 4 8))
  else .error .mustBeZero

/-- The decoder: bits 31:28 select the operation (30_encoding.md R97), the rest is read by its format. -/
def decode (w : Word) : Except Reject Instr :=
  if w.extractLsb' 28 4 = 0x1#4 then decodeL w (fun line val => .setLine line val)
  else if w.extractLsb' 28 4 = 0x2#4 then decodeL w (fun line val => .setDir line (dirOfBit val))
  else if w.extractLsb' 28 4 = 0x3#4 then decodeLineOnly w (fun line => .readLine line)
  else if w.extractLsb' 28 4 = 0x4#4 then decodeN w .waitHalf
  else if w.extractLsb' 28 4 = 0x5#4 then decodeN w .waitFull
  else if w.extractLsb' 28 4 = 0x6#4 then decodeBit w (fun value => .sendBit value)
  else if w.extractLsb' 28 4 = 0x7#4 then decodeN w .readBit
  else if w.extractLsb' 28 4 = 0x8#4 then decodeV w (fun value => .sendByte value)
  else if w.extractLsb' 28 4 = 0x9#4 then decodeN w .readByte
  else if w.extractLsb' 28 4 = 0xA#4 then decodeN w .start
  else if w.extractLsb' 28 4 = 0xB#4 then decodeN w .stop
  else if w.extractLsb' 28 4 = 0xC#4 then decodeT w (fun addr reg count => .writeBlock addr reg count)
  else if w.extractLsb' 28 4 = 0xD#4 then decodeT w (fun addr reg count => .readBlock addr reg count)
  else .error .reservedOpcode

/-- A field's value with its least significant bit at bit `lo` of a word. -/
def placeField {n : Nat} (v : BitVec n) (lo : Nat) : Word := v.setWidth 32 <<< lo

/-- The word of a command (30_encoding.md R91 to R94, R97, R104). An operand that does not fit its field lands in
must-be-zero bits: SEND_BIT 2 is 0x60000002, an address of 0x80 or more sets bit 27. -/
def encode : Instr → Word
  | .setLine line level => placeField 0x1#4 28 ||| placeField (bitOfLine line) 1 ||| placeField (BitVec.ofBool level) 0
  | .setDir line dir => placeField 0x2#4 28 ||| placeField (bitOfLine line) 1 ||| placeField (bitOfDir dir) 0
  | .readLine line => placeField 0x3#4 28 ||| placeField (bitOfLine line) 1
  | .waitHalf => placeField 0x4#4 28
  | .waitFull => placeField 0x5#4 28
  | .sendBit value => placeField 0x6#4 28 ||| placeField value 0
  | .readBit => placeField 0x7#4 28
  | .sendByte value => placeField 0x8#4 28 ||| placeField value 0
  | .readByte => placeField 0x9#4 28
  | .start => placeField 0xA#4 28
  | .stop => placeField 0xB#4 28
  | .writeBlock addr reg count =>
    placeField 0xC#4 28 ||| placeField addr 20 ||| placeField reg 12 ||| placeField count 4
  | .readBlock addr reg count =>
    placeField 0xD#4 28 ||| placeField addr 20 ||| placeField reg 12 ||| placeField count 4

/-- One row of the opcode map: a word selects it when `word &&& mask = bits` (30_encoding.md R97). -/
structure OpcodeRow where
  bits : Word
  mask : Word
deriving DecidableEq, Repr

/-- The row of each command, copied from the columns match and mask of 30_encoding.md R97. -/
def opcodeRow : Instr → OpcodeRow
  | .setLine _ _ => ⟨0x10000000#32, 0xFFFFFFFC#32⟩
  | .setDir _ _ => ⟨0x20000000#32, 0xFFFFFFFC#32⟩
  | .readLine _ => ⟨0x30000000#32, 0xFFFFFFFD#32⟩
  | .waitHalf => ⟨0x40000000#32, 0xFFFFFFFF#32⟩
  | .waitFull => ⟨0x50000000#32, 0xFFFFFFFF#32⟩
  | .sendBit _ => ⟨0x60000000#32, 0xFFFFFFFE#32⟩
  | .readBit => ⟨0x70000000#32, 0xFFFFFFFF#32⟩
  | .sendByte _ => ⟨0x80000000#32, 0xFFFFFF00#32⟩
  | .readByte => ⟨0x90000000#32, 0xFFFFFFFF#32⟩
  | .start => ⟨0xA0000000#32, 0xFFFFFFFF#32⟩
  | .stop => ⟨0xB0000000#32, 0xFFFFFFFF#32⟩
  | .writeBlock _ _ _ => ⟨0xC0000000#32, 0xF800000F#32⟩
  | .readBlock _ _ _ => ⟨0xD0000000#32, 0xF800000F#32⟩

/-- The word `w` of `nbits` bits, as spec/opcode_table.json numbers them, through the decoder. A command is one
32-bit word written to CMD as one unit (20_memory.md R64), so the table's numbering is the word's own. -/
def decodeTableWord (nbits w : Nat) : Option Instr :=
  match decode (BitVec.ofNat 32 (w % 2 ^ nbits)) with
  | .ok i => some i
  | .error _ => none

end Sys2Proof
end

