-- ==== Sys2Proof/Config.lean ====
section
/-! DEFINITION. The parameters of 00_scope.md section 6, and the free values: constants with no body, so that
nothing can be proved of the values the spec leaves open (93_implementation_defined.md). -/

namespace Sys2Proof

/-- The implementation parameters (00_scope.md section 6, 10_state.md R40). -/
structure Config where
  /-- HALF_TICKS: ticks of `clk` in one half period (D9). -/
  halfTicks : Nat
  /-- MAX_ATTEMPTS: `none` is INF, the source's behaviour (R5, D15). -/
  maxAttempts : Option Nat
  /-- MAX_COUNT: the largest legal block length (R6, D20). -/
  maxCount : Nat
  /-- PRIM_EXPOSED: whether the host may issue the eleven primitive commands (R2, R100, D3). -/
  primExposed : Bool
  /-- STOP_PRELOAD: whether STOP begins by driving data low (R182, D13). -/
  stopPreload : Bool
deriving DecidableEq, Repr

/-- FULL_TICKS = 2 × HALF_TICKS (00_scope.md R4). -/
def Config.fullTicks (c : Config) : Nat := 2 * c.halfTicks

/-- The domains of the parameters: HALF_TICKS at least 1, MAX_ATTEMPTS INF or at least 3, MAX_COUNT in 1..255
(92_eei_decisions.md section 2). -/
def Config.legal (c : Config) : Bool :=
  decide (1 ≤ c.halfTicks) &&
    (match c.maxAttempts with
      | none => true
      | some m => decide (3 ≤ m)) &&
    decide (1 ≤ c.maxCount) && decide (c.maxCount ≤ 255)

/-- The values `State.reset` runs with (DESIGN CHOICE, log entry 2; unsafe): the spec's examples' defaults of
92_eei_decisions.md section 2, and the smallest legal HALF_TICKS, which the examples keep symbolic. -/
def Config.default : Config where
  halfTicks := 1
  maxAttempts := none
  maxCount := 255
  primExposed := true
  stopPreload := true

/-- FREE VALUE (log entry 4; safe): the level an environment that nothing is known of puts on a line, by the
number of micro-operations it has seen (10_state.md R37; SCL that nobody drives, 95_test_vectors.md VL10). -/
opaque Config.freeLevel : Line → Nat → Level

/-- FREE VALUE (log entry 7; safe): what TXBUF[i] holds before the first write after a reset, by the number of
reset events and i (10_state.md R39, 93_implementation_defined.md U4). -/
opaque Config.freeTx : Nat → Nat → Byte

/-- FREE VALUE (log entry 7; safe): what RXBUF[i] holds before the first write after a reset, by the number of
reset events and i (10_state.md R39, 93_implementation_defined.md U4). -/
opaque Config.freeRx : Nat → Nat → Byte

/-- FREE VALUE (log entry 8; safe): what a host read gives where the spec says any value, by the register number
and the number of reads so far (93_implementation_defined.md U5, U6). -/
opaque Config.freeRead : Nat → Nat → Byte

end Sys2Proof
end

