-- ==== Sys2Proof/Machine/State.lean ====
section
/-! DEFINITION. The state of the block (10_state.md), the environment and the host's pending actions as plain
data, the reasons a step can stop, and the state after reset (10_state.md R39). -/

namespace Sys2Proof.Machine

/-- The states of the Transaction Controller (10_state.md R29). -/
inductive TState where
  | idle
  | startAsserted
  | addressPhase
  | dataPhase
deriving DecidableEq, Repr

/-- The result codes of STATUS.ERR (60_exceptions.md R220). -/
inductive ErrCode where
  | ok
  | addrNack
  | dataNack
  | misuse
deriving DecidableEq, Repr

/-- The direction bit of the address byte (30_encoding.md R95). -/
inductive Rw where
  | write
  | read
deriving DecidableEq, Repr

/-- The five micro-operations (00_scope.md section 7.3). -/
inductive MicroOp where
  /-- `uW(l, v)`: write the level latch. -/
  | w (l : Line) (v : Level)
  /-- `uT(l, d)`: write the direction. -/
  | t (l : Line) (d : Dir)
  /-- `uS(l)`: sample the line. -/
  | s (l : Line)
  /-- `uH`: wait a half period. -/
  | h
  /-- `uF`: wait a full period. -/
  | f
deriving DecidableEq, Repr

/-- A trace token (00_scope.md section 7.3): `w .scl true` is C1, `t .sda .input` is DI, `s .sda b` is S=b. -/
inductive Token where
  | w (l : Line) (v : Level)
  | t (l : Line) (d : Dir)
  | s (l : Line) (b : Level)
  | h
  | f
deriving DecidableEq, Repr

/-- Who asked for the byte being sent, and so what its acknowledgement decides. -/
inductive AckPolicy where
  /-- A host-issued SEND_BYTE: the outcome is a result (30_encoding.md R103). -/
  | report
  /-- An address byte: a NACK raises ADDR_NACK (44_transaction.md R183). -/
  | address
  /-- A data-phase byte `v`, being sent for the `att`-th time: a NACK sends it again (44_transaction.md R184). -/
  | data (v : Byte) (att : Nat)
deriving DecidableEq, Repr

/-- What a procedure does in the same step as one of its micro-operations, besides the micro-operation. -/
inductive Post where
  /-- Nothing. -/
  | none
  /-- START's last: TSTATE <- START_ASSERTED (44_transaction.md R181). -/
  | startAsserted
  /-- STOP's last: TSTATE <- IDLE (44_transaction.md R182). -/
  | toIdle
  /-- SEND_BYTE's first: the address phase may begin, SHREG <- value (43_byte_transfer.md R165). -/
  | beginByte (v : Byte)
  /-- SEND_BYTE's last: ACKF, TSTATE and what the acknowledgement decides (43_byte_transfer.md R165). -/
  | ackEnd (policy : AckPolicy)
  /-- READ_BYTE's first: SHREG <- 0 (43_byte_transfer.md R166). -/
  | clearShreg
  /-- The end of a READ_BIT inside READ_BYTE: SHREG <- (SHREG << 1) | b (43_byte_transfer.md R166). -/
  | shiftIn
  /-- READ_LINE's and READ_BIT's last as a command: RDATA <- zext_8(b) (10_state.md R35). -/
  | resultBit
  /-- READ_BYTE's last as a command: RDATA <- SHREG (10_state.md R35). -/
  | resultByte
  /-- READ_BYTE's last inside READ_BLOCK: RXBUF[i] <- SHREG (44_transaction.md R187). -/
  | storeRx (i : Nat)
deriving DecidableEq, Repr

/-- One remaining micro-operation with what its procedure does in the same step. -/
structure Micro where
  op : MicroOp
  post : Post
deriving DecidableEq, Repr

/-- SEQ, the sequencer position (10_state.md R31): the micro-operations that remain, and the values local to the
running command, none of which survives it (R30). -/
structure Seq where
  /-- The micro-operations that remain, the next one first. -/
  todo : List Micro
  /-- The level the last `uS` of this command returned (the `a`, `b` of the procedures). -/
  bit : Level
  /-- What STATUS.ERR becomes when the command ends. -/
  code : ErrCode
deriving DecidableEq, Repr

/-- The empty SEQ: no command runs. -/
def Seq.idle : Seq where
  todo := []
  bit := false
  code := .ok

/-- The four line bits (10_state.md R20). -/
structure Lines where
  outScl : Level
  outSda : Level
  dirScl : Dir
  dirSda : Dir
deriving DecidableEq, Repr

/-- What the environment does with a line (10_state.md R37). -/
inductive Drive where
  /-- It drives the line to a level. -/
  | level (v : Level)
  /-- It leaves the line alone (10_state.md R22). -/
  | released
  /-- Nothing is known of it: each micro-operation meets a level of its own. -/
  | unknown
deriving DecidableEq, Repr

/-- What the environment does with both lines. -/
structure EnvDrive where
  scl : Drive
  sda : Drive
deriving DecidableEq, Repr

/-- The environment (10_state.md R37): what it drives now, what it will drive at each of the micro-operations to
come (when the script is used up it goes on as it is), and how many micro-operations it has seen. -/
structure Env where
  script : List EnvDrive
  now : EnvDrive
  seen : Nat
deriving DecidableEq, Repr

/-- What happens to the block from outside, in the order it happens (10_state.md R32, 70_reset_and_hazards.md R260). -/
inductive Input where
  /-- The host writes a register number of the port (10_state.md section 7). -/
  | write (num : Nat) (val : Word)
  /-- The host reads a register number of the port. -/
  | read (num : Nat)
  /-- The host polls STATUS until BUSY = 0 (70_reset_and_hazards.md R262). -/
  | await
  /-- The outside lets the controller take one step. -/
  | pass
  /-- The environment changes its drive (10_state.md R37). -/
  | drive (d : EnvDrive)
  /-- The `rst` input is asserted (70_reset_and_hazards.md R260). -/
  | reset
deriving DecidableEq, Repr

/-- A byte buffer: pairs of index and byte, indexes strictly rising; an index that is not listed has not been
written since reset. -/
abbrev Memory := List Host.Cell

/-- Why the machine can stop. -/
inductive Fault where
  /-- The internal `require DIR[l] = OUT` of `uW` is broken (40_line_driver.md R124, 93_implementation_defined.md U2);
  raised by the controller's step; safe, and unreachable under the model's invariant. -/
  | writeToInput (l : Line)
  /-- The internal `require DIR[l] = IN` of `uS` is broken (40_line_driver.md R124, 93_implementation_defined.md U2);
  raised by the controller's step; safe, and unreachable under the model's invariant. -/
  | sampleOfOutput (l : Line)
deriving DecidableEq, Repr

/-- Why an instruction can have no meaning. -/
inductive Refusal where
  /-- An arm of `exec` that is not modelled yet; no arm is; safe. -/
  | notModelled (mnemonic : String)
deriving DecidableEq, Repr

/-- The state (10_state.md section 1), the parameters it runs with, the environment and the outside, and the two
observations the spec defines. -/
@[ext]
structure State where
  /-- The parameters (10_state.md R40): no state of the machine, written by no step (log entry 1). -/
  cfg : Config
  /-- OUT[SCL], OUT[SDA], DIR[SCL], DIR[SDA] (R20). -/
  lines : Lines
  /-- TIMER (R26). -/
  timer : Nat
  /-- SHREG (R27). -/
  shreg : Byte
  /-- ACKF (R28). -/
  ackf : Level
  /-- TSTATE (R29). -/
  tstate : TState
  /-- SEQ (R31); STATUS.BUSY is "SEQ is non-empty". -/
  seq : Seq
  /-- STATUS.DONE (R34). -/
  done : Bool
  /-- STATUS.ERR (R34). -/
  err : ErrCode
  /-- RDATA (R35). -/
  rdata : Byte
  /-- TXBUF (20_memory.md R61). -/
  txbuf : Memory
  /-- RXBUF (20_memory.md R62). -/
  rxbuf : Memory
  /-- What the port answered to the host's last read (the model's own, log entry 8). -/
  hostData : Byte
  /-- What the outside does next, the first entry first (log entry 9). -/
  inputs : List Input
  /-- The environment (R37). -/
  env : Env
  /-- The trace, newest token first (00_scope.md section 7.3). -/
  trace : List Token
  /-- The wire history, newest pair (SCL, SDA) first, equal neighbours merged (R21). -/
  wires : List (Level × Level)
  /-- Host reads so far, the index of `Config.freeRead` (the model's own, log entry 8). -/
  reads : Nat
  /-- Reset events so far, the index of `Config.freeTx` and `Config.freeRx` (the model's own, log entry 7). -/
  resets : Nat
deriving DecidableEq, Repr

/-- The machine right after reset with the parameters `c` (10_state.md R39). ACKF, SHREG and RDATA, which the spec
leaves unspecified, hold 0 (DESIGN CHOICE, log entry 6; unsafe); the buffers hold nothing; the environment is
unknown (log entry 5). -/
def State.resetWith (c : Config) : State where
  cfg := c
  lines := { outScl := true, outSda := true, dirScl := .output, dirSda := .output }
  timer := 0
  shreg := 0#8
  ackf := false
  tstate := .idle
  seq := Seq.idle
  done := false
  err := .ok
  rdata := 0#8
  txbuf := []
  rxbuf := []
  hostData := 0#8
  inputs := []
  env := { script := [], now := { scl := .unknown, sda := .unknown }, seen := 0 }
  trace := []
  wires := [(true, true)]
  reads := 0
  resets := 0

/-- The machine right after reset (10_state.md R39) with the parameters of log entry 2. -/
def State.reset : State := State.resetWith Config.default

end Sys2Proof.Machine
end

