-- ==== Sys2Proof/Machine/Flags.lean ====
section
/-! DEFINITION. ACKF, TSTATE and the two status views of the host port (10_state.md R28, R29, R34, R36). -/

namespace Sys2Proof.Machine

/-- STATUS.BUSY: SEQ is non-empty (10_state.md R31, R34). -/
def State.busy (s : State) : Bool := !s.seq.todo.isEmpty

/-- The 2-bit encoding of TSTATE (10_state.md R29). -/
def TState.bits : TState → BitVec 2
  | .idle => 0#2
  | .startAsserted => 1#2
  | .addressPhase => 2#2
  | .dataPhase => 3#2

/-- The 2-bit encoding of STATUS.ERR (60_exceptions.md R220). -/
def ErrCode.bits : ErrCode → BitVec 2
  | .ok => 0#2
  | .addrNack => 1#2
  | .dataNack => 2#2
  | .misuse => 3#2

/-- STATUS: bit 7 is 0, 6:5 TSTATE, 4 ACKF, 3:2 ERR, 1 DONE, 0 BUSY (10_state.md R34). -/
def State.status (s : State) : Byte :=
  0#1 ++ s.tstate.bits ++ BitVec.ofBool s.ackf ++ s.err.bits ++ BitVec.ofBool s.done ++ BitVec.ofBool s.busy

/-- A direction as a bit: OUT = 1, IN = 0 (10_state.md R20). -/
def dirLevel : Dir → Bool
  | .input => false
  | .output => true

/-- LINES: bit 3 DIR[SDA], 2 DIR[SCL], 1 OUT[SDA], 0 OUT[SCL] (10_state.md R36). -/
def State.linesView (s : State) : BitVec 4 :=
  BitVec.ofBool (dirLevel s.lines.dirSda) ++ BitVec.ofBool (dirLevel s.lines.dirScl) ++
    BitVec.ofBool s.lines.outSda ++ BitVec.ofBool s.lines.outScl

/-- TSTATE at the first micro-operation of SEND_BYTE (44_transaction.md R180). -/
def tstateAtByteStart (t : TState) : TState :=
  match t with
  | .startAsserted => .addressPhase
  | .idle => .idle
  | .addressPhase => .addressPhase
  | .dataPhase => .dataPhase

/-- TSTATE at the last micro-operation of SEND_BYTE, `nack` the sampled acknowledgement level (44_transaction.md R180). -/
def tstateAtByteEnd (t : TState) (nack : Level) : TState :=
  match t, nack with
  | .addressPhase, false => .dataPhase
  | .addressPhase, true => .addressPhase
  | .idle, _ => .idle
  | .startAsserted, _ => .startAsserted
  | .dataPhase, _ => .dataPhase

end Sys2Proof.Machine
end

