-- ==== Sys2Proof/Machine/Operands.lean ====
section
/-! DEFINITION. Operand assembly (30_encoding.md R95, R96) and the order of bits and bytes (20_memory.md R63, R64). -/

namespace Sys2Proof.Machine

/-- WRITE = 0, READ = 1 (30_encoding.md R95). -/
def rwBit : Rw → Byte
  | .write => 0#8
  | .read => 1#8

/-- The address byte `(zext_8(ADDR) << 1) | RW` (30_encoding.md R95, 20_memory.md R76). -/
def addrByte (addr : Byte) (rw : Rw) : Byte := (addr <<< 1) ||| rwBit rw

/-- The bit SEND_BIT sends: VALUE[0] (30_encoding.md R93). -/
def bitOperand (value : Byte) : Level := value.getLsbD 0

/-- The bits of a byte in wire order, most significant first (20_memory.md R63). -/
def bitsMsbFirst (v : Byte) : List Level :=
  [v.getLsbD 7, v.getLsbD 6, v.getLsbD 5, v.getLsbD 4, v.getLsbD 3, v.getLsbD 2, v.getLsbD 1, v.getLsbD 0]

/-- A sampled level as a byte, `zext_8(b)` (10_state.md R35). -/
def byteOfBit (b : Level) : Byte := if b then 1#8 else 0#8

/-- One step of byte assembly, `((SHREG << 1) | b) & 0xFF` (20_memory.md R76). -/
def shiftInBit (shreg : Byte) (b : Level) : Byte := (shreg <<< 1) ||| byteOfBit b

/-- Levels assembled as READ_BYTE does, the first into the most significant place (43_byte_transfer.md R166). -/
def assemble (bits : List Level) : Byte := bits.foldl shiftInBit 0#8

/-- COUNT as a number (30_encoding.md R96). -/
def countOperand (count : Byte) : Nat := count.toNat

end Sys2Proof.Machine
end

