-- ==== Sys2Proof/Machine/Procedures.lean ====
section
/-! DEFINITION. The procedures of 40_line_driver.md to 44_transaction.md as lists of micro-operations, in the order
the rules list them (20_memory.md R71). -/

namespace Sys2Proof.Machine

/-- A micro-operation with nothing beside it. -/
def plain (op : MicroOp) : Micro := { op := op, post := .none }

/-- `set_line` (40_line_driver.md R120). -/
def setLineProc (line : Line) (level : Level) : List Micro := [plain (.w line level)]

/-- `set_direction` (40_line_driver.md R121). -/
def setDirProc (line : Line) (dir : Dir) : List Micro := [plain (.t line dir)]

/-- `read_line` as a host command (40_line_driver.md R122). -/
def readLineProc (line : Line) : List Micro := [{ op := .s line, post := .resultBit }]

/-- `wait_half_period` (41_bit_timer.md R140). -/
def waitHalfProc : List Micro := [plain .h]

/-- `wait_full_period` (41_bit_timer.md R141). -/
def waitFullProc : List Micro := [plain .f]

/-- `send_bit` (42_bit_transfer.md R150); `first` goes with its first micro-operation. -/
def sendBitProc (first : Post) (value : Level) : List Micro :=
  [{ op := .w .sda value, post := first }, plain (.w .scl false), plain .h, plain (.w .scl true), plain .f,
    plain (.w .scl false), plain .h]

/-- `read_bit` (42_bit_transfer.md R151); `last` goes with its last micro-operation. -/
def readBitProc (last : Post) : List Micro :=
  [plain .h, plain (.w .scl true), plain .f, plain (.s .sda), plain (.w .scl false), { op := .h, post := last }]

/-- `send_bit` for each level in turn. -/
def sendBitsProc : List Level → List Micro
  | [] => []
  | b :: bs => sendBitProc .none b ++ sendBitsProc bs

/-- `send_byte` (43_byte_transfer.md R165): bit 7 (with the beginning of the byte), bits 6 to 0, the acknowledgement slot. -/
def sendByteProc (value : Byte) (policy : AckPolicy) : List Micro :=
  sendBitProc (.beginByte value) (value.getLsbD 7) ++ sendBitsProc (bitsMsbFirst value).tail ++
    plain (.t .sda .input) :: readBitProc .none ++ [{ op := .t .sda .output, post := .ackEnd policy }]

/-- `read_bit` into SHREG, `n` times. -/
def shiftInProc : Nat → List Micro
  | 0 => []
  | n + 1 => readBitProc .shiftIn ++ shiftInProc n

/-- `read_byte` (43_byte_transfer.md R166); `last` says where the byte goes. -/
def readByteProc (last : Post) : List Micro :=
  { op := .t .sda .input, post := .clearShreg } :: shiftInProc 8 ++ [{ op := .t .sda .output, post := last }]

/-- `start` (44_transaction.md R181). -/
def startProc : List Micro :=
  [plain (.w .sda true), plain (.w .scl true), plain (.w .sda false), { op := .w .scl false, post := .startAsserted }]

/-- Steps 1 to 4 of `stop`, the document's own sequence (44_transaction.md R182). -/
def stopTail : List Micro := [plain .f, plain (.w .scl true), plain .f, { op := .w .sda true, post := .toIdle }]

/-- `stop`, with step 0 under STOP_PRELOAD (44_transaction.md R182). -/
def stopProc (preload : Bool) : List Micro := if preload then plain (.w .sda false) :: stopTail else stopTail

/-- `send_address` (44_transaction.md R183). -/
def sendAddressProc (addr : Byte) (rw : Rw) : List Micro := sendByteProc (addrByte addr rw) .address

/-- `send_data`, its first attempt (44_transaction.md R184). -/
def sendDataProc (v : Byte) : List Micro := sendByteProc v (.data v 1)

/-- `send_data` for each payload byte in ascending index order (20_memory.md R64). -/
def payloadProc : List Byte → List Micro
  | [] => []
  | v :: vs => sendDataProc v ++ payloadProc vs

/-- `write_block` (44_transaction.md R186), the payload taken at issue (20_memory.md R74). -/
def writeBlockProc (preload : Bool) (addr reg : Byte) (payload : List Byte) : List Micro :=
  startProc ++ sendAddressProc addr .write ++ sendDataProc reg ++ payloadProc payload ++ stopProc preload

/-- The reads of `read_block` from index `i` on, `n` of them: READ_BYTE and the master's acknowledgement, MNACK
after the last and MACK after the others (44_transaction.md R187, R192, 43_byte_transfer.md R167). -/
def readsProc : Nat → Nat → List Micro
  | _, 0 => []
  | i, n + 1 => readByteProc (.storeRx i) ++ sendBitProc .none (n == 0) ++ readsProc (i + 1) n

/-- `read_block` (44_transaction.md R187). -/
def readBlockProc (preload : Bool) (addr reg : Byte) (n : Nat) : List Micro :=
  startProc ++ sendAddressProc addr .write ++ sendDataProc reg ++ startProc ++ sendAddressProc addr .read ++
    readsProc 0 n ++ stopProc preload

end Sys2Proof.Machine
end

