-- ==== Sys2Proof/Machine/Ops.lean ====
section
/-! DEFINITION. The shared operations: buffers, lines, the environment's move, the end of a micro-operation, the
error exit (60_exceptions.md R224), acceptance and refusal of a command (10_state.md R33, 60_exceptions.md R223),
the controller's step (10_state.md R31) and the reset event (70_reset_and_hazards.md R260). -/

namespace Sys2Proof.Machine

/-! ## Buffers (20_memory.md R61, R62) -/

/-- The byte at an index, `none` where nothing has been written since reset. -/
def Memory.read : Memory → Nat → Option Byte
  | [], _ => none
  | (a, b) :: m, i => if a = i then some b else Memory.read m i

/-- Store a byte at an index, keeping the indexes strictly rising. -/
def Memory.write : Memory → Nat → Byte → Memory
  | [], i, v => [(i, v)]
  | (a, b) :: m, i, v =>
    if i < a then (i, v) :: (a, b) :: m
    else if i = a then (i, v) :: m
    else (a, b) :: Memory.write m i v

/-- Every listed index is greater than `n`. -/
def Memory.above (n : Nat) : Memory → Bool
  | [] => true
  | (a, _) :: m => decide (n < a) && Memory.above n m

/-- The canonical form: indexes strictly rising. An unlisted index reads as no byte, so no entry equals what an
unlisted index reads as. -/
def Memory.wf : Memory → Bool
  | [] => true
  | (a, _) :: m => Memory.above a m && Memory.wf m

/-- The byte TXBUF[i] holds, a free value before the first write (93_implementation_defined.md U4, log entry 7). -/
def State.txByte (s : State) (i : Nat) : Byte := (s.txbuf.read i).getD (Config.freeTx s.resets i)

/-- The byte RXBUF[i] holds, a free value before the first write (93_implementation_defined.md U4, log entry 7). -/
def State.rxByte (s : State) (i : Nat) : Byte := (s.rxbuf.read i).getD (Config.freeRx s.resets i)

/-- TXBUF[i], ..., TXBUF[i+n-1], what WRITE_BLOCK sends (20_memory.md R61, R74). -/
def State.txBytes (s : State) : Nat → Nat → List Byte
  | _, 0 => []
  | i, n + 1 => s.txByte i :: s.txBytes (i + 1) n

/-! ## Lines (10_state.md R20 to R23) -/

/-- OUT[l]. -/
def Lines.out (x : Lines) : Line → Level
  | .scl => x.outScl
  | .sda => x.outSda

/-- DIR[l]. -/
def Lines.dir (x : Lines) : Line → Dir
  | .scl => x.dirScl
  | .sda => x.dirSda

/-- OUT[l] <- v; nothing else changes (10_state.md R20). -/
def Lines.setOut (x : Lines) (l : Line) (v : Level) : Lines :=
  match l with
  | .scl => { x with outScl := v }
  | .sda => { x with outSda := v }

/-- DIR[l] <- d; the latch is kept (10_state.md R23). -/
def Lines.setDir (x : Lines) (l : Line) (d : Dir) : Lines :=
  match l with
  | .scl => { x with dirScl := d }
  | .sda => { x with dirSda := d }

/-- Both lines are outputs, the direction condition of most operations (60_exceptions.md R223 check 2). -/
def Lines.bothOut (x : Lines) : Bool := decide (x.dirScl = .output) && decide (x.dirSda = .output)

/-! ## The environment (10_state.md R21, R22, R37) -/

/-- What the environment does with line `l` now. -/
def Env.drive (e : Env) : Line → Drive
  | .scl => e.now.scl
  | .sda => e.now.sda

/-- `env(l)`: the level the environment puts on line `l` at this moment. The data line that nobody drives is high
(10_state.md R22); the spec gives no level for the clock line that nobody drives (95_test_vectors.md VL10). -/
def Env.level (e : Env) (l : Line) : Level :=
  match e.drive l, l with
  | .level v, _ => v
  | .released, .sda => true
  | .released, .scl => Config.freeLevel .scl e.seen
  | .unknown, l => Config.freeLevel l e.seen

/-- The environment's move before a micro-operation: it takes up its next drive, or goes on as it is. -/
def Env.move (e : Env) : Env where
  script := e.script.tail
  now := e.script.headD e.now
  seen := e.seen + 1

/-- The environment after `n` micro-operations. -/
def Env.after : Nat → Env → Env
  | 0, e => e
  | n + 1, e => Env.after n e.move

/-- The level a sample of line `l` draws at the `n`-th micro-operation from now, the next one being the first. -/
def Env.draw (e : Env) (l : Line) (n : Nat) : Level := (Env.after n e).level l

/-- `wire(l)` (10_state.md R21): the controller's level on an output, the environment's on an input. -/
def State.wire (s : State) (l : Line) : Level :=
  match s.lines.dir l with
  | .output => s.lines.out l
  | .input => s.env.level l

/-- One more pair of the wire history (newest first), merged with the newest when it is equal (10_state.md R21). -/
def recordPins (p : Level × Level) : List (Level × Level) → List (Level × Level)
  | [] => [p]
  | q :: ws => if p = q then q :: ws else p :: q :: ws

/-- No pair of a wire history equals the next one: it is merged (10_state.md R21). -/
def historyMerged : List (Level × Level) → Bool
  | [] => true
  | [_] => true
  | q :: p :: ws => decide (q ≠ p) && historyMerged (p :: ws)

/-- What the pins show, (SCL, SDA). -/
def State.pins (s : State) : Level × Level := (s.wire .scl, s.wire .sda)

/-- Record what the pins show (10_state.md R21). -/
def State.observe (s : State) : State := { s with wires := recordPins s.pins s.wires }

/-- The environment moves, at the beginning of a micro-operation, and the pins follow. -/
def State.settle (s : State) : State := State.observe { s with env := s.env.move }

/-- The environment changes its drive at another moment (10_state.md R37). -/
def State.changeDrive (d : EnvDrive) (s : State) : State := State.observe { s with env := { s.env with now := d } }

/-! ## The end of a micro-operation -/

/-- A micro-operation is done: its token is appended to the trace and the pins are recorded (00_scope.md section 7.3). -/
def State.emit (tok : Token) (s : State) : State := State.observe { s with trace := tok :: s.trace }

/-- `raise BusError(code)` (60_exceptions.md R224): all that remains is a STOP, and then the report. -/
def State.raiseBusError (code : ErrCode) (s : State) : State :=
  { s with seq := { s.seq with todo := stopProc s.cfg.stopPreload, code := code } }

/-- A NACKed data-phase byte (44_transaction.md R184): it is sent again, unless MAX_ATTEMPTS transmissions have
been NACKed. With MAX_ATTEMPTS = INF no count is kept (20_memory.md R76). -/
def State.nackedData (v : Byte) (att : Nat) (s : State) : State :=
  match s.cfg.maxAttempts with
  | none => { s with seq := { s.seq with todo := sendByteProc v (.data v att) ++ s.seq.todo } }
  | some m =>
    if att = m then s.raiseBusError .dataNack
    else { s with seq := { s.seq with todo := sendByteProc v (.data v (att + 1)) ++ s.seq.todo } }

/-- What an acknowledgement decides (44_transaction.md R183, R184, 30_encoding.md R103). -/
def State.ackDecision (policy : AckPolicy) (s : State) : State :=
  match policy, s.seq.bit with
  | .report, _ => s
  | .address, false => s
  | .address, true => s.raiseBusError .addrNack
  | .data _ _, false => s
  | .data v att, true => s.nackedData v att

/-- What a procedure does in the same step as a micro-operation. -/
def State.applyPost (post : Post) (s : State) : State :=
  match post with
  | .none => s
  | .startAsserted => { s with tstate := .startAsserted }
  | .toIdle => { s with tstate := .idle }
  | .beginByte v => { s with tstate := tstateAtByteStart s.tstate, shreg := v }
  | .ackEnd policy =>
    State.ackDecision policy { s with ackf := s.seq.bit, tstate := tstateAtByteEnd s.tstate s.seq.bit }
  | .clearShreg => { s with shreg := 0#8 }
  | .shiftIn => { s with shreg := shiftInBit s.shreg s.seq.bit }
  | .resultBit => { s with rdata := byteOfBit s.seq.bit }
  | .resultByte => { s with rdata := s.shreg }
  | .storeRx i => { s with rxbuf := s.rxbuf.write i s.shreg }

/-- A command whose last micro-operation is done ends: BUSY <- 0, DONE <- 1, ERR <- its code, and nothing of it
stays in SEQ (10_state.md R30, R34, 60_exceptions.md R224). -/
def State.finish (s : State) : State :=
  match s.seq.todo with
  | [] => { s with seq := Seq.idle, done := true, err := s.seq.code }
  | _ :: _ => s

/-- The end of a micro-operation: its token, what its procedure does in the same step, and the end of the command
if it was the last. `rest` is what remains of SEQ. -/
def State.retire (tok : Token) (post : Post) (rest : List Micro) (s : State) : State :=
  State.finish (State.applyPost post (State.emit tok { s with seq := { s.seq with todo := rest } }))

/-! ## The controller's step (10_state.md R31) -/

/-- One tick of a wait of `ticks` ticks (10_state.md R26): TIMER is loaded as the wait begins, goes down by one each
tick, and the wait ends when it reaches 0. -/
def State.waitTick (ticks : Nat) (tok : Token) (post : Post) (rest : List Micro) (s : State) : State :=
  match s.timer with
  | 0 =>
    if ticks ≤ 1 then State.retire tok post rest s.settle
    else { s.settle with timer := ticks - 1 }
  | 1 => State.retire tok post rest { s with timer := 0 }
  | n + 2 => { s with timer := n + 1 }

/-- `uW(l, v)` (00_scope.md section 7.3); its `require` is a fault of the model (40_line_driver.md R124). -/
def State.writeLine (l : Line) (v : Level) (post : Post) (rest : List Micro) (s : State) :
    Host.Outcome State Fault Refusal :=
  match s.lines.dir l with
  | .output => .next (State.retire (.w l v) post rest { s.settle with lines := s.lines.setOut l v })
  | .input => .fault (.writeToInput l)

/-- `uT(l, d)` (00_scope.md section 7.3). -/
def State.turnLine (l : Line) (d : Dir) (post : Post) (rest : List Micro) (s : State) : State :=
  State.retire (.t l d) post rest { s.settle with lines := s.lines.setDir l d }

/-- `uS(l)` (00_scope.md section 7.3); its `require` is a fault of the model (40_line_driver.md R124). -/
def State.sampleLine (l : Line) (post : Post) (rest : List Micro) (s : State) :
    Host.Outcome State Fault Refusal :=
  match s.lines.dir l with
  | .input =>
    .next (State.retire (.s l (s.settle.env.level l)) post rest
      { s.settle with seq := { s.seq with bit := s.settle.env.level l } })
  | .output => .fault (.sampleOfOutput l)

/-- The controller's step: one tick of `clk`. The first remaining micro-operation is performed (a wait: one tick of
it); with an empty SEQ the controller does nothing (10_state.md R31, 70_reset_and_hazards.md R260, R282). -/
def State.tick (s : State) : Host.Outcome State Fault Refusal :=
  match s.seq.todo with
  | [] => .next s
  | m :: rest =>
    match m.op with
    | .w l v => s.writeLine l v m.post rest
    | .t l d => .next (s.turnLine l d m.post rest)
    | .s l => s.sampleLine l m.post rest
    | .h => .next (s.waitTick s.cfg.halfTicks .h m.post rest)
    | .f => .next (s.waitTick s.cfg.fullTicks .f m.post rest)

/-! ## Issuing a command (10_state.md R32, R33) -/

/-- Acceptance: BUSY <- 1, DONE <- 0, ERR <- 0, SEQ <- the command's micro-operations (10_state.md R33). -/
def State.accept (proc : List Micro) (s : State) : State :=
  { s with seq := { todo := proc, bit := false, code := .ok }, done := false, err := .ok }

/-- Refusal: DONE <- 1, ERR <- MISUSE, nothing else (60_exceptions.md R223). -/
def State.refuse (s : State) : State := { s with done := true, err := .misuse }

/-- A command is written to CMD: dropped while BUSY = 1 (10_state.md R32), else accepted or refused. -/
def State.issue (legal : Bool) (proc : List Micro) (s : State) : Host.Outcome State Fault Refusal :=
  match s.busy, legal with
  | true, _ => .next s
  | false, true => .next (s.accept proc)
  | false, false => .next s.refuse

/-! ## The host port's buffers and the reset event -/

/-- The host writes TXBUF[i]: no effect while BUSY = 1 (10_state.md R32, 20_memory.md R61). -/
def State.storeTx (i : Nat) (v : Byte) (s : State) : State :=
  match s.busy with
  | true => s
  | false => { s with txbuf := s.txbuf.write i v }

/-- The reset event (70_reset_and_hazards.md R260): every piece of state takes its reset value, a running command is
abandoned, no STOP is issued. The parameters, the outside's pending actions and the model's own counters are no
state of the block; of the environment nothing is known any more (R261, log entry 5). -/
def State.resetEvent (s : State) : State :=
  { State.resetWith s.cfg with
    hostData := s.hostData
    inputs := s.inputs
    env := { s.env with now := { scl := .unknown, sda := .unknown } }
    reads := s.reads
    resets := s.resets + 1 }

end Sys2Proof.Machine
end

