-- ==== Sys2Proof/Machine/BitTimer.lean ====
section
/-! DEFINITION. WAIT_HALF, WAIT_FULL (41_bit_timer.md). Each is legal only with PRIM_EXPOSED (30_encoding.md R100). -/

namespace Sys2Proof.Machine

/-- WAIT_HALF (41_bit_timer.md R140): always legal. -/
def execWaitHalf (s : State) : Host.Outcome State Fault Refusal := s.issue s.cfg.primExposed waitHalfProc

/-- WAIT_FULL (41_bit_timer.md R141): always legal. -/
def execWaitFull (s : State) : Host.Outcome State Fault Refusal := s.issue s.cfg.primExposed waitFullProc

end Sys2Proof.Machine
end

