-- ==== Sys2Proof/Machine/BitTransfer.lean ====
section
/-! DEFINITION. SEND_BIT, READ_BIT (42_bit_transfer.md). Each is legal only with PRIM_EXPOSED (30_encoding.md R100). -/

namespace Sys2Proof.Machine

/-- SEND_BIT (42_bit_transfer.md R150, R153): VALUE[7:1] = 0, both lines outputs, a transaction open. -/
def execSendBit (value : Byte) (s : State) : Host.Outcome State Fault Refusal :=
  s.issue (s.cfg.primExposed && decide (value < 2#8) && s.lines.bothOut && decide (s.tstate ≠ .idle))
    (sendBitProc .none (bitOperand value))

/-- READ_BIT (42_bit_transfer.md R151, R153): clock an output, data an input, a transaction open. -/
def execReadBit (s : State) : Host.Outcome State Fault Refusal :=
  s.issue (s.cfg.primExposed && decide (s.lines.dirScl = .output) && decide (s.lines.dirSda = .input) &&
    decide (s.tstate ≠ .idle)) (readBitProc .resultBit)

end Sys2Proof.Machine
end

