-- ==== Sys2Proof/Machine/ByteTransfer.lean ====
section
/-! DEFINITION. SEND_BYTE, READ_BYTE (43_byte_transfer.md). Each is legal only with PRIM_EXPOSED (30_encoding.md R100). -/

namespace Sys2Proof.Machine

/-- SEND_BYTE (43_byte_transfer.md R165): both lines outputs, a transaction open; a NACK is a result. -/
def execSendByte (value : Byte) (s : State) : Host.Outcome State Fault Refusal :=
  s.issue (s.cfg.primExposed && s.lines.bothOut && decide (s.tstate ≠ .idle)) (sendByteProc value .report)

/-- READ_BYTE (43_byte_transfer.md R166): clock an output, a transaction open. -/
def execReadByte (s : State) : Host.Outcome State Fault Refusal :=
  s.issue (s.cfg.primExposed && decide (s.lines.dirScl = .output) && decide (s.tstate ≠ .idle))
    (readByteProc .resultByte)

end Sys2Proof.Machine
end

