-- ==== Sys2Proof/Machine/LineDriver.lean ====
section
/-! DEFINITION. SET_LINE, SET_DIR, READ_LINE (40_line_driver.md). Each is legal only with PRIM_EXPOSED (30_encoding.md R100). -/

namespace Sys2Proof.Machine

/-- SET_LINE (40_line_driver.md R120): legal when the line is an output. -/
def execSetLine (line : Line) (level : Level) (s : State) : Host.Outcome State Fault Refusal :=
  s.issue (s.cfg.primExposed && decide (s.lines.dir line = .output)) (setLineProc line level)

/-- SET_DIR (40_line_driver.md R121): always legal. -/
def execSetDir (line : Line) (dir : Dir) (s : State) : Host.Outcome State Fault Refusal :=
  s.issue s.cfg.primExposed (setDirProc line dir)

/-- READ_LINE (40_line_driver.md R122): legal when the line is an input. -/
def execReadLine (line : Line) (s : State) : Host.Outcome State Fault Refusal :=
  s.issue (s.cfg.primExposed && decide (s.lines.dir line = .input)) (readLineProc line)

end Sys2Proof.Machine
end

