-- ==== Sys2Proof/Machine/Transaction.lean ====
section
/-! DEFINITION. START, STOP, WRITE_BLOCK, READ_BLOCK (44_transaction.md). -/

namespace Sys2Proof.Machine

/-- START (44_transaction.md R181): both lines outputs, in any TSTATE; with PRIM_EXPOSED only (30_encoding.md R100). -/
def execStart (s : State) : Host.Outcome State Fault Refusal :=
  s.issue (s.cfg.primExposed && s.lines.bothOut) startProc

/-- STOP (44_transaction.md R182): both lines outputs, a transaction open; with PRIM_EXPOSED only (30_encoding.md R100). -/
def execStop (s : State) : Host.Outcome State Fault Refusal :=
  s.issue (s.cfg.primExposed && s.lines.bothOut && decide (s.tstate ≠ .idle)) (stopProc s.cfg.stopPreload)

/-- The legality of both block commands (44_transaction.md R185): the address has seven bits, TSTATE = IDLE, both
lines outputs, 1 ≤ COUNT ≤ MAX_COUNT. -/
def State.blockLegal (addr count : Byte) (s : State) : Bool :=
  decide (addr < 0x80#8) && decide (s.tstate = .idle) && s.lines.bothOut &&
    decide (1 ≤ countOperand count) && decide (countOperand count ≤ s.cfg.maxCount)

/-- WRITE_BLOCK (44_transaction.md R186). -/
def execWriteBlock (addr reg count : Byte) (s : State) : Host.Outcome State Fault Refusal :=
  s.issue (s.blockLegal addr count)
    (writeBlockProc s.cfg.stopPreload addr reg (s.txBytes 0 (countOperand count)))

/-- READ_BLOCK (44_transaction.md R187). -/
def execReadBlock (addr reg count : Byte) (s : State) : Host.Outcome State Fault Refusal :=
  s.issue (s.blockLegal addr count) (readBlockProc s.cfg.stopPreload addr reg (countOperand count))

end Sys2Proof.Machine
end

