-- ==== Sys2Proof/Machine/Dispatch.lean ====
section
/-! DEFINITION. One arm per command: what writing it to CMD does. -/

namespace Sys2Proof.Machine

/-- A command is issued (10_state.md R33). Its micro-operations are then performed by the steps that follow (R31). -/
def exec (i : Instr) (s : State) : Host.Outcome State Fault Refusal :=
  match i with
  | .setLine line level => Sys2Proof.Machine.execSetLine line level s
  | .setDir line dir => Sys2Proof.Machine.execSetDir line dir s
  | .readLine line => Sys2Proof.Machine.execReadLine line s
  | .waitHalf => Sys2Proof.Machine.execWaitHalf s
  | .waitFull => Sys2Proof.Machine.execWaitFull s
  | .sendBit value => Sys2Proof.Machine.execSendBit value s
  | .readBit => Sys2Proof.Machine.execReadBit s
  | .sendByte value => Sys2Proof.Machine.execSendByte value s
  | .readByte => Sys2Proof.Machine.execReadByte s
  | .start => Sys2Proof.Machine.execStart s
  | .stop => Sys2Proof.Machine.execStop s
  | .writeBlock addr reg count => Sys2Proof.Machine.execWriteBlock addr reg count s
  | .readBlock addr reg count => Sys2Proof.Machine.execReadBlock addr reg count s

end Sys2Proof.Machine
end

