-- ==== Sys2Proof/Machine/Port.lean ====
section
/-! DEFINITION. The host port (10_state.md section 7) and what each entry of `inputs` does. -/

namespace Sys2Proof.Machine

/-- A word that selects no operation is written to CMD: refused, or dropped while BUSY = 1 (30_encoding.md R98, R99,
60_exceptions.md R223 check 1). -/
def State.rejectWord (s : State) : Host.Outcome State Fault Refusal := s.issue false []

/-- A word is written to CMD (10_state.md R33): decoded and issued. -/
def State.issueWord (w : Word) (s : State) : Host.Outcome State Fault Refusal :=
  match decode w with
  | .ok i => exec i s
  | .error _ => s.rejectWord

/-- The host writes register number `num`: 0x000 is CMD, 0x100 + i is TXBUF[i], anything else has no effect
(10_state.md section 7, 93_implementation_defined.md U6). TXBUF[i] takes bits 7:0 of the value (log entry 20). -/
def State.writePort (num : Nat) (val : Word) (s : State) : Host.Outcome State Fault Refusal :=
  if num = 0x000 then s.issueWord val
  else if 0x100 ≤ num ∧ num < 0x100 + s.cfg.maxCount then .next (s.storeTx (num - 0x100) (val.setWidth 8))
  else .next s

/-- The value a host read of register number `num` gives: 0x001 STATUS, 0x002 RDATA, 0x003 LINES, 0x200 + i RXBUF[i]
(10_state.md section 7). RDATA and RXBUF while BUSY = 1, and every other number, give a free value
(93_implementation_defined.md U5, U6, log entry 8). -/
def State.readPort (num : Nat) (s : State) : Byte :=
  if num = 0x001 then s.status
  else if num = 0x002 then (if s.busy then Config.freeRead num s.reads else s.rdata)
  else if num = 0x003 then (s.linesView).setWidth 8
  else if 0x200 ≤ num ∧ num < 0x200 + s.cfg.maxCount then
    (if s.busy then Config.freeRead num s.reads else s.rxByte (num - 0x200))
  else Config.freeRead num s.reads

/-- The host reads: it gets the value, and no state of the block changes (10_state.md R32). -/
def State.hostRead (num : Nat) (s : State) : State := { s with hostData := s.readPort num, reads := s.reads + 1 }

/-- What the entry `x` of `inputs` does to `s`, from which it has been taken. The host polls as long as BUSY = 1:
then the entry `await` is put back and the controller steps (70_reset_and_hazards.md R262). -/
def State.take (x : Input) (s : State) : Host.Outcome State Fault Refusal :=
  match x with
  | .write num val => s.writePort num val
  | .read num => .next (s.hostRead num)
  | .await => if s.busy then State.tick { s with inputs := .await :: s.inputs } else .next s
  | .pass => s.tick
  | .drive d => .next (s.changeDrive d)
  | .reset => .next s.resetEvent

/-- The state with the word `w` as the host's next write to CMD and no command running (log entry 10). -/
def State.withCommandWord (w : Word) (s : State) : State :=
  { s with seq := Seq.idle, timer := 0, inputs := .write 0x000 w :: s.inputs }

end Sys2Proof.Machine
end

