-- ==== Sys2Proof/Machine/Step.lean ====
section
/-! DEFINITION. One step of the machine: the outside's next action, or else the controller's step. -/

namespace Sys2Proof.Machine

/-- One step. The first entry of `inputs` says which agent moves; with none left the controller moves. -/
def step (s : State) : Host.Outcome State Fault Refusal :=
  match s.inputs with
  | [] => s.tick
  | x :: rest => State.take x { s with inputs := rest }

/-- The state whose next step issues the command word `w` (bits above `nbits` are 0; log entry 10). -/
def State.withFetchWord (s : State) (nbits w : Nat) : State :=
  s.withCommandWord (BitVec.ofNat 32 (w % 2 ^ nbits))

end Sys2Proof.Machine
end

