-- ==== Sys2Proof/Safety.lean ====
section
/-! DEFINITION. The terms claims are made in: runs, legality as 60_exceptions.md R223 lists it, the invariant, the
cost table of 70_reset_and_hazards.md R281, and the bus monitor of 95_test_vectors.md section 1. -/

namespace Sys2Proof.Machine

/-! ## Runs -/

/-- `k` steps from `s`, stopping at the first fault or refusal. -/
def run : Nat → State → Host.Outcome State Fault Refusal
  | 0, s => .next s
  | k + 1, s =>
    match step s with
    | .next t => run k t
    | .fault r => .fault r
    | .refused r => .refused r

/-- No command runs and the outside does nothing: from here only what is issued next happens. -/
def State.Quiet (s : State) : Prop := s.seq = Seq.idle ∧ s.timer = 0 ∧ s.inputs = []

/-! ## Legality (60_exceptions.md R223) -/

/-- The eleven primitive commands, OP 0x1 to 0xB (30_encoding.md R100). -/
def isPrimitive : Instr → Bool
  | .writeBlock _ _ _ => false
  | .readBlock _ _ _ => false
  | .setLine _ _ => true
  | .setDir _ _ => true
  | .readLine _ => true
  | .waitHalf => true
  | .waitFull => true
  | .sendBit _ => true
  | .readBit => true
  | .sendByte _ => true
  | .readByte => true
  | .start => true
  | .stop => true

/-- Check 1: the word matches a row of the opcode map, and the operation is exposed. -/
def rowCheck (i : Instr) (s : State) : Prop := i.wf = true ∧ (isPrimitive i = true → s.cfg.primExposed = true)

/-- Check 2: the operation's line-direction condition. -/
def directionCheck (i : Instr) (s : State) : Prop :=
  match i with
  | .setLine line _ => s.lines.dir line = .output
  | .setDir _ _ => True
  | .readLine line => s.lines.dir line = .input
  | .waitHalf => True
  | .waitFull => True
  | .sendBit _ => s.lines.dirScl = .output ∧ s.lines.dirSda = .output
  | .readBit => s.lines.dirScl = .output ∧ s.lines.dirSda = .input
  | .sendByte _ => s.lines.dirScl = .output ∧ s.lines.dirSda = .output
  | .readByte => s.lines.dirScl = .output
  | .start => s.lines.dirScl = .output ∧ s.lines.dirSda = .output
  | .stop => s.lines.dirScl = .output ∧ s.lines.dirSda = .output
  | .writeBlock _ _ _ => s.lines.dirScl = .output ∧ s.lines.dirSda = .output
  | .readBlock _ _ _ => s.lines.dirScl = .output ∧ s.lines.dirSda = .output

/-- Check 3: the operation's transaction-state condition. -/
def transactionCheck (i : Instr) (s : State) : Prop :=
  match i with
  | .setLine _ _ => True
  | .setDir _ _ => True
  | .readLine _ => True
  | .waitHalf => True
  | .waitFull => True
  | .sendBit _ => s.tstate ≠ .idle
  | .readBit => s.tstate ≠ .idle
  | .sendByte _ => s.tstate ≠ .idle
  | .readByte => s.tstate ≠ .idle
  | .start => True
  | .stop => s.tstate ≠ .idle
  | .writeBlock _ _ _ => s.tstate = .idle
  | .readBlock _ _ _ => s.tstate = .idle

/-- Check 4: the count of a block command is in 1..MAX_COUNT. -/
def countCheck (i : Instr) (s : State) : Prop :=
  match i with
  | .setLine _ _ => True
  | .setDir _ _ => True
  | .readLine _ => True
  | .waitHalf => True
  | .waitFull => True
  | .sendBit _ => True
  | .readBit => True
  | .sendByte _ => True
  | .readByte => True
  | .start => True
  | .stop => True
  | .writeBlock _ _ count => 1 ≤ count.toNat ∧ count.toNat ≤ s.cfg.maxCount
  | .readBlock _ _ count => 1 ≤ count.toNat ∧ count.toNat ≤ s.cfg.maxCount

/-- No check of 60_exceptions.md R223 fails. -/
def Legal (i : Instr) (s : State) : Prop :=
  rowCheck i s ∧ directionCheck i s ∧ transactionCheck i s ∧ countCheck i s

/-! ## The invariant -/

/-- Starting from the lines `x`, the micro-operations that remain write only outputs and sample only inputs, and
both lines are outputs wherever an acknowledgement may call for a STOP or a repeated byte (10_state.md R24, R25,
40_line_driver.md R124). -/
def linesSafe : Lines → List Micro → Bool
  | _, [] => true
  | x, m :: rest =>
    (match m.op with
      | .w l _ => decide (x.dir l = .output)
      | .s l => decide (x.dir l = .input)
      | .t _ _ => true
      | .h => true
      | .f => true) &&
    (match m.post with
      | .ackEnd _ =>
        (match m.op with
          | .t l d => (x.setDir l d).bothOut
          | _ => x.bothOut)
      | _ => true) &&
    linesSafe
      (match m.op with
        | .t l d => x.setDir l d
        | _ => x) rest

/-- TIMER runs only inside a wait, below the wait's length (10_state.md R26). -/
def State.timerSafe (s : State) : Prop :=
  s.timer = 0 ∨
    ∃ m rest, s.seq.todo = m :: rest ∧
      ((m.op = .h ∧ s.timer < s.cfg.halfTicks) ∨ (m.op = .f ∧ s.timer < s.cfg.fullTicks))

/-- What every step keeps: legal parameters, both buffers in canonical form, a SEQ that never breaks a `require`,
TIMER 0 outside waits, nothing left in SEQ when no command runs, and a merged wire history that ends with what the
pins show. -/
structure State.Inv (s : State) : Prop where
  cfg : s.cfg.legal = true
  txbuf : s.txbuf.wf = true
  rxbuf : s.rxbuf.wf = true
  lines : linesSafe s.lines s.seq.todo = true
  timer : s.timerSafe
  idle : s.seq.todo = [] → s.seq = Seq.idle
  pins : s.wires.head? = some s.pins
  merged : historyMerged s.wires = true

/-- The environment breaks the premise of 10_state.md R24: it drives data against the controller. The model goes on
as R21 says (log entry 17). -/
def Contention (s : State) : Prop :=
  s.lines.dirSda = .output ∧ s.env.now.sda = .level (!s.lines.outSda)

/-! ## Time (10_state.md R26, 70_reset_and_hazards.md R281 to R283) -/

/-- The ticks of a micro-operation (70_reset_and_hazards.md R282). -/
def microTicks (c : Config) : MicroOp → Nat
  | .w _ _ => 1
  | .t _ _ => 1
  | .s _ => 1
  | .h => c.halfTicks
  | .f => c.fullTicks

/-- The controller without time (70_reset_and_hazards.md R283): a whole micro-operation at once, a wait being a step
that only appends its token. -/
def State.microStep (s : State) : Host.Outcome State Fault Refusal :=
  match s.seq.todo with
  | [] => .next s
  | m :: rest =>
    match m.op with
    | .w l v => s.writeLine l v m.post rest
    | .t l d => .next (s.turnLine l d m.post rest)
    | .s l => s.sampleLine l m.post rest
    | .h => .next (State.retire .h m.post rest s.settle)
    | .f => .next (State.retire .f m.post rest s.settle)

/-- Micro-operations of an operation, the waits among them, and its waiting time in half periods. -/
structure Cost where
  micros : Nat
  waits : Nat
  halves : Nat
deriving DecidableEq, Repr

/-- The ticks of an operation: (m - w) + W × HALF_TICKS (70_reset_and_hazards.md R282). -/
def Cost.ticks (c : Cost) (halfTicks : Nat) : Nat := (c.micros - c.waits) + c.halves * halfTicks

/-- The micro-operations of STOP (70_reset_and_hazards.md R281). -/
def stopMicros (preload : Bool) : Nat := if preload then 5 else 4

/-- The rows of 70_reset_and_hazards.md R281; the block rows are for a command whose every byte is ACKed at once. -/
def costOf (preload : Bool) : Instr → Cost
  | .setLine _ _ => ⟨1, 0, 0⟩
  | .setDir _ _ => ⟨1, 0, 0⟩
  | .readLine _ => ⟨1, 0, 0⟩
  | .waitHalf => ⟨1, 1, 1⟩
  | .waitFull => ⟨1, 1, 2⟩
  | .sendBit _ => ⟨7, 3, 4⟩
  | .readBit => ⟨6, 3, 4⟩
  | .sendByte _ => ⟨64, 27, 36⟩
  | .readByte => ⟨50, 24, 32⟩
  | .start => ⟨4, 0, 0⟩
  | .stop => ⟨stopMicros preload, 2, 4⟩
  | .writeBlock _ _ count =>
    ⟨4 + 64 * (count.toNat + 2) + stopMicros preload, 27 * (count.toNat + 2) + 2, 36 * (count.toNat + 2) + 4⟩
  | .readBlock _ _ count =>
    ⟨200 + 57 * count.toNat + stopMicros preload, 83 + 27 * count.toNat, 112 + 36 * count.toNat⟩

/-! ## What a command leaves behind -/

/-- `s` after a command of `n` micro-operations whose tokens are `toks` (oldest first) and whose pins showed `wl`
(newest first), ended with `code`: the environment has moved, the observations have grown, DONE and ERR are
written, and nothing else. -/
def State.ended (s : State) (n : Nat) (toks : List Token) (wl : List (Level × Level)) (code : ErrCode) : State :=
  { s with
    env := s.env.after n
    trace := toks.reverse ++ s.trace
    wires := wl ++ s.wires
    done := true
    err := code }

/-- The trace of SEND_BIT (42_bit_transfer.md R150). -/
def sendBitTokens (v : Level) : List Token :=
  [.w .sda v, .w .scl false, .h, .w .scl true, .f, .w .scl false, .h]

/-- The trace of READ_BIT with the sample `b` (42_bit_transfer.md R151). -/
def readBitTokens (b : Level) : List Token := [.h, .w .scl true, .f, .s .sda b, .w .scl false, .h]

/-- The trace of SEND_BYTE with the acknowledgement sample `a` (43_byte_transfer.md R165). -/
def sendByteTokens (v : Byte) (a : Level) : List Token :=
  (bitsMsbFirst v).flatMap sendBitTokens ++ [.t .sda .input] ++ readBitTokens a ++ [.t .sda .output]

/-- The trace of READ_BYTE with the samples `bits` (43_byte_transfer.md R166). -/
def readByteTokens (bits : List Level) : List Token :=
  [.t .sda .input] ++ bits.flatMap readBitTokens ++ [.t .sda .output]

/-- The trace of START (44_transaction.md R181): `D1 C1 D0 C0`. -/
def startTokens : List Token := [.w .sda true, .w .scl true, .w .sda false, .w .scl false]

/-- The trace of STOP (44_transaction.md R182): `D0 f C1 f D1`, without `D0` when STOP_PRELOAD is false. -/
def stopTokens (preload : Bool) : List Token :=
  (if preload then [.w .sda false] else []) ++ [.f, .w .scl true, .f, .w .sda true]

/-- The data draws of the eight samples of a READ_BYTE whose first micro-operation is the `n + 1`-th from now. -/
def readDraws (e : Env) (n : Nat) : List Level :=
  [e.draw .sda (n + 5), e.draw .sda (n + 11), e.draw .sda (n + 17), e.draw .sda (n + 23), e.draw .sda (n + 29),
    e.draw .sda (n + 35), e.draw .sda (n + 41), e.draw .sda (n + 47)]

/-- The acknowledgement drawn by the `j`-th byte (the first is 0) of a block command whose bytes follow one START. -/
def ackDraw (e : Env) (j : Nat) : Level := e.draw .sda (65 + 64 * j)

/-- The reads of a READ_BLOCK in the trace: byte `i` on, `n` of them, each with the master's acknowledgement bit. -/
def readsTokens (e : Env) : Nat → Nat → List Token
  | _, 0 => []
  | i, n + 1 =>
    readByteTokens (readDraws e (200 + 57 * i)) ++ sendBitTokens (n == 0) ++ readsTokens e (i + 1) n

/-! ## The trace -/

/-- The levels the controller wrote to the data latch, oldest first, from a stretch of the trace (newest first). -/
def dataWrites : List Token → List Level
  | [] => []
  | .w .sda v :: toks => dataWrites toks ++ [v]
  | .w .scl _ :: toks => dataWrites toks
  | .t _ _ :: toks => dataWrites toks
  | .s _ _ :: toks => dataWrites toks
  | .h :: toks => dataWrites toks
  | .f :: toks => dataWrites toks

/-- The levels sampled on the data line, oldest first. -/
def dataSamples : List Token → List Level
  | [] => []
  | .s .sda b :: toks => dataSamples toks ++ [b]
  | .s .scl _ :: toks => dataSamples toks
  | .w _ _ :: toks => dataSamples toks
  | .t _ _ :: toks => dataSamples toks
  | .h :: toks => dataSamples toks
  | .f :: toks => dataSamples toks

/-! ## The bus monitor (95_test_vectors.md section 1) -/

/-- What the monitor writes: `S`, `P`, or a transferred bit. -/
inductive BusSymbol where
  | start
  | stop
  | bit (b : Level)
deriving DecidableEq, Repr

/-- One pair of consecutive entries of the wire history: the new `pend` and what is emitted. -/
def monitorStep (pend : Option Level) (p q : Level × Level) : Option Level × List BusSymbol :=
  match p, q with
  | (false, _), (true, d) => (some d, [])
  | (true, true), (true, false) => (none, [.start])
  | (true, false), (true, true) => (none, [.stop])
  | (true, true), (true, true) => (pend, [])
  | (true, false), (true, false) => (pend, [])
  | (true, _), (false, _) => (none, (pend.map BusSymbol.bit).toList)
  | (false, _), (false, _) => (pend, [])

/-- The monitor over a wire history, oldest pair first, `p` the pair before it. -/
def monitor : Option Level → Level × Level → List (Level × Level) → List BusSymbol
  | _, _, [] => []
  | pend, p, q :: qs => (monitorStep pend p q).2 ++ monitor (monitorStep pend p q).1 q qs

/-- What the monitor has written since reset. -/
def State.busString (s : State) : List BusSymbol := monitor none (true, true) s.wires.reverse

/-- START conditions in a wire history, newest pair first (GLOSSARY: data high to low while the clock is high). -/
def startConditions : List (Level × Level) → Nat
  | [] => 0
  | [_] => 0
  | q :: p :: rest => (if p = (true, true) ∧ q = (true, false) then 1 else 0) + startConditions (p :: rest)

/-- STOP conditions in a wire history, newest pair first (GLOSSARY: data low to high while the clock is high). -/
def stopConditions : List (Level × Level) → Nat
  | [] => 0
  | [_] => 0
  | q :: p :: rest => (if p = (true, false) ∧ q = (true, true) then 1 else 0) + stopConditions (p :: rest)

/-- The levels the data line shows at the clock's rises in a wire history, newest pair first; oldest rise first. -/
def dataAtRises : List (Level × Level) → List Level
  | [] => []
  | [_] => []
  | q :: p :: rest => dataAtRises (p :: rest) ++ (if p.1 = false ∧ q.1 = true then [q.2] else [])

end Sys2Proof.Machine
end

