-- ==== Sys2Proof/Certificates/Slice0/Obligations.lean ====
section
/-! DEFINITION. The statements for the provers, each from the spec's numbered rules. -/

open Sys2Proof Sys2Proof.Machine

/-! ## Encoding -/

/-- 30_encoding.md R104: the sixteen worked words decode to the commands they are written for. -/
def Obligations.WorkedWordsDecode : Prop :=
  decode 0x10000003#32 = .ok (.setLine .sda true) ∧
  decode 0x10000000#32 = .ok (.setLine .scl false) ∧
  decode 0x20000002#32 = .ok (.setDir .sda .input) ∧
  decode 0x20000003#32 = .ok (.setDir .sda .output) ∧
  decode 0x30000002#32 = .ok (.readLine .sda) ∧
  decode 0x40000000#32 = .ok .waitHalf ∧
  decode 0x50000000#32 = .ok .waitFull ∧
  decode 0x60000001#32 = .ok (.sendBit 1#8) ∧
  decode 0x70000000#32 = .ok .readBit ∧
  decode 0x800000D0#32 = .ok (.sendByte 0xD0#8) ∧
  decode 0x90000000#32 = .ok .readByte ∧
  decode 0xA0000000#32 = .ok .start ∧
  decode 0xB0000000#32 = .ok .stop ∧
  decode 0xC6800070#32 = .ok (.writeBlock 0x68#8 0x00#8 7#8) ∧
  decode 0xD6800070#32 = .ok (.readBlock 0x68#8 0x00#8 7#8) ∧
  decode 0xD7FFFFF0#32 = .ok (.readBlock 0x7F#8 0xFF#8 255#8)

/-- Decoding the encoding of any well-formed command gives it back, with every operand at every value its field
admits (30_encoding.md R91 to R94, R97). -/
def Obligations.DecodeInvertsEncode : Prop :=
  ∀ i : Instr, i.wf = true → decode (encode i) = .ok i

/-- A word that decodes is the encoding of the command it decodes to, and that command is well formed: no bit of a
word is ignored (30_encoding.md R98). -/
def Obligations.EncodeInvertsDecode : Prop :=
  ∀ (w : Word) (i : Instr), decode w = .ok i → i.wf = true ∧ encode i = w

/-- 30_encoding.md R97: "A word w selects a row when (w & mask) = match." The decoder, written from the formats,
gives a command of a row exactly when the word selects that row of the opcode map. -/
def Obligations.DecodeFollowsOpcodeMap : Prop :=
  (∀ (w : Word) (i : Instr), decode w = .ok i → w &&& (opcodeRow i).mask = (opcodeRow i).bits) ∧
  (∀ (w : Word) (i : Instr), w &&& (opcodeRow i).mask = (opcodeRow i).bits →
    ∃ j, decode w = .ok j ∧ opcodeRow j = opcodeRow i)

/-- 30_encoding.md R99: OP 0x0, 0xE and 0xF select no operation, whatever the other bits (a word with any other OP that
is refused has a 1 in a bit its format marks 0, R98), and a word with one of them is refused: DONE <- 1, ERR <- 3 and
nothing else. -/
def Obligations.ReservedOpcodesAreRefused : Prop :=
  (∀ w : Word,
    (w.extractLsb' 28 4 = 0x0#4 ∨ w.extractLsb' 28 4 = 0xE#4 ∨ w.extractLsb' 28 4 = 0xF#4 ↔
      decode w = .error .reservedOpcode)) ∧
  (∀ (s : State) (w : Word) (rest : List Input), s.inputs = .write 0x000 w :: rest → s.busy = false →
    (w.extractLsb' 28 4 = 0x0#4 ∨ w.extractLsb' 28 4 = 0xE#4 ∨ w.extractLsb' 28 4 = 0xF#4) →
    step s = .next { s with inputs := rest, done := true, err := .misuse })

/-- 30_encoding.md R95: the address byte holds the address in bits 7:1 and the direction in bit 0, WRITE = 0, READ = 1. -/
def Obligations.AddressByteLayout : Prop :=
  ∀ addr : Byte, addr < 0x80#8 →
    (addrByte addr .write).toNat = 2 * addr.toNat ∧ (addrByte addr .read).toNat = 2 * addr.toNat + 1

/-! ## Reset, the invariant, the parameters -/

/-- 10_state.md R39: the values the spec gives for reset, with any parameters. -/
def Obligations.ResetGivesIdleBus : Prop :=
  ∀ c : Config,
    (State.resetWith c).lines = { outScl := true, outSda := true, dirScl := .output, dirSda := .output } ∧
    (State.resetWith c).tstate = .idle ∧
    (State.resetWith c).seq.todo = [] ∧
    (State.resetWith c).busy = false ∧
    (State.resetWith c).done = false ∧
    (State.resetWith c).err = .ok ∧
    (State.resetWith c).timer = 0 ∧
    (State.resetWith c).linesView = 0xF#4 ∧
    (State.resetWith c).wire .scl = true ∧
    (State.resetWith c).wire .sda = true

/-- 70_reset_and_hazards.md R260: the reset event, whatever runs, gives in one step the reset values the spec states,
abandons the command (no token is appended, so no STOP is issued) and keeps the parameters.
That the outside's pending actions stay is log entry 23, that the observations restart is log entry 16. -/
def Obligations.ResetEventAbandonsCommand : Prop :=
  ∀ (s : State) (rest : List Input), s.inputs = .reset :: rest →
    ∃ t, step s = .next t ∧
      t.lines = { outScl := true, outSda := true, dirScl := .output, dirSda := .output } ∧
      t.tstate = .idle ∧ t.seq = Seq.idle ∧ t.busy = false ∧ t.done = false ∧ t.err = .ok ∧ t.timer = 0 ∧
      t.trace = [] ∧ t.wires = [(true, true)] ∧ t.cfg = s.cfg ∧ t.inputs = rest

/-- The reset state with legal parameters meets the invariant.
The invariant is the model's own: log entries 7 (buffers), 12 (TIMER), 13 (SEQ), 16 (wire history). -/
def Obligations.ResetMeetsInvariant : Prop :=
  ∀ c : Config, c.legal = true → (State.resetWith c).Inv

/-- Every step keeps the invariant, from every state that meets it.
The invariant is the model's own: log entries 7 (buffers), 12 (TIMER), 13 (SEQ), 16 (wire history). -/
def Obligations.StepKeepsInvariant : Prop :=
  ∀ s t : State, s.Inv → step s = .next t → t.Inv

/-- From every state that meets the invariant the machine has a next state: the internal requires of 40_line_driver.md
R124 never fail, and no command is without a meaning.
The invariant is the model's own: log entries 7 (buffers), 12 (TIMER), 13 (SEQ), 16 (wire history). -/
def Obligations.InvariantStateAlwaysSteps : Prop :=
  ∀ s : State, s.Inv → ∃ t, step s = .next t

/-- 70_reset_and_hazards.md R262: the parameters cannot be changed while the block runs. -/
def Obligations.ParametersNeverChange : Prop :=
  ∀ s t : State, step s = .next t → t.cfg = s.cfg

/-! ## Issuing a command -/

/-- When the host's next action writes a word that decodes to `i`, the step is exec of `i` on the state with that
action taken (10_state.md R33).
That the outside acts through `inputs` is log entry 9. -/
def Obligations.StepIssuesDecodedCommand : Prop :=
  ∀ (s : State) (w : Word) (rest : List Input) (i : Instr),
    s.inputs = .write 0x000 w :: rest → decode w = .ok i → step s = exec i { s with inputs := rest }

/-- The fetch helper places a command so that the very next step issues exactly it.
The helper is the model's own, log entry 10. -/
def Obligations.FetchWordIsIssuedNext : Prop :=
  ∀ (s : State) (i : Instr), i.wf = true →
    step (s.withFetchWord 32 (encode i).toNat) = exec i { s with seq := Seq.idle, timer := 0 }

/-- 10_state.md R33, acceptance: BUSY <- 1, DONE <- 0, ERR <- 0, SEQ <- the command's micro-operations, in one step,
and nothing else. -/
def Obligations.LegalCommandIsAccepted : Prop :=
  ∀ (i : Instr) (s : State), s.busy = false → Legal i s →
    ∃ todo : List Micro, todo ≠ [] ∧
      exec i s = .next { s with seq := { todo := todo, bit := false, code := .ok }, done := false, err := .ok }

/-- 60_exceptions.md R223, refusal: DONE <- 1, ERR <- 3, nothing else. -/
def Obligations.IllegalCommandIsRefused : Prop :=
  ∀ (i : Instr) (s : State), s.busy = false → ¬ Legal i s →
    exec i s = .next { s with done := true, err := .misuse }

/-- 30_encoding.md R98, R99: a word that selects no operation is refused as in R223. -/
def Obligations.UndecodableWordIsRefused : Prop :=
  ∀ (s : State) (w : Word) (rest : List Input) (r : Reject),
    s.inputs = .write 0x000 w :: rest → s.busy = false → decode w = .error r →
    step s = .next { s with inputs := rest, done := true, err := .misuse }

/-- 60_exceptions.md R223: a word written to CMD while BUSY = 0 is refused exactly when it matches no exposed row of the
opcode map or fails one of the other checks (`Legal` lists them); a refusal sets DONE and ERR = 3 and changes nothing
else; any other word is accepted. -/
def Obligations.CommandWriteIsAcceptedOrRefused : Prop :=
  ∀ (s : State) (w : Word) (rest : List Input), s.inputs = .write 0x000 w :: rest → s.busy = false →
    ((∃ i, decode w = .ok i ∧ Legal i s) →
      ∃ todo : List Micro, todo ≠ [] ∧
        step s = .next { s with
          inputs := rest, seq := { todo := todo, bit := false, code := .ok }, done := false, err := .ok }) ∧
    ((∀ i, decode w = .ok i → ¬ Legal i s) →
      step s = .next { s with inputs := rest, done := true, err := .misuse })

/-- 30_encoding.md R100: with PRIM_EXPOSED false the eleven lower operations are refused, and the command set is the two
block commands: either of them is accepted as soon as its own conditions hold. -/
def Obligations.HiddenPrimitivesAreRefused : Prop :=
  ∀ (i : Instr) (s : State), s.busy = false → s.cfg.primExposed = false →
    ((∀ addr reg count, i ≠ .writeBlock addr reg count ∧ i ≠ .readBlock addr reg count) →
      exec i s = .next { s with done := true, err := .misuse }) ∧
    (∀ addr reg count, (i = .writeBlock addr reg count ∨ i = .readBlock addr reg count) →
      addr < 0x80#8 → s.tstate = .idle → s.lines.dirScl = .output → s.lines.dirSda = .output →
      1 ≤ count.toNat → count.toNat ≤ s.cfg.maxCount →
      ∃ todo : List Micro, todo ≠ [] ∧
        exec i s = .next { s with seq := { todo := todo, bit := false, code := .ok }, done := false, err := .ok })

/-- 10_state.md R32: a write to CMD or TXBUF (or to any other number) while BUSY = 1 has no effect at all. -/
def Obligations.WritesWhileBusyAreDropped : Prop :=
  ∀ (s : State) (num : Nat) (val : Word) (rest : List Input),
    s.inputs = .write num val :: rest → s.busy = true → step s = .next { s with inputs := rest }

/-- 20_memory.md R61: the host's write to number 0x100 + i while BUSY = 0 stores TXBUF[i], and every other entry and
register keeps its value.
That the byte is bits 7:0 of the written value is log entry 20. -/
def Obligations.TxbufWriteStoresOneByte : Prop :=
  ∀ (s : State) (i : Nat) (val : Word) (rest : List Input),
    s.inputs = .write (0x100 + i) val :: rest → s.busy = false → i < s.cfg.maxCount →
    ∃ m, step s = .next { s with inputs := rest, txbuf := m } ∧
      m.read i = some (val.setWidth 8) ∧ ∀ j, j ≠ i → m.read j = s.txbuf.read j

/-- 10_state.md section 7, 93_implementation_defined.md U6: a host write to a number that is neither CMD nor a TXBUF entry
(a read-only register, an RXBUF entry, any number outside the map) has no effect, busy or not. -/
def Obligations.UnmappedWriteHasNoEffect : Prop :=
  ∀ (s : State) (num : Nat) (val : Word) (rest : List Input), s.inputs = .write num val :: rest →
    num ≠ 0x000 → ¬ (0x100 ≤ num ∧ num < 0x100 + s.cfg.maxCount) → step s = .next { s with inputs := rest }

/-- 10_state.md R32, section 7: what a host read gives, and that it changes no state of the block.
The fields `hostData` and `reads` are the model's own, log entry 8. -/
def Obligations.HostReadsHaveNoSideEffect : Prop :=
  ∀ (s : State) (num : Nat) (rest : List Input), s.inputs = .read num :: rest →
    ∃ v, step s = .next { s with inputs := rest, hostData := v, reads := s.reads + 1 } ∧
      (num = 0x001 → v = s.status) ∧
      (num = 0x002 → s.busy = false → v = s.rdata) ∧
      (num = 0x003 → v = (s.linesView).setWidth 8) ∧
      (∀ i b, num = 0x200 + i → i < s.cfg.maxCount → s.busy = false → s.rxbuf.read i = some b → v = b)

/-- 10_state.md R34, R36: the fields of STATUS and LINES, with the codes of ERR (60_exceptions.md R220) and of TSTATE
(10_state.md R29). -/
def Obligations.StatusAndLinesLayout : Prop :=
  ∀ s : State,
    s.status.getLsbD 0 = s.busy ∧ s.status.getLsbD 1 = s.done ∧
    s.status.extractLsb' 2 2 = (match s.err with
      | .ok => 0#2
      | .addrNack => 1#2
      | .dataNack => 2#2
      | .misuse => 3#2) ∧
    s.status.getLsbD 4 = s.ackf ∧
    s.status.extractLsb' 5 2 = (match s.tstate with
      | .idle => 0#2
      | .startAsserted => 1#2
      | .addressPhase => 2#2
      | .dataPhase => 3#2) ∧
    s.status.getLsbD 7 = false ∧
    s.linesView.getLsbD 0 = s.lines.outScl ∧ s.linesView.getLsbD 1 = s.lines.outSda ∧
    s.linesView.getLsbD 2 = decide (s.lines.dirScl = .output) ∧
    s.linesView.getLsbD 3 = decide (s.lines.dirSda = .output)

/-- 70_reset_and_hazards.md R260: the block does nothing until the host writes CMD. -/
def Obligations.IdleBlockDoesNothing : Prop :=
  ∀ (s : State) (k : Nat), s.Quiet → run k s = .next s

/-! ## Line Driver -/

/-- 40_line_driver.md R120: SET_LINE writes OUT[line] and no other register.
The draws of the environment are counted as log entry 3 says, the observations kept as log entry 16 says. -/
def Obligations.SetLineWritesItsLatch : Prop :=
  ∀ (s : State) (line : Line) (level : Level), s.Quiet → s.cfg.primExposed = true →
    (s.lines.dir line = .output →
      ∃ a wl, exec (.setLine line level) s = .next a ∧
        run 1 a = .next { s.ended 1 [.w line level] wl .ok with
          lines := match line with
            | .scl => { s.lines with outScl := level }
            | .sda => { s.lines with outSda := level } }) ∧
    (s.lines.dir line = .input → exec (.setLine line level) s = .next { s with done := true, err := .misuse })

/-- 40_line_driver.md R121: SET_DIR writes DIR[line] only; the latch and the other line keep their values.
The draws of the environment are counted as log entry 3 says, the observations kept as log entry 16 says. -/
def Obligations.SetDirWritesItsDirection : Prop :=
  ∀ (s : State) (line : Line) (dir : Dir), s.Quiet → s.cfg.primExposed = true →
    ∃ a wl, exec (.setDir line dir) s = .next a ∧
      run 1 a = .next { s.ended 1 [.t line dir] wl .ok with
        lines := match line with
          | .scl => { s.lines with dirScl := dir }
          | .sda => { s.lines with dirSda := dir } }

/-- 40_line_driver.md R122: READ_LINE puts the environment's draw into RDATA and writes nothing else.
The draws of the environment are counted as log entry 3 says, the observations kept as log entry 16 says. -/
def Obligations.ReadLineSamplesTheLine : Prop :=
  ∀ (s : State) (line : Line), s.Quiet → s.cfg.primExposed = true →
    (s.lines.dir line = .input →
      ∃ a wl, exec (.readLine line) s = .next a ∧
        run 1 a = .next { s.ended 1 [.s line (s.env.draw line 1)] wl .ok with
          rdata := if s.env.draw line 1 then 0x01#8 else 0x00#8 }) ∧
    (s.lines.dir line = .output → exec (.readLine line) s = .next { s with done := true, err := .misuse })

/-! ## Bit Timer -/

/-- 41_bit_timer.md R140, R141: WAIT_HALF lasts exactly HALF_TICKS ticks, WAIT_FULL exactly twice as many; neither
changes a line, a flag or a result register.
The draws of the environment are counted as log entry 3 says, the observations kept as log entry 16 says. -/
def Obligations.WaitsOnlyPassTime : Prop :=
  ∀ s : State, s.Quiet → s.cfg.legal = true → s.cfg.primExposed = true →
    (∃ a wl, exec .waitHalf s = .next a ∧ run s.cfg.halfTicks a = .next (s.ended 1 [.h] wl .ok) ∧
      ∀ j, j < s.cfg.halfTicks → ∃ u, run j a = .next u ∧ u.busy = true) ∧
    (∃ a wl, exec .waitFull s = .next a ∧ run (2 * s.cfg.halfTicks) a = .next (s.ended 1 [.f] wl .ok) ∧
      ∀ j, j < 2 * s.cfg.halfTicks → ∃ u, run j a = .next u ∧ u.busy = true)

/-- 10_state.md R26, 70_reset_and_hazards.md R282, R283: the timed controller refines the one that keeps no time:
whenever TIMER is 0, the ticks of the next micro-operation together do what the untimed micro-operation does.
When TIMER is loaded and where the token falls is log entry 12. -/
def Obligations.TicksRefineMicroOperations : Prop :=
  ∀ (s : State) (m : Micro) (rest : List Micro),
    s.cfg.legal = true → s.inputs = [] → s.timer = 0 → s.seq.todo = m :: rest →
    run (microTicks s.cfg m.op) s = s.microStep

/-! ## Bit-Level Transfer -/

/-- 42_bit_transfer.md R150: SEND_BIT.
The draws of the environment are counted as log entry 3 says, the observations kept as log entry 16 says. -/
def Obligations.SendBitPulsesTheClock : Prop :=
  ∀ (s : State) (value : Byte), s.Quiet → s.cfg.legal = true → Legal (.sendBit value) s →
    ∃ a wl, exec (.sendBit value) s = .next a ∧
      run (4 + 4 * s.cfg.halfTicks) a = .next { s.ended 7 (sendBitTokens (value.getLsbD 0)) wl .ok with
        lines := { s.lines with outScl := false, outSda := value.getLsbD 0 } }

/-- 42_bit_transfer.md R151: READ_BIT.
The draws of the environment are counted as log entry 3 says, the observations kept as log entry 16 says. -/
def Obligations.ReadBitSamplesBeforeTheFall : Prop :=
  ∀ s : State, s.Quiet → s.cfg.legal = true → Legal .readBit s →
    ∃ a wl, exec .readBit s = .next a ∧
      run (3 + 4 * s.cfg.halfTicks) a = .next { s.ended 6 (readBitTokens (s.env.draw .sda 4)) wl .ok with
        lines := { s.lines with outScl := false }
        rdata := if s.env.draw .sda 4 then 0x01#8 else 0x00#8 }

/-! ## Byte-Level Transfer -/

/-- 43_byte_transfer.md R165, 10_state.md R28: SEND_BYTE sends the eight bits, samples the acknowledgement into ACKF, and
moves TSTATE as 44_transaction.md R180 says; a NACK is no error.
The draws of the environment are counted as log entry 3 says, the observations kept as log entry 16 says. -/
def Obligations.SendByteReportsItsAcknowledgement : Prop :=
  ∀ (s : State) (value : Byte), s.Quiet → s.cfg.legal = true → Legal (.sendByte value) s →
    ∃ a wl, exec (.sendByte value) s = .next a ∧
      run (37 + 36 * s.cfg.halfTicks) a =
        .next { s.ended 64 (sendByteTokens value (s.env.draw .sda 61)) wl .ok with
          lines := { s.lines with outScl := false, outSda := value.getLsbD 0 }
          shreg := value
          ackf := s.env.draw .sda 61
          tstate := if s.tstate = .dataPhase then .dataPhase
            else if s.env.draw .sda 61 then .addressPhase else .dataPhase }

/-- 43_byte_transfer.md R166: READ_BYTE assembles eight samples, the first into bit 7, and leaves data an output.
The draws of the environment are counted as log entry 3 says, the observations kept as log entry 16 says. -/
def Obligations.ReadByteAssemblesEightSamples : Prop :=
  ∀ s : State, s.Quiet → s.cfg.legal = true → Legal .readByte s →
    ∃ a wl, exec .readByte s = .next a ∧
      run (26 + 32 * s.cfg.halfTicks) a =
        .next { s.ended 50 (readByteTokens (readDraws s.env 0)) wl .ok with
          lines := { s.lines with outScl := false, dirSda := .output }
          shreg := assemble (readDraws s.env 0)
          rdata := assemble (readDraws s.env 0) }

/-- 43_byte_transfer.md R168: a receiver that samples data at the first eight clock rises of SEND_BYTE v and assembles
the samples as READ_BYTE does obtains v; and when the samples READ_BYTE draws are the bits of v, bit 7 first,
READ_BYTE gives v.
The draws of the environment are counted as log entry 3 says, the observations kept as log entry 16 says. -/
def Obligations.SentByteIsReadBack : Prop :=
  (∀ (s : State) (v : Byte), s.Inv → s.Quiet → Legal (.sendByte v) s → s.lines.outScl = false →
    ∃ a t, exec (.sendByte v) s = .next a ∧ run (37 + 36 * s.cfg.halfTicks) a = .next t ∧
      assemble (((dataAtRises t.wires).drop (dataAtRises s.wires).length).take 8) = v) ∧
  (∀ (s : State) (v : Byte), s.Inv → s.Quiet → Legal .readByte s → readDraws s.env 0 = bitsMsbFirst v →
    ∃ a t, exec .readByte s = .next a ∧ run (26 + 32 * s.cfg.halfTicks) a = .next t ∧ t.rdata = v)

/-! ## Framing -/

/-- 44_transaction.md R181: START, from IDLE or an open transaction.
The draws of the environment are counted as log entry 3 says, the observations kept as log entry 16 says. -/
def Obligations.StartAssertsStartCondition : Prop :=
  ∀ s : State, s.Quiet → Legal .start s →
    ∃ a wl, exec .start s = .next a ∧
      run 4 a = .next { s.ended 4 startTokens wl .ok with
        lines := { s.lines with outScl := false, outSda := false }
        tstate := .startAsserted }

/-- 44_transaction.md R182: STOP, with and without STOP_PRELOAD.
The draws of the environment are counted as log entry 3 says, the observations kept as log entry 16 says. -/
def Obligations.StopReturnsToIdle : Prop :=
  ∀ s : State, s.Quiet → s.cfg.legal = true → Legal .stop s →
    ∃ a wl, exec .stop s = .next a ∧
      run (stopMicros s.cfg.stopPreload - 2 + 4 * s.cfg.halfTicks) a =
        .next { s.ended (stopMicros s.cfg.stopPreload) (stopTokens s.cfg.stopPreload) wl .ok with
          lines := { s.lines with outScl := true, outSda := true }
          tstate := .idle }

/-- 44_transaction.md R181 corner cases a to c, R189: a START with both lines high, or with the clock low, puts exactly one
START condition on the wire and no STOP condition.
The wire history is kept as log entry 16 says. -/
def Obligations.StartPutsOneStartCondition : Prop :=
  ∀ s : State, s.Inv → s.Quiet → Legal .start s → (s.lines.outScl = false ∨ s.lines.outSda = true) →
    ∃ a t, exec .start s = .next a ∧ run 4 a = .next t ∧
      startConditions t.wires = startConditions s.wires + 1 ∧ stopConditions t.wires = stopConditions s.wires

/-- 44_transaction.md R182, 93_implementation_defined.md U16: a STOP with the clock low puts exactly one STOP condition on the
wire, except with STOP_PRELOAD false and data high, where it puts none; TSTATE is IDLE in every case.
The wire history is kept as log entry 16 says. -/
def Obligations.StopPutsOneStopCondition : Prop :=
  ∀ s : State, s.Inv → s.Quiet → Legal .stop s → s.lines.outScl = false →
    ∃ a t, exec .stop s = .next a ∧ run (stopMicros s.cfg.stopPreload - 2 + 4 * s.cfg.halfTicks) a = .next t ∧
      t.tstate = .idle ∧ startConditions t.wires = startConditions s.wires ∧
      stopConditions t.wires = stopConditions s.wires +
        (if s.cfg.stopPreload = false ∧ s.lines.outSda = true then 0 else 1)

/-! ## Block commands -/

/-- 44_transaction.md R186: WRITE_BLOCK when every byte is ACKed at once.
The draws of the environment are counted as log entry 3 says, the observations kept as log entry 16 says. -/
def Obligations.WriteBlockSendsItsBytes : Prop :=
  ∀ (s : State) (addr reg count : Byte), s.Quiet → s.cfg.legal = true → Legal (.writeBlock addr reg count) s →
    (∀ j, j < count.toNat + 2 → ackDraw s.env j = false) →
    ∃ a wl, exec (.writeBlock addr reg count) s = .next a ∧
      run ((costOf s.cfg.stopPreload (.writeBlock addr reg count)).ticks s.cfg.halfTicks) a =
        .next { s.ended (costOf s.cfg.stopPreload (.writeBlock addr reg count)).micros
            (startTokens ++ sendByteTokens (addr <<< 1) false ++ sendByteTokens reg false ++
              (s.txBytes 0 count.toNat).flatMap (fun v => sendByteTokens v false) ++ stopTokens s.cfg.stopPreload)
            wl .ok with
          lines := { s.lines with outScl := true, outSda := true }
          shreg := s.txByte (count.toNat - 1)
          ackf := false }

/-- 44_transaction.md R187: READ_BLOCK when every transmitted byte is ACKed at once: RXBUF[0..n-1] hold the bytes read,
the other entries keep their contents.
The draws of the environment are counted as log entry 3 says, the observations kept as log entry 16 says. -/
def Obligations.ReadBlockStoresItsBytes : Prop :=
  ∀ (s : State) (addr reg count : Byte), s.Quiet → s.cfg.legal = true → Legal (.readBlock addr reg count) s →
    ackDraw s.env 0 = false → ackDraw s.env 1 = false → s.env.draw .sda 197 = false →
    ∃ a wl m, exec (.readBlock addr reg count) s = .next a ∧
      run ((costOf s.cfg.stopPreload (.readBlock addr reg count)).ticks s.cfg.halfTicks) a =
        .next { s.ended (costOf s.cfg.stopPreload (.readBlock addr reg count)).micros
            (startTokens ++ sendByteTokens (addr <<< 1) false ++ sendByteTokens reg false ++ startTokens ++
              sendByteTokens ((addr <<< 1) ||| 1#8) false ++ readsTokens s.env 0 count.toNat ++
              stopTokens s.cfg.stopPreload)
            wl .ok with
          lines := { s.lines with outScl := true, outSda := true }
          shreg := assemble (readDraws s.env (200 + 57 * (count.toNat - 1)))
          ackf := false
          rxbuf := m } ∧
      (∀ i, i < count.toNat → m.read i = some (assemble (readDraws s.env (200 + 57 * i)))) ∧
      (∀ i, count.toNat ≤ i → m.read i = s.rxbuf.read i)

/-- 44_transaction.md R192: a READ_BLOCK that gets past its address bytes drives, in the places of its n master
acknowledgements, n - 1 zeros (MACK) and one final 1 (MNACK); its other data writes are START, the address byte
with WRITE, the register byte, START, the address byte with READ, and STOP.
The draws of the environment are counted as log entry 3 says, the observations kept as log entry 16 says. -/
def Obligations.ReadBlockAcknowledgesAllButTheLast : Prop :=
  ∀ (s : State) (addr reg count : Byte), s.Quiet → s.cfg.legal = true → Legal (.readBlock addr reg count) s →
    ackDraw s.env 0 = false → ackDraw s.env 1 = false → s.env.draw .sda 197 = false →
    ∃ a t toks, exec (.readBlock addr reg count) s = .next a ∧
      run ((costOf s.cfg.stopPreload (.readBlock addr reg count)).ticks s.cfg.halfTicks) a = .next t ∧
      t.busy = false ∧ t.trace = toks ++ s.trace ∧
      dataWrites toks = [true, false] ++ bitsMsbFirst (addrByte addr .write) ++ bitsMsbFirst reg ++ [true, false] ++
        bitsMsbFirst (addrByte addr .read) ++ List.replicate (count.toNat - 1) false ++ [true] ++
        (if s.cfg.stopPreload then [false] else []) ++ [true] ∧
      (dataSamples toks).length = 3 + 8 * count.toNat

/-- 44_transaction.md R183, 60_exceptions.md R221, R224: a NACK of the first address byte ends either block command with a
STOP and ADDR_NACK, without a retry; the bus is idle and a START is legal again when PRIM_EXPOSED is true.
The draws of the environment are counted as log entry 3 says, the observations kept as log entry 16 says. -/
def Obligations.AddressNackEndsTheBlock : Prop :=
  ∀ (s : State) (i : Instr) (addr reg count : Byte), s.Quiet → s.cfg.legal = true → Legal i s →
    (i = .writeBlock addr reg count ∨ i = .readBlock addr reg count) → ackDraw s.env 0 = true →
    ∃ a wl, exec i s = .next a ∧
      run (41 + (stopMicros s.cfg.stopPreload - 2) + 40 * s.cfg.halfTicks) a =
        .next { s.ended (68 + stopMicros s.cfg.stopPreload)
            (startTokens ++ sendByteTokens (addr <<< 1) true ++ stopTokens s.cfg.stopPreload) wl .addrNack with
          lines := { s.lines with outScl := true, outSda := true }
          shreg := addr <<< 1
          ackf := true }

/-- 44_transaction.md R183, decision D16: a NACK of the read address byte of READ_BLOCK ends it the same way, and RXBUF is
unchanged.
The draws of the environment are counted as log entry 3 says, the observations kept as log entry 16 says. -/
def Obligations.ReadAddressNackEndsTheRead : Prop :=
  ∀ (s : State) (addr reg count : Byte), s.Quiet → s.cfg.legal = true → Legal (.readBlock addr reg count) s →
    ackDraw s.env 0 = false → ackDraw s.env 1 = false → s.env.draw .sda 197 = true →
    ∃ a wl, exec (.readBlock addr reg count) s = .next a ∧
      run (119 + (stopMicros s.cfg.stopPreload - 2) + 112 * s.cfg.halfTicks) a =
        .next { s.ended (200 + stopMicros s.cfg.stopPreload)
            (startTokens ++ sendByteTokens (addr <<< 1) false ++ sendByteTokens reg false ++ startTokens ++
              sendByteTokens ((addr <<< 1) ||| 1#8) true ++ stopTokens s.cfg.stopPreload) wl .addrNack with
          lines := { s.lines with outScl := true, outSda := true }
          shreg := (addr <<< 1) ||| 1#8
          ackf := true }

/-- 44_transaction.md R184, 60_exceptions.md R222, decision D16: a data-phase byte that is NACKed MAX_ATTEMPTS times, the
`p`-th of WRITE_BLOCK's register byte and payload or READ_BLOCK's register byte, ends the command with a STOP and
DATA_NACK; no later byte is sent.
The draws of the environment are counted as log entry 3 says, the observations kept as log entry 16 says. -/
def Obligations.DataNackAtTheBound : Prop :=
  ∀ (s : State) (i : Instr) (addr reg count : Byte) (p m : Nat), s.Quiet → s.cfg.legal = true → Legal i s →
    ((i = .writeBlock addr reg count ∧ p ≤ count.toNat) ∨ (i = .readBlock addr reg count ∧ p = 0)) →
    s.cfg.maxAttempts = some m →
    (∀ j, j ≤ p → ackDraw s.env j = false) → (∀ j, p < j → j ≤ p + m → ackDraw s.env j = true) →
    ∃ a wl, exec i s = .next a ∧
      run (4 + (p + 1 + m) * (37 + 36 * s.cfg.halfTicks) + (stopMicros s.cfg.stopPreload - 2) + 4 * s.cfg.halfTicks) a =
        .next { s.ended (4 + 64 * (p + 1 + m) + stopMicros s.cfg.stopPreload)
            (startTokens ++ sendByteTokens (addr <<< 1) false ++
              ((reg :: s.txBytes 0 count.toNat).take p).flatMap (fun v => sendByteTokens v false) ++
              (List.replicate m (sendByteTokens ((reg :: s.txBytes 0 count.toNat).getD p 0#8) true)).flatten ++
              stopTokens s.cfg.stopPreload) wl .dataNack with
          lines := { s.lines with outScl := true, outSda := true }
          shreg := (reg :: s.txBytes 0 count.toNat).getD p 0#8
          ackf := true }

/-- 44_transaction.md R184, 60_exceptions.md R227: a data-phase byte that is NACKed `k` times, fewer than MAX_ATTEMPTS,
and then ACKed is sent exactly k + 1 times, and the command ends as if it had been ACKed at once: only trace and
duration differ.
The draws of the environment are counted as log entry 3 says, the observations kept as log entry 16 says. -/
def Obligations.TransientNackIsInvisible : Prop :=
  ∀ (s : State) (addr reg count : Byte) (p k : Nat), s.Quiet → s.cfg.legal = true →
    Legal (.writeBlock addr reg count) s → (∀ m, s.cfg.maxAttempts = some m → k < m) → p ≤ count.toNat →
    (∀ j, j ≤ p → ackDraw s.env j = false) → (∀ j, p < j → j ≤ p + k → ackDraw s.env j = true) →
    (∀ j, p + k < j → j < count.toNat + 2 + k → ackDraw s.env j = false) →
    ∃ a wl, exec (.writeBlock addr reg count) s = .next a ∧
      run ((costOf s.cfg.stopPreload (.writeBlock addr reg count)).ticks s.cfg.halfTicks +
          k * (37 + 36 * s.cfg.halfTicks)) a =
        .next { s.ended ((costOf s.cfg.stopPreload (.writeBlock addr reg count)).micros + 64 * k)
            (startTokens ++ sendByteTokens (addr <<< 1) false ++
              ((reg :: s.txBytes 0 count.toNat).take p).flatMap (fun v => sendByteTokens v false) ++
              (List.replicate k (sendByteTokens ((reg :: s.txBytes 0 count.toNat).getD p 0#8) true)).flatten ++
              ((reg :: s.txBytes 0 count.toNat).drop p).flatMap (fun v => sendByteTokens v false) ++
              stopTokens s.cfg.stopPreload) wl .ok with
          lines := { s.lines with outScl := true, outSda := true }
          shreg := s.txByte (count.toNat - 1)
          ackf := false }

/-- 44_transaction.md R184, 60_exceptions.md R227, decision D16: a register byte of READ_BLOCK that is NACKed `k` times,
fewer than MAX_ATTEMPTS, and then ACKed is sent exactly k + 1 times, and the command ends as if it had been ACKed at
once: only trace and duration differ, and the reads sample as many micro-operations later.
The draws of the environment are counted as log entry 3 says, the observations kept as log entry 16 says. -/
def Obligations.ReadBlockRetriesItsRegisterByte : Prop :=
  ∀ (s : State) (addr reg count : Byte) (k : Nat), s.Quiet → s.cfg.legal = true →
    Legal (.readBlock addr reg count) s → (∀ m, s.cfg.maxAttempts = some m → k < m) →
    ackDraw s.env 0 = false → (∀ j, 1 ≤ j → j ≤ k → ackDraw s.env j = true) → ackDraw s.env (k + 1) = false →
    s.env.draw .sda (197 + 64 * k) = false →
    ∃ a wl m, exec (.readBlock addr reg count) s = .next a ∧
      run ((costOf s.cfg.stopPreload (.readBlock addr reg count)).ticks s.cfg.halfTicks +
          k * (37 + 36 * s.cfg.halfTicks)) a =
        .next { s.ended ((costOf s.cfg.stopPreload (.readBlock addr reg count)).micros + 64 * k)
            (startTokens ++ sendByteTokens (addr <<< 1) false ++ (List.replicate k (sendByteTokens reg true)).flatten ++
              sendByteTokens reg false ++ startTokens ++ sendByteTokens ((addr <<< 1) ||| 1#8) false ++
              readsTokens (s.env.after (64 * k)) 0 count.toNat ++ stopTokens s.cfg.stopPreload)
            wl .ok with
          lines := { s.lines with outScl := true, outSda := true }
          shreg := assemble (readDraws (s.env.after (64 * k)) (200 + 57 * (count.toNat - 1)))
          ackf := false
          rxbuf := m } ∧
      (∀ i, i < count.toNat → m.read i = some (assemble (readDraws (s.env.after (64 * k)) (200 + 57 * i)))) ∧
      (∀ i, count.toNat ≤ i → m.read i = s.rxbuf.read i)

/-- 60_exceptions.md R231: with MAX_ATTEMPTS = INF a data-phase byte that is NACKed on every attempt (the `p`-th of
WRITE_BLOCK's register byte and payload, or READ_BLOCK's register byte) makes the command run for ever: after any
number of steps there is a next state, BUSY is 1, DONE is 0, and TSTATE stays DATA_PHASE once the address byte is
ACKed; the trace is that byte's SEND_BYTE again and again, with no STOP.
The draws of the environment are counted as log entry 3 says, the observations kept as log entry 16 says. -/
def Obligations.UnboundedRetryNeverEnds : Prop :=
  ∀ (s : State) (i : Instr) (addr reg count : Byte) (p : Nat), s.Quiet → s.cfg.legal = true → Legal i s →
    ((i = .writeBlock addr reg count ∧ p ≤ count.toNat) ∨ (i = .readBlock addr reg count ∧ p = 0)) →
    s.cfg.maxAttempts = none →
    (∀ j, j ≤ p → ackDraw s.env j = false) → (∀ j, p < j → ackDraw s.env j = true) →
    ∃ a, exec i s = .next a ∧
      (∀ k, ∃ t, run k a = .next t ∧ t.busy = true ∧ t.done = false ∧
        (41 + 36 * s.cfg.halfTicks ≤ k → t.tstate = .dataPhase)) ∧
      (∀ n, ∃ t, run (4 + (p + 1 + n) * (37 + 36 * s.cfg.halfTicks)) a = .next t ∧
        t.trace = (startTokens ++ sendByteTokens (addr <<< 1) false ++
          ((reg :: s.txBytes 0 count.toNat).take p).flatMap (fun v => sendByteTokens v false) ++
          (List.replicate n (sendByteTokens ((reg :: s.txBytes 0 count.toNat).getD p 0#8) true)).flatten).reverse ++
          s.trace)

/-- 60_exceptions.md R231, 44_transaction.md R186, R187: with MAX_ATTEMPTS finite every accepted block command ends,
whatever the environment does: TSTATE is IDLE, both lines are high and outputs, DONE is 1, and ERR is OK, ADDR_NACK
or DATA_NACK, ACKF being 1 exactly in the error cases. -/
def Obligations.BoundedBlockAlwaysEnds : Prop :=
  ∀ (s : State) (i : Instr) (addr reg count : Byte) (m : Nat), s.Quiet → s.cfg.legal = true → Legal i s →
    (i = .writeBlock addr reg count ∨ i = .readBlock addr reg count) → s.cfg.maxAttempts = some m →
    ∃ a k t, exec i s = .next a ∧ run k a = .next t ∧ t.busy = false ∧ t.done = true ∧ t.tstate = .idle ∧
      t.lines = { outScl := true, outSda := true, dirScl := .output, dirSda := .output } ∧
      ((t.err = .ok ∧ t.ackf = false) ∨ (t.err = .addrNack ∧ t.ackf = true) ∨
        (t.err = .dataNack ∧ t.ackf = true))

/-- 44_transaction.md R190: with STOP_PRELOAD true, an accepted block command that completes has put exactly one STOP
condition on the wire, as its last pin change, on every path. The lines are high when it is issued (no raw
SET_LINE before it), and the environment changes its data level only while the clock is low.
The draws of the environment are counted as log entry 3 says, the observations kept as log entry 16 says. -/
def Obligations.ExactlyOneStopPerBlock : Prop :=
  ∀ (s a t : State) (i : Instr) (addr reg count : Byte) (k : Nat), s.Inv → s.Quiet → Legal i s →
    (i = .writeBlock addr reg count ∨ i = .readBlock addr reg count) → s.cfg.stopPreload = true →
    s.lines.outScl = true → s.lines.outSda = true → exec i s = .next a →
    (∀ (n : Nat) (u : State), run n a = .next u → u.busy = true → u.timer = 0 → u.lines.outScl = true →
      u.env.move.level .sda = u.env.level .sda) →
    run k a = .next t → t.busy = false →
    ∃ w, t.wires = (true, true) :: w ∧ w.head? = some (true, false) ∧ stopConditions w = stopConditions s.wires

/-- 20_memory.md R75: RXBUF is unchanged by a READ_BLOCK that fails, whatever the environment does. -/
def Obligations.FailedReadKeepsRxbuf : Prop :=
  ∀ (s a t : State) (addr reg count : Byte) (k : Nat), s.Quiet → s.cfg.legal = true →
    exec (.readBlock addr reg count) s = .next a → run k a = .next t → t.busy = false → t.err ≠ .ok →
    t.rxbuf = s.rxbuf

/-! ## Rules about every step -/

/-- 40_line_driver.md R123: but for the reset event, no step changes two of the four line bits. -/
def Obligations.AtMostOneLineBitPerStep : Prop :=
  ∀ s t : State, step s = .next t → s.inputs.head? ≠ some .reset →
    t.lines = s.lines ∨ (∃ l v, t.lines = s.lines.setOut l v) ∨ (∃ l d, t.lines = s.lines.setDir l d)

/-- 10_state.md R21: each pin shows the controller's level on an output and the environment's on an input; and but for
the reset event, a step leaves a wire history that ends with what the pins show, has no two equal neighbours, and has
grown by the pins as they changed: when the environment moved, when the micro-operation was done.
The environment's moves are those of log entry 3, the invariant is the model's own (log entry 16). -/
def Obligations.WireHistoryFollowsThePins : Prop :=
  (∀ (s : State) (l : Line),
    (s.lines.dir l = .output → s.wire l = s.lines.out l) ∧ (s.lines.dir l = .input → s.wire l = s.env.level l)) ∧
  (∀ s t : State, s.Inv → step s = .next t → s.inputs.head? ≠ some .reset →
    t.wires.head? = some (t.wire .scl, t.wire .sda) ∧
    (∀ u p q v, t.wires = u ++ p :: q :: v → p ≠ q) ∧
    (t.wires = s.wires ∨ t.wires = t.pins :: s.wires ∨
      t.wires = t.pins :: State.pins { s with env := s.env.move } :: s.wires))

/-- 10_state.md R25, 00_scope.md R3: during every operation from SEND_BIT upward the clock line is an output, and the
clock line is never sampled. -/
def Obligations.ClockStaysAnUnsampledOutput : Prop :=
  ∀ (s a t : State) (i : Instr) (k : Nat), s.Quiet → s.cfg.legal = true → Legal i s →
    (∀ line level dir, i ≠ .setLine line level ∧ i ≠ .setDir line dir ∧ i ≠ .readLine line) →
    i ≠ .waitHalf → i ≠ .waitFull → exec i s = .next a → run k a = .next t →
    t.lines.dirScl = .output ∧ ∃ toks, t.trace = toks ++ s.trace ∧ ∀ b, Token.s .scl b ∉ toks

/-- 44_transaction.md R180: TSTATE changes only as the table says.
The posts of SEQ are log entry 13. -/
def Obligations.TransactionStateTable : Prop :=
  ∀ s t : State, step s = .next t → t.tstate ≠ s.tstate →
    (s.inputs.head? = some .reset ∧ t.tstate = .idle) ∨
    ∃ m rest, s.seq.todo = m :: rest ∧
      ((m.post = .startAsserted ∧ t.tstate = .startAsserted) ∨
        (m.post = .toIdle ∧ t.tstate = .idle) ∨
        ((∃ v, m.post = .beginByte v) ∧ s.tstate = .startAsserted ∧ t.tstate = .addressPhase) ∨
        ((∃ p, m.post = .ackEnd p) ∧ s.tstate = .addressPhase ∧ t.tstate = .dataPhase ∧ t.ackf = false))

/-- 10_state.md R28, R35, 20_memory.md R61, R62: who writes ACKF, RDATA, RXBUF and TXBUF. But for the reset event, ACKF
changes only at the end of a sent byte, RDATA only with the result of a reading command, RXBUF only where
READ_BLOCK stores a byte, TXBUF only by a host write while BUSY = 0.
The posts of SEQ are log entry 13. -/
def Obligations.EachResultHasOneWriter : Prop :=
  ∀ s t : State, step s = .next t → s.inputs.head? ≠ some .reset →
    (t.ackf ≠ s.ackf → ∃ m rest p, s.seq.todo = m :: rest ∧ m.post = .ackEnd p) ∧
    (t.rdata ≠ s.rdata → ∃ m rest, s.seq.todo = m :: rest ∧ (m.post = .resultBit ∨ m.post = .resultByte)) ∧
    (t.rxbuf ≠ s.rxbuf → ∃ m rest i, s.seq.todo = m :: rest ∧ m.post = .storeRx i) ∧
    (t.txbuf ≠ s.txbuf → s.busy = false ∧ ∃ num val rest, s.inputs = .write num val :: rest)

/-- 70_reset_and_hazards.md R281, R282: an accepted primitive command is busy for exactly the ticks of its row.
Steps are ticks as log entry 11 says. -/
def Obligations.PrimitivesLastTheirTicks : Prop :=
  ∀ (s : State) (i : Instr), s.Quiet → s.cfg.legal = true → Legal i s →
    (∀ addr reg count, i ≠ .writeBlock addr reg count ∧ i ≠ .readBlock addr reg count) →
    ∃ a t, exec i s = .next a ∧
      (∀ j, j < (costOf s.cfg.stopPreload i).ticks s.cfg.halfTicks → ∃ u, run j a = .next u ∧ u.busy = true) ∧
      run ((costOf s.cfg.stopPreload i).ticks s.cfg.halfTicks) a = .next t ∧ t.busy = false ∧
      t.trace.length = s.trace.length + (costOf s.cfg.stopPreload i).micros
end

