-- ==== Sys2Proof/Laws/Memory.lean ====
section
/-! SUPPORT. The buffers: what a read gives after a write, and that a write keeps the canonical form. -/

namespace Sys2Proof.Machine

@[simp] theorem Memory.read_nil (i : Nat) : Memory.read [] i = none := rfl

theorem Memory.read_write_same (m : Memory) (i : Nat) (v : Byte) : (m.write i v).read i = some v := by
  induction m with
  | nil => simp [Memory.write, Memory.read]
  | cons c m ih =>
    obtain ⟨a, b⟩ := c
    unfold Memory.write
    split
    · simp [Memory.read]
    · split
      · simp [Memory.read]
      · rename_i h1 h2
        simp [Memory.read, ih, Ne.symm h2]

theorem Memory.read_write_other (m : Memory) (i j : Nat) (v : Byte) (h : j ≠ i) :
    (m.write i v).read j = m.read j := by
  induction m with
  | nil => simp [Memory.write, Memory.read, Ne.symm h]
  | cons c m ih =>
    obtain ⟨a, b⟩ := c
    unfold Memory.write
    split
    · simp [Memory.read, Ne.symm h]
    · split
      · rename_i h1 h2
        subst h2
        simp [Memory.read, Ne.symm h]
      · simp [Memory.read, ih]

theorem Memory.above_write (m : Memory) (n i : Nat) (v : Byte) (h : m.above n = true) (hi : n < i) :
    (m.write i v).above n = true := by
  induction m with
  | nil => simp [Memory.write, Memory.above, hi]
  | cons c m ih =>
    obtain ⟨a, b⟩ := c
    simp only [Memory.above, Bool.and_eq_true, decide_eq_true_eq] at h
    unfold Memory.write
    split
    · simp [Memory.above, hi, h]
    · split
      · simp [Memory.above, hi, h]
      · simp [Memory.above, h, ih h.2]

theorem Memory.above_of_le (m : Memory) (n k : Nat) (h : m.above k = true) (hn : n ≤ k) : m.above n = true := by
  induction m with
  | nil => rfl
  | cons c m ih =>
    obtain ⟨a, b⟩ := c
    simp only [Memory.above, Bool.and_eq_true, decide_eq_true_eq] at h ⊢
    exact ⟨by omega, ih h.2⟩

/-- Every write keeps the canonical form. -/
theorem Memory.write_wf (m : Memory) (i : Nat) (v : Byte) (h : m.wf = true) : (m.write i v).wf = true := by
  induction m with
  | nil => simp [Memory.write, Memory.wf, Memory.above]
  | cons c m ih =>
    obtain ⟨a, b⟩ := c
    simp only [Memory.wf, Bool.and_eq_true] at h
    unfold Memory.write
    split
    · rename_i h1
      simp [Memory.wf, Memory.above, h, h1, Memory.above_of_le m i a h.1 (Nat.le_of_lt h1)]
    · split
      · rename_i h1 h2
        subst h2
        simp [Memory.wf, h]
      · rename_i h1 h2
        simp only [Memory.wf, Bool.and_eq_true]
        exact ⟨Memory.above_write m a i v h.1 (by omega), ih h.2⟩

/-- The buffers of the reset state are in canonical form. -/
theorem State.resetWith_buffers_wf (c : Config) :
    (State.resetWith c).txbuf.wf = true ∧ (State.resetWith c).rxbuf.wf = true := ⟨rfl, rfl⟩

end Sys2Proof.Machine
end

