-- ==== Sys2Proof/Laws/State.lean ====
section
/-! SUPPORT. One lemma per field per update of State, true by rfl, so that no later proof unfolds a record update. -/

namespace Sys2Proof.Machine

/-! ## State.observe -/

@[simp] theorem State.observe_cfg (s : State) : s.observe.cfg = s.cfg := rfl
@[simp] theorem State.observe_lines (s : State) : s.observe.lines = s.lines := rfl
@[simp] theorem State.observe_timer (s : State) : s.observe.timer = s.timer := rfl
@[simp] theorem State.observe_shreg (s : State) : s.observe.shreg = s.shreg := rfl
@[simp] theorem State.observe_ackf (s : State) : s.observe.ackf = s.ackf := rfl
@[simp] theorem State.observe_tstate (s : State) : s.observe.tstate = s.tstate := rfl
@[simp] theorem State.observe_seq (s : State) : s.observe.seq = s.seq := rfl
@[simp] theorem State.observe_done (s : State) : s.observe.done = s.done := rfl
@[simp] theorem State.observe_err (s : State) : s.observe.err = s.err := rfl
@[simp] theorem State.observe_rdata (s : State) : s.observe.rdata = s.rdata := rfl
@[simp] theorem State.observe_txbuf (s : State) : s.observe.txbuf = s.txbuf := rfl
@[simp] theorem State.observe_rxbuf (s : State) : s.observe.rxbuf = s.rxbuf := rfl
@[simp] theorem State.observe_hostData (s : State) : s.observe.hostData = s.hostData := rfl
@[simp] theorem State.observe_inputs (s : State) : s.observe.inputs = s.inputs := rfl
@[simp] theorem State.observe_env (s : State) : s.observe.env = s.env := rfl
@[simp] theorem State.observe_trace (s : State) : s.observe.trace = s.trace := rfl
@[simp] theorem State.observe_wires (s : State) : s.observe.wires = recordPins s.pins s.wires := rfl
@[simp] theorem State.observe_reads (s : State) : s.observe.reads = s.reads := rfl
@[simp] theorem State.observe_resets (s : State) : s.observe.resets = s.resets := rfl

/-! ## State.settle -/

@[simp] theorem State.settle_cfg (s : State) : s.settle.cfg = s.cfg := rfl
@[simp] theorem State.settle_lines (s : State) : s.settle.lines = s.lines := rfl
@[simp] theorem State.settle_timer (s : State) : s.settle.timer = s.timer := rfl
@[simp] theorem State.settle_shreg (s : State) : s.settle.shreg = s.shreg := rfl
@[simp] theorem State.settle_ackf (s : State) : s.settle.ackf = s.ackf := rfl
@[simp] theorem State.settle_tstate (s : State) : s.settle.tstate = s.tstate := rfl
@[simp] theorem State.settle_seq (s : State) : s.settle.seq = s.seq := rfl
@[simp] theorem State.settle_done (s : State) : s.settle.done = s.done := rfl
@[simp] theorem State.settle_err (s : State) : s.settle.err = s.err := rfl
@[simp] theorem State.settle_rdata (s : State) : s.settle.rdata = s.rdata := rfl
@[simp] theorem State.settle_txbuf (s : State) : s.settle.txbuf = s.txbuf := rfl
@[simp] theorem State.settle_rxbuf (s : State) : s.settle.rxbuf = s.rxbuf := rfl
@[simp] theorem State.settle_hostData (s : State) : s.settle.hostData = s.hostData := rfl
@[simp] theorem State.settle_inputs (s : State) : s.settle.inputs = s.inputs := rfl
@[simp] theorem State.settle_env (s : State) : s.settle.env = s.env.move := rfl
@[simp] theorem State.settle_trace (s : State) : s.settle.trace = s.trace := rfl
@[simp] theorem State.settle_reads (s : State) : s.settle.reads = s.reads := rfl
@[simp] theorem State.settle_resets (s : State) : s.settle.resets = s.resets := rfl

/-! ## State.changeDrive -/

@[simp] theorem State.changeDrive_cfg (d : EnvDrive) (s : State) : (s.changeDrive d).cfg = s.cfg := rfl
@[simp] theorem State.changeDrive_lines (d : EnvDrive) (s : State) : (s.changeDrive d).lines = s.lines := rfl
@[simp] theorem State.changeDrive_timer (d : EnvDrive) (s : State) : (s.changeDrive d).timer = s.timer := rfl
@[simp] theorem State.changeDrive_shreg (d : EnvDrive) (s : State) : (s.changeDrive d).shreg = s.shreg := rfl
@[simp] theorem State.changeDrive_ackf (d : EnvDrive) (s : State) : (s.changeDrive d).ackf = s.ackf := rfl
@[simp] theorem State.changeDrive_tstate (d : EnvDrive) (s : State) : (s.changeDrive d).tstate = s.tstate := rfl
@[simp] theorem State.changeDrive_seq (d : EnvDrive) (s : State) : (s.changeDrive d).seq = s.seq := rfl
@[simp] theorem State.changeDrive_done (d : EnvDrive) (s : State) : (s.changeDrive d).done = s.done := rfl
@[simp] theorem State.changeDrive_err (d : EnvDrive) (s : State) : (s.changeDrive d).err = s.err := rfl
@[simp] theorem State.changeDrive_rdata (d : EnvDrive) (s : State) : (s.changeDrive d).rdata = s.rdata := rfl
@[simp] theorem State.changeDrive_txbuf (d : EnvDrive) (s : State) : (s.changeDrive d).txbuf = s.txbuf := rfl
@[simp] theorem State.changeDrive_rxbuf (d : EnvDrive) (s : State) : (s.changeDrive d).rxbuf = s.rxbuf := rfl
@[simp] theorem State.changeDrive_hostData (d : EnvDrive) (s : State) : (s.changeDrive d).hostData = s.hostData := rfl
@[simp] theorem State.changeDrive_inputs (d : EnvDrive) (s : State) : (s.changeDrive d).inputs = s.inputs := rfl
@[simp] theorem State.changeDrive_trace (d : EnvDrive) (s : State) : (s.changeDrive d).trace = s.trace := rfl
@[simp] theorem State.changeDrive_reads (d : EnvDrive) (s : State) : (s.changeDrive d).reads = s.reads := rfl
@[simp] theorem State.changeDrive_resets (d : EnvDrive) (s : State) : (s.changeDrive d).resets = s.resets := rfl

/-! ## State.emit -/

@[simp] theorem State.emit_cfg (tok : Token) (s : State) : (s.emit tok).cfg = s.cfg := rfl
@[simp] theorem State.emit_lines (tok : Token) (s : State) : (s.emit tok).lines = s.lines := rfl
@[simp] theorem State.emit_timer (tok : Token) (s : State) : (s.emit tok).timer = s.timer := rfl
@[simp] theorem State.emit_shreg (tok : Token) (s : State) : (s.emit tok).shreg = s.shreg := rfl
@[simp] theorem State.emit_ackf (tok : Token) (s : State) : (s.emit tok).ackf = s.ackf := rfl
@[simp] theorem State.emit_tstate (tok : Token) (s : State) : (s.emit tok).tstate = s.tstate := rfl
@[simp] theorem State.emit_seq (tok : Token) (s : State) : (s.emit tok).seq = s.seq := rfl
@[simp] theorem State.emit_done (tok : Token) (s : State) : (s.emit tok).done = s.done := rfl
@[simp] theorem State.emit_err (tok : Token) (s : State) : (s.emit tok).err = s.err := rfl
@[simp] theorem State.emit_rdata (tok : Token) (s : State) : (s.emit tok).rdata = s.rdata := rfl
@[simp] theorem State.emit_txbuf (tok : Token) (s : State) : (s.emit tok).txbuf = s.txbuf := rfl
@[simp] theorem State.emit_rxbuf (tok : Token) (s : State) : (s.emit tok).rxbuf = s.rxbuf := rfl
@[simp] theorem State.emit_hostData (tok : Token) (s : State) : (s.emit tok).hostData = s.hostData := rfl
@[simp] theorem State.emit_inputs (tok : Token) (s : State) : (s.emit tok).inputs = s.inputs := rfl
@[simp] theorem State.emit_env (tok : Token) (s : State) : (s.emit tok).env = s.env := rfl
@[simp] theorem State.emit_trace (tok : Token) (s : State) : (s.emit tok).trace = tok :: s.trace := rfl
@[simp] theorem State.emit_wires (tok : Token) (s : State) : (s.emit tok).wires = recordPins s.pins s.wires := rfl
@[simp] theorem State.emit_reads (tok : Token) (s : State) : (s.emit tok).reads = s.reads := rfl
@[simp] theorem State.emit_resets (tok : Token) (s : State) : (s.emit tok).resets = s.resets := rfl

/-! ## State.raiseBusError -/

@[simp] theorem State.raiseBusError_cfg (code : ErrCode) (s : State) : (s.raiseBusError code).cfg = s.cfg := rfl
@[simp] theorem State.raiseBusError_lines (code : ErrCode) (s : State) : (s.raiseBusError code).lines = s.lines := rfl
@[simp] theorem State.raiseBusError_timer (code : ErrCode) (s : State) : (s.raiseBusError code).timer = s.timer := rfl
@[simp] theorem State.raiseBusError_shreg (code : ErrCode) (s : State) : (s.raiseBusError code).shreg = s.shreg := rfl
@[simp] theorem State.raiseBusError_ackf (code : ErrCode) (s : State) : (s.raiseBusError code).ackf = s.ackf := rfl
@[simp] theorem State.raiseBusError_tstate (code : ErrCode) (s : State) : (s.raiseBusError code).tstate = s.tstate := rfl
@[simp] theorem State.raiseBusError_done (code : ErrCode) (s : State) : (s.raiseBusError code).done = s.done := rfl
@[simp] theorem State.raiseBusError_err (code : ErrCode) (s : State) : (s.raiseBusError code).err = s.err := rfl
@[simp] theorem State.raiseBusError_rdata (code : ErrCode) (s : State) : (s.raiseBusError code).rdata = s.rdata := rfl
@[simp] theorem State.raiseBusError_txbuf (code : ErrCode) (s : State) : (s.raiseBusError code).txbuf = s.txbuf := rfl
@[simp] theorem State.raiseBusError_rxbuf (code : ErrCode) (s : State) : (s.raiseBusError code).rxbuf = s.rxbuf := rfl
@[simp] theorem State.raiseBusError_hostData (code : ErrCode) (s : State) : (s.raiseBusError code).hostData = s.hostData := rfl
@[simp] theorem State.raiseBusError_inputs (code : ErrCode) (s : State) : (s.raiseBusError code).inputs = s.inputs := rfl
@[simp] theorem State.raiseBusError_env (code : ErrCode) (s : State) : (s.raiseBusError code).env = s.env := rfl
@[simp] theorem State.raiseBusError_trace (code : ErrCode) (s : State) : (s.raiseBusError code).trace = s.trace := rfl
@[simp] theorem State.raiseBusError_wires (code : ErrCode) (s : State) : (s.raiseBusError code).wires = s.wires := rfl
@[simp] theorem State.raiseBusError_reads (code : ErrCode) (s : State) : (s.raiseBusError code).reads = s.reads := rfl
@[simp] theorem State.raiseBusError_resets (code : ErrCode) (s : State) : (s.raiseBusError code).resets = s.resets := rfl

/-! ## State.accept -/

@[simp] theorem State.accept_cfg (proc : List Micro) (s : State) : (s.accept proc).cfg = s.cfg := rfl
@[simp] theorem State.accept_lines (proc : List Micro) (s : State) : (s.accept proc).lines = s.lines := rfl
@[simp] theorem State.accept_timer (proc : List Micro) (s : State) : (s.accept proc).timer = s.timer := rfl
@[simp] theorem State.accept_shreg (proc : List Micro) (s : State) : (s.accept proc).shreg = s.shreg := rfl
@[simp] theorem State.accept_ackf (proc : List Micro) (s : State) : (s.accept proc).ackf = s.ackf := rfl
@[simp] theorem State.accept_tstate (proc : List Micro) (s : State) : (s.accept proc).tstate = s.tstate := rfl
@[simp] theorem State.accept_seq (proc : List Micro) (s : State) : (s.accept proc).seq = { todo := proc, bit := false, code := .ok } := rfl
@[simp] theorem State.accept_done (proc : List Micro) (s : State) : (s.accept proc).done = false := rfl
@[simp] theorem State.accept_err (proc : List Micro) (s : State) : (s.accept proc).err = .ok := rfl
@[simp] theorem State.accept_rdata (proc : List Micro) (s : State) : (s.accept proc).rdata = s.rdata := rfl
@[simp] theorem State.accept_txbuf (proc : List Micro) (s : State) : (s.accept proc).txbuf = s.txbuf := rfl
@[simp] theorem State.accept_rxbuf (proc : List Micro) (s : State) : (s.accept proc).rxbuf = s.rxbuf := rfl
@[simp] theorem State.accept_hostData (proc : List Micro) (s : State) : (s.accept proc).hostData = s.hostData := rfl
@[simp] theorem State.accept_inputs (proc : List Micro) (s : State) : (s.accept proc).inputs = s.inputs := rfl
@[simp] theorem State.accept_env (proc : List Micro) (s : State) : (s.accept proc).env = s.env := rfl
@[simp] theorem State.accept_trace (proc : List Micro) (s : State) : (s.accept proc).trace = s.trace := rfl
@[simp] theorem State.accept_wires (proc : List Micro) (s : State) : (s.accept proc).wires = s.wires := rfl
@[simp] theorem State.accept_reads (proc : List Micro) (s : State) : (s.accept proc).reads = s.reads := rfl
@[simp] theorem State.accept_resets (proc : List Micro) (s : State) : (s.accept proc).resets = s.resets := rfl

/-! ## State.refuse -/

@[simp] theorem State.refuse_cfg (s : State) : s.refuse.cfg = s.cfg := rfl
@[simp] theorem State.refuse_lines (s : State) : s.refuse.lines = s.lines := rfl
@[simp] theorem State.refuse_timer (s : State) : s.refuse.timer = s.timer := rfl
@[simp] theorem State.refuse_shreg (s : State) : s.refuse.shreg = s.shreg := rfl
@[simp] theorem State.refuse_ackf (s : State) : s.refuse.ackf = s.ackf := rfl
@[simp] theorem State.refuse_tstate (s : State) : s.refuse.tstate = s.tstate := rfl
@[simp] theorem State.refuse_seq (s : State) : s.refuse.seq = s.seq := rfl
@[simp] theorem State.refuse_done (s : State) : s.refuse.done = true := rfl
@[simp] theorem State.refuse_err (s : State) : s.refuse.err = .misuse := rfl
@[simp] theorem State.refuse_rdata (s : State) : s.refuse.rdata = s.rdata := rfl
@[simp] theorem State.refuse_txbuf (s : State) : s.refuse.txbuf = s.txbuf := rfl
@[simp] theorem State.refuse_rxbuf (s : State) : s.refuse.rxbuf = s.rxbuf := rfl
@[simp] theorem State.refuse_hostData (s : State) : s.refuse.hostData = s.hostData := rfl
@[simp] theorem State.refuse_inputs (s : State) : s.refuse.inputs = s.inputs := rfl
@[simp] theorem State.refuse_env (s : State) : s.refuse.env = s.env := rfl
@[simp] theorem State.refuse_trace (s : State) : s.refuse.trace = s.trace := rfl
@[simp] theorem State.refuse_wires (s : State) : s.refuse.wires = s.wires := rfl
@[simp] theorem State.refuse_reads (s : State) : s.refuse.reads = s.reads := rfl
@[simp] theorem State.refuse_resets (s : State) : s.refuse.resets = s.resets := rfl

/-! ## State.hostRead -/

@[simp] theorem State.hostRead_cfg (num : Nat) (s : State) : (s.hostRead num).cfg = s.cfg := rfl
@[simp] theorem State.hostRead_lines (num : Nat) (s : State) : (s.hostRead num).lines = s.lines := rfl
@[simp] theorem State.hostRead_timer (num : Nat) (s : State) : (s.hostRead num).timer = s.timer := rfl
@[simp] theorem State.hostRead_shreg (num : Nat) (s : State) : (s.hostRead num).shreg = s.shreg := rfl
@[simp] theorem State.hostRead_ackf (num : Nat) (s : State) : (s.hostRead num).ackf = s.ackf := rfl
@[simp] theorem State.hostRead_tstate (num : Nat) (s : State) : (s.hostRead num).tstate = s.tstate := rfl
@[simp] theorem State.hostRead_seq (num : Nat) (s : State) : (s.hostRead num).seq = s.seq := rfl
@[simp] theorem State.hostRead_done (num : Nat) (s : State) : (s.hostRead num).done = s.done := rfl
@[simp] theorem State.hostRead_err (num : Nat) (s : State) : (s.hostRead num).err = s.err := rfl
@[simp] theorem State.hostRead_rdata (num : Nat) (s : State) : (s.hostRead num).rdata = s.rdata := rfl
@[simp] theorem State.hostRead_txbuf (num : Nat) (s : State) : (s.hostRead num).txbuf = s.txbuf := rfl
@[simp] theorem State.hostRead_rxbuf (num : Nat) (s : State) : (s.hostRead num).rxbuf = s.rxbuf := rfl
@[simp] theorem State.hostRead_hostData (num : Nat) (s : State) : (s.hostRead num).hostData = s.readPort num := rfl
@[simp] theorem State.hostRead_inputs (num : Nat) (s : State) : (s.hostRead num).inputs = s.inputs := rfl
@[simp] theorem State.hostRead_env (num : Nat) (s : State) : (s.hostRead num).env = s.env := rfl
@[simp] theorem State.hostRead_trace (num : Nat) (s : State) : (s.hostRead num).trace = s.trace := rfl
@[simp] theorem State.hostRead_wires (num : Nat) (s : State) : (s.hostRead num).wires = s.wires := rfl
@[simp] theorem State.hostRead_reads (num : Nat) (s : State) : (s.hostRead num).reads = s.reads + 1 := rfl
@[simp] theorem State.hostRead_resets (num : Nat) (s : State) : (s.hostRead num).resets = s.resets := rfl

/-! ## State.resetEvent -/

@[simp] theorem State.resetEvent_cfg (s : State) : s.resetEvent.cfg = s.cfg := rfl
@[simp] theorem State.resetEvent_lines (s : State) : s.resetEvent.lines = { outScl := true, outSda := true, dirScl := .output, dirSda := .output } := rfl
@[simp] theorem State.resetEvent_timer (s : State) : s.resetEvent.timer = 0 := rfl
@[simp] theorem State.resetEvent_shreg (s : State) : s.resetEvent.shreg = 0#8 := rfl
@[simp] theorem State.resetEvent_ackf (s : State) : s.resetEvent.ackf = false := rfl
@[simp] theorem State.resetEvent_tstate (s : State) : s.resetEvent.tstate = .idle := rfl
@[simp] theorem State.resetEvent_seq (s : State) : s.resetEvent.seq = Seq.idle := rfl
@[simp] theorem State.resetEvent_done (s : State) : s.resetEvent.done = false := rfl
@[simp] theorem State.resetEvent_err (s : State) : s.resetEvent.err = .ok := rfl
@[simp] theorem State.resetEvent_rdata (s : State) : s.resetEvent.rdata = 0#8 := rfl
@[simp] theorem State.resetEvent_txbuf (s : State) : s.resetEvent.txbuf = [] := rfl
@[simp] theorem State.resetEvent_rxbuf (s : State) : s.resetEvent.rxbuf = [] := rfl
@[simp] theorem State.resetEvent_hostData (s : State) : s.resetEvent.hostData = s.hostData := rfl
@[simp] theorem State.resetEvent_inputs (s : State) : s.resetEvent.inputs = s.inputs := rfl
@[simp] theorem State.resetEvent_env (s : State) : s.resetEvent.env = { s.env with now := { scl := .unknown, sda := .unknown } } := rfl
@[simp] theorem State.resetEvent_trace (s : State) : s.resetEvent.trace = [] := rfl
@[simp] theorem State.resetEvent_wires (s : State) : s.resetEvent.wires = [(true, true)] := rfl
@[simp] theorem State.resetEvent_reads (s : State) : s.resetEvent.reads = s.reads := rfl
@[simp] theorem State.resetEvent_resets (s : State) : s.resetEvent.resets = s.resets + 1 := rfl

/-! ## State.withCommandWord -/

@[simp] theorem State.withCommandWord_cfg (w : Word) (s : State) : (s.withCommandWord w).cfg = s.cfg := rfl
@[simp] theorem State.withCommandWord_lines (w : Word) (s : State) : (s.withCommandWord w).lines = s.lines := rfl
@[simp] theorem State.withCommandWord_timer (w : Word) (s : State) : (s.withCommandWord w).timer = 0 := rfl
@[simp] theorem State.withCommandWord_shreg (w : Word) (s : State) : (s.withCommandWord w).shreg = s.shreg := rfl
@[simp] theorem State.withCommandWord_ackf (w : Word) (s : State) : (s.withCommandWord w).ackf = s.ackf := rfl
@[simp] theorem State.withCommandWord_tstate (w : Word) (s : State) : (s.withCommandWord w).tstate = s.tstate := rfl
@[simp] theorem State.withCommandWord_seq (w : Word) (s : State) : (s.withCommandWord w).seq = Seq.idle := rfl
@[simp] theorem State.withCommandWord_done (w : Word) (s : State) : (s.withCommandWord w).done = s.done := rfl
@[simp] theorem State.withCommandWord_err (w : Word) (s : State) : (s.withCommandWord w).err = s.err := rfl
@[simp] theorem State.withCommandWord_rdata (w : Word) (s : State) : (s.withCommandWord w).rdata = s.rdata := rfl
@[simp] theorem State.withCommandWord_txbuf (w : Word) (s : State) : (s.withCommandWord w).txbuf = s.txbuf := rfl
@[simp] theorem State.withCommandWord_rxbuf (w : Word) (s : State) : (s.withCommandWord w).rxbuf = s.rxbuf := rfl
@[simp] theorem State.withCommandWord_hostData (w : Word) (s : State) : (s.withCommandWord w).hostData = s.hostData := rfl
@[simp] theorem State.withCommandWord_inputs (w : Word) (s : State) : (s.withCommandWord w).inputs = .write 0x000 w :: s.inputs := rfl
@[simp] theorem State.withCommandWord_env (w : Word) (s : State) : (s.withCommandWord w).env = s.env := rfl
@[simp] theorem State.withCommandWord_trace (w : Word) (s : State) : (s.withCommandWord w).trace = s.trace := rfl
@[simp] theorem State.withCommandWord_wires (w : Word) (s : State) : (s.withCommandWord w).wires = s.wires := rfl
@[simp] theorem State.withCommandWord_reads (w : Word) (s : State) : (s.withCommandWord w).reads = s.reads := rfl
@[simp] theorem State.withCommandWord_resets (w : Word) (s : State) : (s.withCommandWord w).resets = s.resets := rfl

end Sys2Proof.Machine
end

