-- ==== Sys2Proof/Laws/Ops.lean ====
section
/-! SUPPORT. For each shared operation what it can do, said once: the lines, the environment, issuing a command, the
end of a micro-operation, the controller's step, runs. -/

namespace Sys2Proof.Machine

/-! ## Lines -/

@[simp] theorem Lines.out_scl (x : Lines) : x.out .scl = x.outScl := rfl
@[simp] theorem Lines.out_sda (x : Lines) : x.out .sda = x.outSda := rfl
@[simp] theorem Lines.dir_scl (x : Lines) : x.dir .scl = x.dirScl := rfl
@[simp] theorem Lines.dir_sda (x : Lines) : x.dir .sda = x.dirSda := rfl
@[simp] theorem Lines.setOut_scl (x : Lines) (v : Level) : x.setOut .scl v = { x with outScl := v } := rfl
@[simp] theorem Lines.setOut_sda (x : Lines) (v : Level) : x.setOut .sda v = { x with outSda := v } := rfl
@[simp] theorem Lines.setDir_scl (x : Lines) (d : Dir) : x.setDir .scl d = { x with dirScl := d } := rfl
@[simp] theorem Lines.setDir_sda (x : Lines) (d : Dir) : x.setDir .sda d = { x with dirSda := d } := rfl

/-- Writing a latch changes no direction (10_state.md R20). -/
@[simp] theorem Lines.dir_setOut (x : Lines) (l k : Line) (v : Level) : (x.setOut l v).dir k = x.dir k := by
  cases l <;> cases k <;> rfl

/-- Turning a line changes no latch (10_state.md R23). -/
@[simp] theorem Lines.out_setDir (x : Lines) (l k : Line) (d : Dir) : (x.setDir l d).out k = x.out k := by
  cases l <;> cases k <;> rfl

@[simp] theorem Lines.bothOut_iff (x : Lines) : x.bothOut = true ↔ x.dirScl = .output ∧ x.dirSda = .output := by
  simp [Lines.bothOut]

@[simp] theorem Lines.bothOut_setOut (x : Lines) (l : Line) (v : Level) : (x.setOut l v).bothOut = x.bothOut := by
  cases l <;> rfl

/-! ## The environment -/

@[simp] theorem Env.after_zero (e : Env) : Env.after 0 e = e := rfl
theorem Env.after_succ (n : Nat) (e : Env) : Env.after (n + 1) e = Env.after n e.move := rfl

theorem Env.after_add (m n : Nat) (e : Env) : Env.after (m + n) e = Env.after n (Env.after m e) := by
  induction m generalizing e with
  | zero => simp
  | succ m ih => rw [Nat.succ_add, Env.after_succ, ih, Env.after_succ]

theorem Env.move_eq_after (e : Env) : e.move = Env.after 1 e := rfl

theorem Env.draw_after (m n : Nat) (e : Env) (l : Line) : (Env.after m e).draw l n = e.draw l (m + n) := by
  rw [Env.draw, Env.draw, Env.after_add]

/-- An environment with no script that drives data to `v` draws `v` at every micro-operation. -/
theorem Env.draw_const (e : Env) (v : Level) (n : Nat) (hs : e.script = []) (hd : e.now.sda = .level v) :
    e.draw .sda n = v := by
  induction n generalizing e with
  | zero => simp [Env.draw, Env.level, Env.drive, hd]
  | succ n ih =>
    have : e.draw .sda (n + 1) = e.move.draw .sda n := rfl
    rw [this]
    exact ih e.move (by simp [Env.move, hs]) (by simp [Env.move, hs, hd])

/-! ## The wire history -/

@[simp] theorem recordPins_nil (p : Level × Level) : recordPins p [] = [p] := rfl

@[simp] theorem recordPins_same (p : Level × Level) (ws : List (Level × Level)) :
    recordPins p (p :: ws) = p :: ws := by
  simp [recordPins]

/-- Recording grows the history at its new end, or leaves it. -/
theorem recordPins_cases (p : Level × Level) (ws : List (Level × Level)) :
    recordPins p ws = p :: ws ∨ recordPins p ws = ws := by
  cases ws with
  | nil => exact .inl rfl
  | cons q ws =>
    simp only [recordPins]
    split
    · exact .inr rfl
    · exact .inl rfl

theorem recordPins_append (p : Level × Level) (ws : List (Level × Level)) : ∃ wl, recordPins p ws = wl ++ ws := by
  obtain h | h := recordPins_cases p ws
  · exact ⟨[p], h⟩
  · exact ⟨[], h⟩

@[simp] theorem recordPins_head (p : Level × Level) (ws : List (Level × Level)) :
    (recordPins p ws).head? = some p := by
  cases ws with
  | nil => rfl
  | cons q ws =>
    simp only [recordPins]
    split
    · rename_i h
      simp [h]
    · rfl

/-- Recording keeps a merged history merged. -/
theorem recordPins_merged (p : Level × Level) (ws : List (Level × Level)) (h : historyMerged ws = true) :
    historyMerged (recordPins p ws) = true := by
  cases ws with
  | nil => rfl
  | cons q ws =>
    simp only [recordPins]
    split
    · exact h
    · rename_i hne
      simp [historyMerged, hne, h]

/-- Two recordings, as a micro-operation makes them, grow the history at its new end. -/
theorem recordPins_append_two (p q : Level × Level) (ws : List (Level × Level)) :
    ∃ wl, recordPins p (recordPins q ws) = wl ++ ws := by
  obtain ⟨v, hv⟩ := recordPins_append q ws
  obtain ⟨w, hw⟩ := recordPins_append p (recordPins q ws)
  exact ⟨w ++ v, by rw [hw, hv, List.append_assoc]⟩

/-! ## Issuing a command -/

theorem State.issue_busy (s : State) (legal : Bool) (proc : List Micro) (h : s.busy = true) :
    s.issue legal proc = .next s := by
  simp [State.issue, h]

theorem State.issue_legal (s : State) (proc : List Micro) (h : s.busy = false) :
    s.issue true proc = .next (s.accept proc) := by
  simp [State.issue, h]

theorem State.issue_illegal (s : State) (proc : List Micro) (h : s.busy = false) :
    s.issue false proc = .next s.refuse := by
  simp [State.issue, h]

/-- Everything issuing can do: the command is dropped, accepted or refused, and the machine goes on. -/
theorem State.issue_cases (s t : State) (legal : Bool) (proc : List Micro) (h : s.issue legal proc = .next t) :
    (s.busy = true ∧ t = s) ∨ (s.busy = false ∧ legal = true ∧ t = s.accept proc) ∨
      (s.busy = false ∧ legal = false ∧ t = s.refuse) := by
  unfold State.issue at h
  split at h <;> simp_all

theorem State.issue_total (s : State) (legal : Bool) (proc : List Micro) : ∃ t, s.issue legal proc = .next t := by
  unfold State.issue
  split <;> exact ⟨_, rfl⟩

theorem State.busy_iff (s : State) : s.busy = true ↔ s.seq.todo ≠ [] := by
  cases h : s.seq.todo <;> simp [State.busy, h]

theorem State.not_busy_iff (s : State) : s.busy = false ↔ s.seq.todo = [] := by
  cases h : s.seq.todo <;> simp [State.busy, h]

theorem State.Quiet.not_busy (s : State) (h : s.Quiet) : s.busy = false := by
  simp [State.busy, h.1, Seq.idle]

/-! ## The end of a micro-operation -/

theorem State.finish_running (s : State) (m : Micro) (rest : List Micro) (h : s.seq.todo = m :: rest) :
    s.finish = s := by
  simp [State.finish, h]

theorem State.finish_ended (s : State) (h : s.seq.todo = []) :
    s.finish = { s with seq := Seq.idle, done := true, err := s.seq.code } := by
  simp [State.finish, h]

/-- What the end of a command leaves alone. -/
theorem State.finish_frame (s : State) :
    s.finish.cfg = s.cfg ∧ s.finish.lines = s.lines ∧ s.finish.timer = s.timer ∧ s.finish.shreg = s.shreg ∧
      s.finish.ackf = s.ackf ∧ s.finish.tstate = s.tstate ∧ s.finish.rdata = s.rdata ∧ s.finish.txbuf = s.txbuf ∧
      s.finish.rxbuf = s.rxbuf ∧ s.finish.hostData = s.hostData ∧ s.finish.inputs = s.inputs ∧
      s.finish.env = s.env ∧ s.finish.trace = s.trace ∧ s.finish.wires = s.wires ∧ s.finish.reads = s.reads ∧
      s.finish.resets = s.resets := by
  unfold State.finish
  split <;> simp

/-- What a procedure's own doings leave alone, whatever they are. -/
theorem State.applyPost_frame (p : Post) (s : State) :
    (s.applyPost p).cfg = s.cfg ∧ (s.applyPost p).lines = s.lines ∧ (s.applyPost p).timer = s.timer ∧
      (s.applyPost p).done = s.done ∧ (s.applyPost p).err = s.err ∧ (s.applyPost p).txbuf = s.txbuf ∧
      (s.applyPost p).hostData = s.hostData ∧ (s.applyPost p).inputs = s.inputs ∧ (s.applyPost p).env = s.env ∧
      (s.applyPost p).trace = s.trace ∧ (s.applyPost p).wires = s.wires ∧ (s.applyPost p).reads = s.reads ∧
      (s.applyPost p).resets = s.resets := by
  cases p with
  | ackEnd policy =>
    simp only [State.applyPost, State.ackDecision]
    split
    · simp
    · simp
    · simp
    · simp
    · simp only [State.nackedData]
      split
      · simp
      · split <;> simp
  | _ => simp [State.applyPost]

/-- The end of a micro-operation touches neither the lines nor TIMER nor TXBUF nor the parameters. -/
theorem State.retire_frame (tok : Token) (p : Post) (rest : List Micro) (s : State) :
    (s.retire tok p rest).cfg = s.cfg ∧ (s.retire tok p rest).lines = s.lines ∧
      (s.retire tok p rest).timer = s.timer ∧ (s.retire tok p rest).txbuf = s.txbuf ∧
      (s.retire tok p rest).hostData = s.hostData ∧ (s.retire tok p rest).inputs = s.inputs ∧
      (s.retire tok p rest).env = s.env ∧ (s.retire tok p rest).trace = tok :: s.trace ∧
      (s.retire tok p rest).wires = recordPins s.pins s.wires ∧
      (s.retire tok p rest).reads = s.reads ∧ (s.retire tok p rest).resets = s.resets := by
  have hf := State.finish_frame
    (State.applyPost p (State.emit tok { s with seq := { s.seq with todo := rest } }))
  have hp := State.applyPost_frame p (State.emit tok { s with seq := { s.seq with todo := rest } })
  unfold State.retire
  simp only [hf, hp, State.emit_cfg, State.emit_lines, State.emit_timer, State.emit_txbuf, State.emit_hostData,
    State.emit_inputs, State.emit_env, State.emit_trace, State.emit_wires, State.emit_reads, State.emit_resets]
  exact ⟨trivial, trivial, trivial, trivial, trivial, trivial, trivial, trivial, rfl, trivial, trivial⟩

/-- A micro-operation with nothing beside it, when another follows: only its token and the pins. -/
theorem State.retire_plain (tok : Token) (m : Micro) (rest : List Micro) (s : State) :
    s.retire tok .none (m :: rest) = State.emit tok { s with seq := { s.seq with todo := m :: rest } } := by
  simp [State.retire, State.applyPost, State.finish]

/-- The end of a micro-operation that is not the last and decides nothing. -/
theorem State.retire_running (tok : Token) (p : Post) (m : Micro) (rest : List Micro) (s : State)
    (h : ∀ policy, p ≠ .ackEnd policy) :
    s.retire tok p (m :: rest) =
      State.applyPost p (State.emit tok { s with seq := { s.seq with todo := m :: rest } }) := by
  unfold State.retire
  apply State.finish_running _ m rest
  cases p with
  | ackEnd policy => exact absurd rfl (h policy)
  | _ => rfl

/-! ## The controller's step -/

theorem State.tick_idle (s : State) (h : s.seq.todo = []) : s.tick = .next s := by
  simp [State.tick, h]

theorem State.tick_write (s : State) (l : Line) (v : Level) (p : Post) (rest : List Micro)
    (h : s.seq.todo = { op := .w l v, post := p } :: rest) (hd : s.lines.dir l = .output) :
    s.tick = .next (State.retire (.w l v) p rest { s.settle with lines := s.lines.setOut l v }) := by
  simp [State.tick, h, State.writeLine, hd]

theorem State.tick_turn (s : State) (l : Line) (d : Dir) (p : Post) (rest : List Micro)
    (h : s.seq.todo = { op := .t l d, post := p } :: rest) :
    s.tick = .next (State.retire (.t l d) p rest { s.settle with lines := s.lines.setDir l d }) := by
  simp [State.tick, h, State.turnLine]

theorem State.tick_sample (s : State) (l : Line) (p : Post) (rest : List Micro)
    (h : s.seq.todo = { op := .s l, post := p } :: rest) (hd : s.lines.dir l = .input) :
    s.tick = .next (State.retire (.s l (s.env.draw l 1)) p rest
      { s.settle with seq := { s.seq with bit := s.env.draw l 1 } }) := by
  simp [State.tick, h, State.sampleLine, hd, Env.draw, Env.after]

/-- Everything the controller's step can do when it answers: nothing with an empty SEQ; else the first remaining
micro-operation, a wait one tick at a time. -/
theorem State.tick_cases (s t : State) (h : s.tick = .next t) :
    (s.seq.todo = [] ∧ t = s) ∨
    ∃ p rest,
      (∃ l v, s.seq.todo = { op := .w l v, post := p } :: rest ∧ s.lines.dir l = .output ∧
        t = State.retire (.w l v) p rest { s.settle with lines := s.lines.setOut l v }) ∨
      (∃ l d, s.seq.todo = { op := .t l d, post := p } :: rest ∧
        t = State.retire (.t l d) p rest { s.settle with lines := s.lines.setDir l d }) ∨
      (∃ l, s.seq.todo = { op := .s l, post := p } :: rest ∧ s.lines.dir l = .input ∧
        t = State.retire (.s l (s.env.draw l 1)) p rest
          { s.settle with seq := { s.seq with bit := s.env.draw l 1 } }) ∨
      (s.seq.todo = { op := .h, post := p } :: rest ∧ t = s.waitTick s.cfg.halfTicks .h p rest) ∨
      (s.seq.todo = { op := .f, post := p } :: rest ∧ t = s.waitTick s.cfg.fullTicks .f p rest) := by
  unfold State.tick at h
  split at h
  · left
    rename_i h0
    exact ⟨h0, (Host.Outcome.next.inj h).symm⟩
  · rename_i m rest hm
    right
    obtain ⟨op, p⟩ := m
    refine ⟨p, rest, ?_⟩
    cases op with
    | w l v =>
      simp only [State.writeLine] at h
      split at h
      · rename_i hd
        exact .inl ⟨l, v, hm, hd, (Host.Outcome.next.inj h).symm⟩
      · cases h
    | t l d =>
      simp only [State.turnLine] at h
      exact .inr (.inl ⟨l, d, hm, (Host.Outcome.next.inj h).symm⟩)
    | s l =>
      simp only [State.sampleLine] at h
      split at h
      · rename_i hd
        exact .inr (.inr (.inl ⟨l, hm, hd, (Host.Outcome.next.inj h).symm⟩))
      · cases h
    | h => exact .inr (.inr (.inr (.inl ⟨hm, (Host.Outcome.next.inj h).symm⟩)))
    | f => exact .inr (.inr (.inr (.inr ⟨hm, (Host.Outcome.next.inj h).symm⟩)))

/-- Everything one tick of a wait can do: it begins and ends, begins, ends, or goes on. -/
theorem State.waitTick_cases (ticks : Nat) (tok : Token) (p : Post) (rest : List Micro) (s : State) :
    (s.timer = 0 ∧ ticks ≤ 1 ∧ s.waitTick ticks tok p rest = State.retire tok p rest s.settle) ∨
    (s.timer = 0 ∧ 1 < ticks ∧ s.waitTick ticks tok p rest = { s.settle with timer := ticks - 1 }) ∨
    (s.timer = 1 ∧ s.waitTick ticks tok p rest = State.retire tok p rest { s with timer := 0 }) ∨
    (∃ n, s.timer = n + 2 ∧ s.waitTick ticks tok p rest = { s with timer := n + 1 }) := by
  unfold State.waitTick
  split
  · rename_i h
    split
    · rename_i h1
      exact .inl ⟨h, h1, rfl⟩
    · rename_i h1
      exact .inr (.inl ⟨h, by omega, rfl⟩)
  · rename_i h
    exact .inr (.inr (.inl ⟨h, rfl⟩))
  · rename_i n h
    exact .inr (.inr (.inr ⟨n, h, rfl⟩))

/-- What no controller's step touches; the environment moves or stays. -/
structure State.TickFrame (s t : State) : Prop where
  cfg : t.cfg = s.cfg
  txbuf : t.txbuf = s.txbuf
  hostData : t.hostData = s.hostData
  inputs : t.inputs = s.inputs
  reads : t.reads = s.reads
  resets : t.resets = s.resets
  env : t.env = s.env ∨ t.env = s.env.move

theorem State.TickFrame.retire {s x : State} (f : s.TickFrame x) (tok : Token) (p : Post) (rest : List Micro) :
    s.TickFrame (x.retire tok p rest) := by
  obtain ⟨h1, -, -, h2, h3, h4, h5, -, -, h6, h7⟩ := State.retire_frame tok p rest x
  exact ⟨h1.trans f.cfg, h2.trans f.txbuf, h3.trans f.hostData, h4.trans f.inputs, h6.trans f.reads,
    h7.trans f.resets, h5 ▸ f.env⟩

theorem State.waitTick_frame (ticks : Nat) (tok : Token) (p : Post) (rest : List Micro) (s : State) :
    s.TickFrame (s.waitTick ticks tok p rest) := by
  obtain ⟨-, -, h⟩ | ⟨-, -, h⟩ | ⟨-, h⟩ | ⟨k, -, h⟩ := State.waitTick_cases ticks tok p rest s <;> rw [h]
  · refine State.TickFrame.retire (s := s) ?_ _ _ _
    exact ⟨rfl, rfl, rfl, rfl, rfl, rfl, .inr rfl⟩
  · exact ⟨rfl, rfl, rfl, rfl, rfl, rfl, .inr rfl⟩
  · refine State.TickFrame.retire (s := s) ?_ _ _ _
    exact ⟨rfl, rfl, rfl, rfl, rfl, rfl, .inl rfl⟩
  · exact ⟨rfl, rfl, rfl, rfl, rfl, rfl, .inl rfl⟩

theorem State.tick_frame (s t : State) (h : s.tick = .next t) : s.TickFrame t := by
  obtain ⟨-, rfl⟩ | ⟨p, rest, ⟨l, v, -, -, rfl⟩ | ⟨l, d, -, rfl⟩ | ⟨l, -, -, rfl⟩ | ⟨-, rfl⟩ | ⟨-, rfl⟩⟩ :=
    State.tick_cases s t h
  · exact ⟨rfl, rfl, rfl, rfl, rfl, rfl, .inl rfl⟩
  · refine State.TickFrame.retire (s := s) ?_ _ _ _
    exact ⟨rfl, rfl, rfl, rfl, rfl, rfl, .inr rfl⟩
  · refine State.TickFrame.retire (s := s) ?_ _ _ _
    exact ⟨rfl, rfl, rfl, rfl, rfl, rfl, .inr rfl⟩
  · refine State.TickFrame.retire (s := s) ?_ _ _ _
    exact ⟨rfl, rfl, rfl, rfl, rfl, rfl, .inr rfl⟩
  · exact State.waitTick_frame _ _ _ _ _
  · exact State.waitTick_frame _ _ _ _ _

/-! ## Steps and runs -/

theorem step_quiet (s : State) (h : s.inputs = []) : step s = s.tick := by
  simp [step, h]

theorem step_take (s : State) (x : Input) (rest : List Input) (h : s.inputs = x :: rest) :
    step s = State.take x { s with inputs := rest } := by
  simp [step, h]

@[simp] theorem run_zero (s : State) : run 0 s = .next s := rfl

theorem run_succ (k : Nat) (s t : State) (h : step s = .next t) : run (k + 1) s = run k t := by
  simp [run, h]

/-- Runs compose. -/
theorem run_add (j k : Nat) (s t : State) (h : run j s = .next t) : run (j + k) s = run k t := by
  induction j generalizing s with
  | zero =>
    cases h
    simp
  | succ j ih =>
    unfold run at h
    split at h
    · rename_i u hu
      rw [Nat.succ_add, run_succ _ _ _ hu]
      exact ih u h
    · cases h
    · cases h

/-- A run of `k + 1` steps that answers has a first step and a rest. -/
theorem run_succ_inv (k : Nat) (s t : State) (h : run (k + 1) s = .next t) :
    ∃ u, step s = .next u ∧ run k u = .next t := by
  unfold run at h
  split at h
  · rename_i u hu
    exact ⟨u, hu, h⟩
  · cases h
  · cases h

/-- An environment without a script goes on as it is, as long as the outside does nothing. -/
theorem run_env_const (n : Nat) (s u : State) (hin : s.inputs = []) (hs : s.env.script = [])
    (h : run n s = .next u) : u.env.script = [] ∧ u.env.now = s.env.now := by
  induction n generalizing s with
  | zero =>
    cases h
    exact ⟨hs, rfl⟩
  | succ n ih =>
    obtain ⟨t, h1, h2⟩ := run_succ_inv n s u h
    rw [step_quiet s hin] at h1
    have f := State.tick_frame s t h1
    have hm : t.env.script = [] ∧ t.env.now = s.env.now := by
      obtain he | he := f.env <;> rw [he]
      · exact ⟨hs, rfl⟩
      · exact ⟨by simp [Env.move, hs], by simp [Env.move, hs]⟩
    obtain ⟨a, b⟩ := ih t (f.inputs.trans hin) hm.1 h2
    exact ⟨a, b.trans hm.2⟩

/-- A wait that has begun ends after as many ticks as TIMER shows. -/
theorem run_wait_countdown (n : Nat) (s : State) (m : Micro) (rest : List Micro) (tok : Token)
    (hin : s.inputs = []) (hm : s.seq.todo = m :: rest)
    (hop : (m.op = .h ∧ tok = .h) ∨ (m.op = .f ∧ tok = .f)) (ht : s.timer = n + 1) :
    run (n + 1) s = .next (State.retire tok m.post rest { s with timer := 0 }) := by
  induction n generalizing s with
  | zero =>
    have : step s = .next (State.retire tok m.post rest { s with timer := 0 }) := by
      rw [step_quiet s hin]
      obtain ⟨h1, h2⟩ | ⟨h1, h2⟩ := hop <;> subst h2 <;> simp [State.tick, hm, h1, State.waitTick, ht]
    rw [run_succ _ _ _ this]
    rfl
  | succ n ih =>
    have : step s = .next { s with timer := n + 1 } := by
      rw [step_quiet s hin]
      obtain ⟨h1, h2⟩ | ⟨h1, h2⟩ := hop <;> simp [State.tick, hm, h1, State.waitTick, ht]
    rw [run_succ _ _ _ this]
    exact ih _ hin hm rfl

/-! ## Payload and procedures -/

@[simp] theorem State.txBytes_length (s : State) (i n : Nat) : (s.txBytes i n).length = n := by
  induction n generalizing i with
  | zero => rfl
  | succ n ih => simp [State.txBytes, ih]

/-- Assembling the bits of a byte in wire order gives the byte back (20_memory.md R63, R76). -/
theorem assemble_bitsMsbFirst (v : Byte) : assemble (bitsMsbFirst v) = v := by
  revert v
  decide

end Sys2Proof.Machine
end

