-- ==== Sys2Proof/Laws/Straight.lean ====
section
/-! SUPPORT. Straight-line execution: a stretch of SEQ that ends with no acknowledgement runs, tick by tick, to the
fold of its micro-operations' effects. Each proof about a command cites `run_straight` and `run_ack` instead of
stepping through its ticks. -/

namespace Sys2Proof.Machine

/-- A running controller that the outside leaves alone, between two micro-operations. -/
structure State.Going (s : State) : Prop where
  legal : s.cfg.legal = true
  inputs : s.inputs = []
  timer : s.timer = 0

/-- `s` with `rest` as what remains of SEQ. -/
def State.setTodo (s : State) (rest : List Micro) : State := { s with seq := { s.seq with todo := rest } }

/-- The effect of one whole micro-operation, SEQ's list apart. -/
def State.effect (s : State) (m : Micro) : State :=
  match m.op with
  | .w l v => State.applyPost m.post (State.emit (.w l v) { s.settle with lines := s.lines.setOut l v })
  | .t l d => State.applyPost m.post (State.emit (.t l d) { s.settle with lines := s.lines.setDir l d })
  | .s l => State.applyPost m.post (State.emit (.s l (s.settle.env.level l))
      { s.settle with seq := { s.seq with bit := s.settle.env.level l } })
  | .h => State.applyPost m.post (State.emit .h s.settle)
  | .f => State.applyPost m.post (State.emit .f s.settle)

/-- The micro-operation decides nothing: it ends no SEND_BYTE. -/
def Micro.straight (m : Micro) : Bool :=
  match m.post with
  | .ackEnd _ => false
  | _ => true

/-- The ticks of a stretch of SEQ. -/
def ticksOf (c : Config) : List Micro → Nat
  | [] => 0
  | m :: rest => microTicks c m.op + ticksOf c rest

theorem ticksOf_append (c : Config) (l r : List Micro) : ticksOf c (l ++ r) = ticksOf c l + ticksOf c r := by
  induction l with
  | nil => simp [ticksOf]
  | cons m l ih => simp [ticksOf, ih, Nat.add_assoc]

theorem Config.legal_halfTicks (c : Config) (h : c.legal = true) : 1 ≤ c.halfTicks := by
  simp only [Config.legal, Bool.and_eq_true, decide_eq_true_eq] at h
  exact h.1.1.1

theorem Config.legal_fullTicks (c : Config) (h : c.legal = true) : 1 ≤ c.fullTicks := by
  have := Config.legal_halfTicks c h
  unfold Config.fullTicks
  omega

theorem State.applyPost_setTodo (p : Post) (s : State) (rest : List Micro) (h : ∀ policy, p ≠ .ackEnd policy) :
    State.applyPost p (s.setTodo rest) = (State.applyPost p s).setTodo rest := by
  cases p with
  | ackEnd policy => exact absurd rfl (h policy)
  | _ => rfl

theorem Micro.straight_post (m : Micro) (h : m.straight = true) : ∀ policy, m.post ≠ .ackEnd policy := by
  intro policy hp
  simp [Micro.straight, hp] at h

theorem State.effect_setTodo (s : State) (m : Micro) (rest : List Micro) (h : m.straight = true) :
    (s.setTodo rest).effect m = (s.effect m).setTodo rest := by
  have hp := m.straight_post h
  obtain ⟨op, p⟩ := m
  cases p with
  | ackEnd policy => exact absurd rfl (hp policy)
  | _ => cases op <;> rfl

theorem State.foldl_effect_setTodo (l : List Micro) (s : State) (rest : List Micro)
    (h : l.all Micro.straight = true) : l.foldl State.effect (s.setTodo rest) = (l.foldl State.effect s).setTodo rest := by
  induction l generalizing s with
  | nil => rfl
  | cons m l ih =>
    simp only [List.all_cons, Bool.and_eq_true] at h
    simp only [List.foldl_cons, State.effect_setTodo s m rest h.1]
    exact ih _ h.2

/-- A whole wait, from its first tick to its last. -/
theorem run_wait (s : State) (m : Micro) (rest : List Micro) (n : Nat) (tok : Token) (hn : 1 ≤ n)
    (hin : s.inputs = []) (ht : s.timer = 0) (hm : s.seq.todo = m :: rest)
    (hop : (m.op = .h ∧ tok = .h ∧ n = s.cfg.halfTicks) ∨ (m.op = .f ∧ tok = .f ∧ n = s.cfg.fullTicks)) :
    run n s = .next (State.retire tok m.post rest s.settle) := by
  have hstep : step s = .next (s.waitTick n tok m.post rest) := by
    rw [step_quiet s hin]
    obtain ⟨h1, h2, h3⟩ | ⟨h1, h2, h3⟩ := hop <;> subst h2 <;> subst h3 <;> simp [State.tick, hm, h1]
  obtain rfl | ⟨j, rfl⟩ : n = 1 ∨ ∃ j, n = j + 2 := by
    rcases n with _ | _ | j
    · omega
    · exact .inl rfl
    · exact .inr ⟨j, rfl⟩
  · rw [run_succ _ _ _ hstep]
    simp [State.waitTick, ht]
  · rw [show j + 2 = (j + 1) + 1 from rfl, run_succ _ _ _ hstep]
    have : s.waitTick (j + 1 + 1) tok m.post rest = { s.settle with timer := j + 1 } := by
      simp [State.waitTick, ht]
    rw [this, run_wait_countdown j { s.settle with timer := j + 1 } m rest tok hin hm (by tauto) rfl]
    congr 2
    simp [State.settle, State.observe, ht]

/-- The `require` of the next micro-operation. -/
def Micro.allowed (m : Micro) (x : Lines) : Bool :=
  match m.op with
  | .w l _ => decide (x.dir l = .output)
  | .s l => decide (x.dir l = .input)
  | .t _ _ => true
  | .h => true
  | .f => true

/-- One whole micro-operation that decides nothing. -/
theorem run_micro (s : State) (g : s.Going) (m : Micro) (rest : List Micro) (hm : s.seq.todo = m :: rest)
    (hs : m.straight = true) (ha : m.allowed s.lines = true) :
    run (microTicks s.cfg m.op) s = .next (State.finish ((s.effect m).setTodo rest)) := by
  have hp := m.straight_post hs
  have h1 := Config.legal_halfTicks s.cfg g.legal
  have h2 := Config.legal_fullTicks s.cfg g.legal
  have key : ∀ (x : State) (tok : Token),
      x.retire tok m.post rest = State.finish ((State.applyPost m.post (x.emit tok)).setTodo rest) := by
    intro x tok
    rw [← State.applyPost_setTodo m.post _ rest hp]
    rfl
  obtain ⟨op, p⟩ := m
  cases op with
  | h =>
    rw [show microTicks s.cfg MicroOp.h = s.cfg.halfTicks from rfl,
      run_wait s _ rest _ .h h1 g.inputs g.timer hm (by simp), key]
    rfl
  | f =>
    rw [show microTicks s.cfg MicroOp.f = s.cfg.fullTicks from rfl,
      run_wait s _ rest _ .f h2 g.inputs g.timer hm (by simp), key]
    rfl
  | w l v =>
    have hd : s.lines.dir l = .output := by simpa [Micro.allowed] using ha
    have := State.tick_write s l v p rest hm hd
    rw [← step_quiet s g.inputs] at this
    rw [show microTicks s.cfg (MicroOp.w l v) = 0 + 1 from rfl, run_succ _ _ _ this, run_zero, key]
    rfl
  | t l d =>
    have := State.tick_turn s l d p rest hm
    rw [← step_quiet s g.inputs] at this
    rw [show microTicks s.cfg (MicroOp.t l d) = 0 + 1 from rfl, run_succ _ _ _ this, run_zero, key]
    rfl
  | s l =>
    have hd : s.lines.dir l = .input := by simpa [Micro.allowed] using ha
    have := State.tick_sample s l p rest hm hd
    rw [← step_quiet s g.inputs] at this
    rw [show microTicks s.cfg (MicroOp.s l) = 0 + 1 from rfl, run_succ _ _ _ this, run_zero, key]
    rfl

/-- The lines after a micro-operation. -/
def Micro.linesAfter (m : Micro) (x : Lines) : Lines :=
  match m.op with
  | .w l v => x.setOut l v
  | .t l d => x.setDir l d
  | .s _ => x
  | .h => x
  | .f => x

/-- Every `require` of a stretch of SEQ holds when it is entered with the lines `x`. -/
def stretchAllowed : Lines → List Micro → Bool
  | _, [] => true
  | x, m :: rest => m.allowed x && stretchAllowed (m.linesAfter x) rest

theorem State.effect_lines (s : State) (m : Micro) : (s.effect m).lines = m.linesAfter s.lines := by
  obtain ⟨op, p⟩ := m
  have := fun x => (State.applyPost_frame p x).2.1
  cases op <;> simp [State.effect, Micro.linesAfter, this]

theorem State.effect_frame (s : State) (m : Micro) :
    (s.effect m).cfg = s.cfg ∧ (s.effect m).inputs = s.inputs ∧ (s.effect m).timer = s.timer := by
  obtain ⟨op, p⟩ := m
  have h1 := fun x => (State.applyPost_frame p x).1
  have h2 := fun x => (State.applyPost_frame p x).2.2.2.2.2.2.2.1
  have h3 := fun x => (State.applyPost_frame p x).2.2.1
  cases op <;> simp [State.effect, h1, h2, h3]

theorem State.Going.effect {s : State} (g : s.Going) (m : Micro) (rest : List Micro) :
    ((s.effect m).setTodo rest).Going := by
  obtain ⟨h1, h2, h3⟩ := State.effect_frame s m
  exact ⟨h1 ▸ g.legal, h2.trans g.inputs, h3.trans g.timer⟩

/-- A stretch of SEQ that decides nothing runs to the fold of its effects. -/
theorem run_straight (l : List Micro) (s : State) (g : s.Going) (rest : List Micro) (hl : l ≠ [])
    (hm : s.seq.todo = l ++ rest) (hs : l.all Micro.straight = true) (ha : stretchAllowed s.lines l = true) :
    run (ticksOf s.cfg l) s = .next (State.finish ((l.foldl State.effect s).setTodo rest)) := by
  induction l generalizing s with
  | nil => exact absurd rfl hl
  | cons m l ih =>
    simp only [List.all_cons, Bool.and_eq_true] at hs
    simp only [stretchAllowed, Bool.and_eq_true] at ha
    have h1 := run_micro s g m (l ++ rest) hm hs.1 ha.1
    cases l with
    | nil => simpa [ticksOf] using h1
    | cons m' l' =>
      have hf : State.finish ((s.effect m).setTodo (m' :: l' ++ rest)) = (s.effect m).setTodo (m' :: l' ++ rest) := rfl
      rw [hf] at h1
      have h2 := ih ((s.effect m).setTodo (m' :: l' ++ rest)) (g.effect m _) (by simp) rfl hs.2
        (by
          have : ((s.effect m).setTodo (m' :: l' ++ rest)).lines = m.linesAfter s.lines := State.effect_lines s m
          rw [this]
          exact ha.2)
      have hc : ((s.effect m).setTodo (m' :: l' ++ rest)).cfg = s.cfg := (State.effect_frame s m).1
      rw [hc, State.foldl_effect_setTodo _ _ _ hs.2] at h2
      rw [ticksOf, run_add _ _ _ _ h1, h2]
      rfl

/-- The last micro-operation of SEND_BYTE: ACKF, TSTATE and what the acknowledgement decides. -/
theorem run_ack (s : State) (g : s.Going) (policy : AckPolicy) (rest : List Micro)
    (hm : s.seq.todo = { op := .t .sda .output, post := .ackEnd policy } :: rest) :
    run 1 s = .next (State.finish (State.ackDecision policy
      { State.emit (.t .sda .output) { s.settle with lines := s.lines.setDir .sda .output } with
        seq := { s.seq with todo := rest }
        ackf := s.seq.bit
        tstate := tstateAtByteEnd s.tstate s.seq.bit })) := by
  have := State.tick_turn s .sda .output (.ackEnd policy) rest hm
  rw [← step_quiet s g.inputs] at this
  rw [show 1 = 0 + 1 from rfl, run_succ _ _ _ this, run_zero]
  rfl

/-- The first 63 micro-operations of SEND_BYTE, all but the one that decides. -/
def sendByteBody (value : Byte) : List Micro :=
  sendBitProc (.beginByte value) (value.getLsbD 7) ++ sendBitsProc (bitsMsbFirst value).tail ++
    plain (.t .sda .input) :: readBitProc .none

theorem sendByteProc_eq (value : Byte) (policy : AckPolicy) :
    sendByteProc value policy = sendByteBody value ++ [{ op := .t .sda .output, post := .ackEnd policy }] := rfl

end Sys2Proof.Machine
end

