-- ==== Sys2Proof/Laws/Procedures.lean ====
section
/-! SUPPORT. What a stretch of SEQ does as a whole, computed from its micro-operations alone: the lines, the
registers, the tokens; the pins it shows are left open (`wl`). Then the one procedure that decides, SEND_BYTE. -/

namespace Sys2Proof.Machine

/-- The registers a procedure can write on its way. -/
structure Regs where
  bit : Level
  shreg : Byte
  tstate : TState
  rdata : Byte
  rxbuf : Memory

def State.regs (s : State) : Regs where
  bit := s.seq.bit
  shreg := s.shreg
  tstate := s.tstate
  rdata := s.rdata
  rxbuf := s.rxbuf

def State.setRegs (s : State) (r : Regs) : State :=
  { s with
    seq := { s.seq with bit := r.bit }
    shreg := r.shreg
    tstate := r.tstate
    rdata := r.rdata
    rxbuf := r.rxbuf }

/-- What a procedure's own doings make of the registers; `ackEnd` is no part of a straight stretch. -/
def Regs.post (r : Regs) : Post → Regs
  | .none => r
  | .startAsserted => { r with tstate := .startAsserted }
  | .toIdle => { r with tstate := .idle }
  | .beginByte v => { r with tstate := tstateAtByteStart r.tstate, shreg := v }
  | .ackEnd _ => r
  | .clearShreg => { r with shreg := 0#8 }
  | .shiftIn => { r with shreg := shiftInBit r.shreg r.bit }
  | .resultBit => { r with rdata := byteOfBit r.bit }
  | .resultByte => { r with rdata := r.shreg }
  | .storeRx i => { r with rxbuf := r.rxbuf.write i r.shreg }

/-- The registers after one micro-operation, `e` the environment before it. -/
def Regs.after (e : Env) (r : Regs) (m : Micro) : Regs :=
  match m.op with
  | .s l => Regs.post { r with bit := e.move.level l } m.post
  | .w _ _ => r.post m.post
  | .t _ _ => r.post m.post
  | .h => r.post m.post
  | .f => r.post m.post

/-- The token of a micro-operation, `e` the environment before it. -/
def Micro.token (e : Env) (m : Micro) : Token :=
  match m.op with
  | .w l v => .w l v
  | .t l d => .t l d
  | .s l => .s l (e.move.level l)
  | .h => .h
  | .f => .f

def linesAfter : Lines → List Micro → Lines
  | x, [] => x
  | x, m :: l => linesAfter (m.linesAfter x) l

def regsAfter : Env → Regs → List Micro → Regs
  | _, r, [] => r
  | e, r, m :: l => regsAfter e.move (r.after e m) l

def tokensOf : Env → List Micro → List Token
  | _, [] => []
  | e, m :: l => m.token e :: tokensOf e.move l

theorem linesAfter_append (x : Lines) (l r : List Micro) : linesAfter x (l ++ r) = linesAfter (linesAfter x l) r := by
  induction l generalizing x with
  | nil => rfl
  | cons m l ih => exact ih _

theorem regsAfter_append (e : Env) (g : Regs) (l r : List Micro) :
    regsAfter e g (l ++ r) = regsAfter (e.after l.length) (regsAfter e g l) r := by
  induction l generalizing e g with
  | nil => rfl
  | cons m l ih => exact ih _ _

theorem tokensOf_append (e : Env) (l r : List Micro) :
    tokensOf e (l ++ r) = tokensOf e l ++ tokensOf (e.after l.length) r := by
  induction l generalizing e with
  | nil => rfl
  | cons m l ih => exact congrArg (m.token e :: ·) (ih _)

/-- `s` after `n` micro-operations that left the lines `x`, the tokens `toks` (oldest first) and the pins `wl`. -/
def State.moved (s : State) (x : Lines) (n : Nat) (toks : List Token) (wl : List (Level × Level)) : State :=
  { s with lines := x, env := s.env.after n, trace := toks.reverse ++ s.trace, wires := wl ++ s.wires }

theorem State.moved_moved (s : State) (x y : Lines) (m n : Nat) (a b : List Token) (v w : List (Level × Level)) :
    (s.moved x m a v).moved y n b w = s.moved y (m + n) (a ++ b) (w ++ v) := by
  simp [State.moved, Env.after_add]

/-- A micro-operation grows the wire history at its new end. -/
theorem State.effect_wires (s : State) (m : Micro) : ∃ wl, (s.effect m).wires = wl ++ s.wires := by
  obtain ⟨op, p⟩ := m
  have hp := fun x => (State.applyPost_frame p x).2.2.2.2.2.2.2.2.2.2.1
  cases op <;> simp only [State.effect, hp, State.emit_wires, State.settle, State.observe_wires] <;>
    exact recordPins_append_two _ _ _

/-- One straight micro-operation. -/
theorem State.effect_eq (s : State) (m : Micro) (h : m.straight = true) :
    ∃ wl, s.effect m = (s.setRegs (s.regs.after s.env m)).moved (m.linesAfter s.lines) 1 [m.token s.env] wl := by
  have hp := m.straight_post h
  obtain ⟨wl, hw⟩ := s.effect_wires m
  obtain ⟨op, p⟩ := m
  refine ⟨wl, ?_⟩
  unfold State.moved
  dsimp only [State.setRegs]
  rw [← hw]
  cases p with
  | ackEnd policy => exact absurd rfl (hp policy)
  | _ => cases op <;> rfl

/-- A straight stretch. -/
theorem State.effects_eq (l : List Micro) (s : State) (h : l.all Micro.straight = true) :
    ∃ wl, l.foldl State.effect s =
      (s.setRegs (regsAfter s.env s.regs l)).moved (linesAfter s.lines l) l.length (tokensOf s.env l) wl := by
  induction l generalizing s with
  | nil => exact ⟨[], rfl⟩
  | cons m l ih =>
    simp only [List.all_cons, Bool.and_eq_true] at h
    obtain ⟨w1, h1⟩ := s.effect_eq m h.1
    obtain ⟨w2, h2⟩ := ih ((s.setRegs (s.regs.after s.env m)).moved (m.linesAfter s.lines) 1 [m.token s.env] w1) h.2
    refine ⟨w2 ++ w1, ?_⟩
    rw [List.foldl_cons, h1, h2]
    refine (State.moved_moved ((s.setRegs (s.regs.after s.env m)).setRegs
      (regsAfter s.env.move (s.regs.after s.env m) l)) _ _ 1 l.length _ _ _ _).trans ?_
    rw [Nat.add_comm]
    rfl

/-- A straight stretch of SEQ, tick by tick. -/
theorem run_stretch (l : List Micro) (s : State) (g : s.Going) (rest : List Micro) (hl : l ≠ [])
    (hm : s.seq.todo = l ++ rest) (hs : l.all Micro.straight = true) (ha : stretchAllowed s.lines l = true) :
    ∃ wl, run (ticksOf s.cfg l) s = .next (State.finish (((s.setRegs (regsAfter s.env s.regs l)).moved
      (linesAfter s.lines l) l.length (tokensOf s.env l) wl).setTodo rest)) := by
  obtain ⟨wl, h⟩ := State.effects_eq l s hs
  exact ⟨wl, h ▸ run_straight l s g rest hl hm hs ha⟩

/-! ## The ticks of the procedures (70_reset_and_hazards.md R281, R282) -/

theorem ticksOf_sendBit (c : Config) (p : Post) (v : Level) : ticksOf c (sendBitProc p v) = 4 + 4 * c.halfTicks := by
  simp only [ticksOf, sendBitProc, plain, microTicks, Config.fullTicks]
  omega

theorem ticksOf_readBit (c : Config) (p : Post) : ticksOf c (readBitProc p) = 3 + 4 * c.halfTicks := by
  simp only [ticksOf, readBitProc, plain, microTicks, Config.fullTicks]
  omega

theorem ticksOf_shiftIn (c : Config) (n : Nat) : ticksOf c (shiftInProc n) = n * (3 + 4 * c.halfTicks) := by
  induction n with
  | zero => simp [shiftInProc, ticksOf]
  | succ n ih => rw [shiftInProc, ticksOf_append, ticksOf_readBit, ih, Nat.add_comm, ← Nat.succ_mul]

theorem ticksOf_readByte (c : Config) (p : Post) : ticksOf c (readByteProc p) = 26 + 32 * c.halfTicks := by
  rw [readByteProc, ticksOf_append, ticksOf, ticksOf_shiftIn]
  simp only [ticksOf, microTicks]
  omega

theorem ticksOf_start (c : Config) : ticksOf c startProc = 4 := rfl

theorem ticksOf_stop (c : Config) (preload : Bool) :
    ticksOf c (stopProc preload) = stopMicros preload - 2 + 4 * c.halfTicks := by
  cases preload <;> simp only [stopProc, stopTail, plain, stopMicros] <;>
    simp only [Bool.false_eq_true, if_true, if_false, ticksOf, microTicks, Config.fullTicks] <;> omega

/-- The last micro-operation of SEND_BYTE, in the form of the stretches before it. -/
theorem run_ack_moved (s : State) (g : s.Going) (policy : AckPolicy) (rest : List Micro)
    (hm : s.seq.todo = { op := .t .sda .output, post := .ackEnd policy } :: rest) :
    ∃ wl, run 1 s = .next (State.finish (State.ackDecision policy
      ({ s with
        seq := { s.seq with todo := rest }
        ackf := s.seq.bit
        tstate := tstateAtByteEnd s.tstate s.seq.bit }.moved
        { s.lines with dirSda := .output } 1 [.t .sda .output] wl))) := by
  obtain ⟨wl, hw⟩ := recordPins_append_two
    (State.pins { s.settle with lines := s.lines.setDir .sda .output }) (State.pins { s with env := s.env.move }) s.wires
  refine ⟨wl, (run_ack s g policy rest hm).trans ?_⟩
  unfold State.moved
  rw [← hw]
  rfl

/-- `send_byte` as a whole, tick by tick, up to what its acknowledgement decides (43_byte_transfer.md R165). -/
theorem run_sendByte (s : State) (g : s.Going) (v : Byte) (policy : AckPolicy) (rest : List Micro)
    (hb : s.lines.bothOut = true) (hm : s.seq.todo = sendByteProc v policy ++ rest) :
    ∃ wl, run (37 + 36 * s.cfg.halfTicks) s = .next (State.finish (State.ackDecision policy
      ({ s with
        seq := { s.seq with todo := rest, bit := s.env.draw .sda 61 }
        shreg := v
        ackf := s.env.draw .sda 61
        tstate := tstateAtByteEnd (tstateAtByteStart s.tstate) (s.env.draw .sda 61) }.moved
        { s.lines with outScl := false, outSda := v.getLsbD 0 } 64 (sendByteTokens v (s.env.draw .sda 61)) wl))) := by
  obtain ⟨hc, hd⟩ := (Lines.bothOut_iff _).1 hb
  obtain ⟨w1, h1⟩ := run_stretch (sendByteBody v) s g ({ op := .t .sda .output, post := .ackEnd policy } :: rest)
    (by simp [sendByteBody, sendBitProc]) (by simp [hm, sendByteProc_eq]) rfl
    (by simp [stretchAllowed, sendByteBody, sendBitProc, sendBitsProc, readBitProc, bitsMsbFirst, Micro.allowed,
      Micro.linesAfter, plain, hc, hd])
  have hr : regsAfter s.env s.regs (sendByteBody v) = { s.regs with
    bit := s.env.draw .sda 61, shreg := v, tstate := tstateAtByteStart s.tstate } := rfl
  have hl : linesAfter s.lines (sendByteBody v) =
    { s.lines with outScl := false, outSda := v.getLsbD 0, dirSda := .input } := rfl
  have ht : tokensOf s.env (sendByteBody v) = (bitsMsbFirst v).flatMap sendBitTokens ++ [.t .sda .input] ++
    readBitTokens (s.env.draw .sda 61) := rfl
  have hn : (sendByteBody v).length = 63 := rfl
  rw [hr, hl, ht, hn] at h1
  have e : 37 + 36 * s.cfg.halfTicks = ticksOf s.cfg (sendByteBody v) + 1 := by
    simp [ticksOf, sendByteBody, sendBitProc, sendBitsProc, readBitProc, bitsMsbFirst, plain, microTicks,
      Config.fullTicks]
    omega
  obtain ⟨u, hu⟩ : ∃ u : State, u = { s with
        seq := { s.seq with todo := { op := .t .sda .output, post := .ackEnd policy } :: rest, bit := s.env.draw .sda 61 }
        shreg := v
        tstate := tstateAtByteStart s.tstate }.moved
        { s.lines with outScl := false, outSda := v.getLsbD 0, dirSda := .input } 63
        ((bitsMsbFirst v).flatMap sendBitTokens ++ [Token.t .sda .input] ++ readBitTokens (s.env.draw .sda 61)) w1 :=
    ⟨_, rfl⟩
  obtain ⟨w2, h2⟩ := run_ack_moved u (hu ▸ State.Going.mk g.legal g.inputs g.timer) policy rest (hu ▸ rfl)
  subst hu
  refine ⟨w2 ++ w1, ?_⟩
  rw [e, run_add _ 1 _ _ h1]
  refine h2.trans ?_
  have hx : { s.lines with outScl := false, outSda := v.getLsbD 0 } =
      { s.lines with outScl := false, outSda := v.getLsbD 0, dirSda := .output } := by rw [← hd]
  rw [hx]
  refine congrArg (fun x => Host.Outcome.next (State.finish (State.ackDecision policy x))) ?_
  exact State.moved_moved { s with
        seq := { s.seq with todo := rest, bit := s.env.draw .sda 61 }
        shreg := v
        ackf := s.env.draw .sda 61
        tstate := tstateAtByteEnd (tstateAtByteStart s.tstate) (s.env.draw .sda 61) } _ _ 63 1 _ _ w1 w2

end Sys2Proof.Machine
end

