-- ==== Sys2Proof/Laws/Commands.lean ====
section
/-! SUPPORT. A whole command that holds no acknowledgement, from its acceptance to its report. -/

namespace Sys2Proof.Machine

theorem State.accept_going (s : State) (proc : List Micro) (q : s.Quiet) (hc : s.cfg.legal = true) :
    (s.accept proc).Going := ⟨hc, q.2.2, q.2.1⟩

/-- An accepted command whose procedure is straight runs to its end in its procedure's ticks; what it leaves is
computed by `linesAfter`, `regsAfter` and `tokensOf`. -/
theorem run_command (s : State) (l : List Micro) (q : s.Quiet) (hc : s.cfg.legal = true) (hl : l ≠ [])
    (hs : l.all Micro.straight = true) (ha : stretchAllowed s.lines l = true) :
    ∃ wl, run (ticksOf s.cfg l) (s.accept l) = .next { s.ended l.length (tokensOf s.env l) wl .ok with
      lines := linesAfter s.lines l
      shreg := (regsAfter s.env { s.regs with bit := false } l).shreg
      tstate := (regsAfter s.env { s.regs with bit := false } l).tstate
      rdata := (regsAfter s.env { s.regs with bit := false } l).rdata
      rxbuf := (regsAfter s.env { s.regs with bit := false } l).rxbuf } := by
  obtain ⟨wl, h⟩ := run_stretch l (s.accept l) (s.accept_going l q hc) [] hl (by simp [State.accept]) hs ha
  refine ⟨wl, h.trans ?_⟩
  congr 1
  simp only [State.finish, State.setTodo, State.moved, State.setRegs, State.accept, State.ended]
  rw [← q.1]
  rfl

end Sys2Proof.Machine
end

