-- ==== Sys2Proof/Laws/Decode.lean ====
section
/-! SUPPORT. The decoder, opcode by opcode. -/

namespace Sys2Proof

theorem opcode_cases (op : BitVec 4) :
    op = 0 ∨ op = 1 ∨ op = 2 ∨ op = 3 ∨ op = 4 ∨ op = 5 ∨ op = 6 ∨ op = 7 ∨
    op = 8 ∨ op = 9 ∨ op = 10 ∨ op = 11 ∨ op = 12 ∨ op = 13 ∨ op = 14 ∨ op = 15 := by
  revert op
  decide

/-- What the decoder does with a word, by its opcode. -/
theorem decode_cases (w : Word) :
    (w.extractLsb' 28 4 = 0#4 ∧ decode w = .error .reservedOpcode) ∨
    (w.extractLsb' 28 4 = 1#4 ∧ decode w = decodeL w (fun line val => .setLine line val)) ∨
    (w.extractLsb' 28 4 = 2#4 ∧ decode w = decodeL w (fun line val => .setDir line (dirOfBit val))) ∨
    (w.extractLsb' 28 4 = 3#4 ∧ decode w = decodeLineOnly w (fun line => .readLine line)) ∨
    (w.extractLsb' 28 4 = 4#4 ∧ decode w = decodeN w .waitHalf) ∨
    (w.extractLsb' 28 4 = 5#4 ∧ decode w = decodeN w .waitFull) ∨
    (w.extractLsb' 28 4 = 6#4 ∧ decode w = decodeBit w (fun value => .sendBit value)) ∨
    (w.extractLsb' 28 4 = 7#4 ∧ decode w = decodeN w .readBit) ∨
    (w.extractLsb' 28 4 = 8#4 ∧ decode w = decodeV w (fun value => .sendByte value)) ∨
    (w.extractLsb' 28 4 = 9#4 ∧ decode w = decodeN w .readByte) ∨
    (w.extractLsb' 28 4 = 10#4 ∧ decode w = decodeN w .start) ∨
    (w.extractLsb' 28 4 = 11#4 ∧ decode w = decodeN w .stop) ∨
    (w.extractLsb' 28 4 = 12#4 ∧ decode w = decodeT w (fun addr reg count => .writeBlock addr reg count)) ∨
    (w.extractLsb' 28 4 = 13#4 ∧ decode w = decodeT w (fun addr reg count => .readBlock addr reg count)) ∨
    (w.extractLsb' 28 4 = 14#4 ∧ decode w = .error .reservedOpcode) ∨
    (w.extractLsb' 28 4 = 15#4 ∧ decode w = .error .reservedOpcode) := by
  unfold decode
  rcases opcode_cases (w.extractLsb' 28 4) with h | h | h | h | h | h | h | h | h | h | h | h | h | h | h | h <;>
    rw [h] <;> simp

end Sys2Proof
end

