-- ==== Sys2Proof/Laws/LinesSafe.lean ====
section
/-! SUPPORT. `linesSafe`, the part of the invariant that speaks of SEQ: it depends on the directions only, it goes
through lists piece by piece, and every procedure has it when entered as its command is legal. -/

namespace Sys2Proof.Machine

/-- Two line states with the same directions. -/
def Lines.SameDirs (x y : Lines) : Prop := x.dirScl = y.dirScl ∧ x.dirSda = y.dirSda

theorem Lines.SameDirs.dir {x y : Lines} (h : x.SameDirs y) (l : Line) : x.dir l = y.dir l := by
  cases l
  · exact h.1
  · exact h.2

theorem Lines.SameDirs.setDir {x y : Lines} (h : x.SameDirs y) (l : Line) (d : Dir) :
    (x.setDir l d).SameDirs (y.setDir l d) := by
  cases l
  · exact ⟨rfl, h.2⟩
  · exact ⟨h.1, rfl⟩

theorem Lines.SameDirs.bothOut {x y : Lines} (h : x.SameDirs y) : x.bothOut = y.bothOut := by
  simp [Lines.bothOut, h.1, h.2]

theorem Lines.sameDirs_setOut (x : Lines) (l : Line) (v : Level) : x.SameDirs (x.setOut l v) := by
  cases l <;> exact ⟨rfl, rfl⟩

theorem linesSafe_congr (l : List Micro) (x y : Lines) (h : x.SameDirs y) : linesSafe x l = linesSafe y l := by
  induction l generalizing x y with
  | nil => rfl
  | cons m l ih =>
    obtain ⟨op, p⟩ := m
    have hd := h.dir
    cases op with
    | t k d =>
      have h' := h.setDir k d
      simp only [linesSafe, h'.bothOut, ih _ _ h']
    | _ => simp only [linesSafe, h.bothOut, ih _ _ h, hd]

theorem linesSafe_append (l r : List Micro) (x : Lines) :
    linesSafe x (l ++ r) = (linesSafe x l && linesSafe (linesAfter x l) r) := by
  induction l generalizing x with
  | nil => rfl
  | cons m l ih =>
    obtain ⟨op, p⟩ := m
    cases op with
    | w k v =>
      have h := Lines.sameDirs_setOut x k v
      simp only [List.cons_append, linesSafe, linesSafe_congr (l ++ r) _ _ h, ih, linesSafe_congr l _ _ h, linesAfter,
        Micro.linesAfter, Bool.and_assoc]
    | _ => simp only [List.cons_append, linesSafe, ih, linesAfter, Micro.linesAfter, Bool.and_assoc]

theorem linesSafe_sendByte (v : Byte) (policy : AckPolicy) (x : Lines) (h : x.bothOut = true) :
    linesSafe x (sendByteProc v policy) = true ∧
      (linesAfter x (sendByteProc v policy)).bothOut = true := by
  obtain ⟨h1, h2⟩ := (Lines.bothOut_iff _).1 h
  constructor
  · simp [sendByteProc, sendBitProc, sendBitsProc, bitsMsbFirst, readBitProc, linesSafe, plain, h1, h2]
  · simp [sendByteProc, sendBitProc, sendBitsProc, bitsMsbFirst, readBitProc, linesAfter, plain, h1, h2, Micro.linesAfter]

theorem linesSafe_stop (x : Lines) (b : Bool) (h : x.bothOut = true) : linesSafe x (stopProc b) = true := by
  obtain ⟨h1, h2⟩ := (Lines.bothOut_iff _).1 h
  cases b <;> simp [stopProc, stopTail, linesSafe, plain, h1, h2]

theorem linesSafe_start (x : Lines) (h : x.bothOut = true) :
    linesSafe x startProc = true ∧
      (linesAfter x startProc).bothOut = true := by
  obtain ⟨h1, h2⟩ := (Lines.bothOut_iff _).1 h
  constructor <;> simp [startProc, linesSafe, linesAfter, Micro.linesAfter, plain, h1, h2]

theorem linesSafe_sendBit (x : Lines) (b : Bool) (h : x.bothOut = true) :
    linesSafe x (sendBitProc .none b) = true ∧
      (linesAfter x (sendBitProc .none b)).bothOut = true := by
  obtain ⟨h1, h2⟩ := (Lines.bothOut_iff _).1 h
  constructor <;> simp [sendBitProc, linesSafe, linesAfter, Micro.linesAfter, plain, h1, h2]

theorem linesSafe_readByte (x : Lines) (p : Post) (hp : ∀ q, p ≠ .ackEnd q) (h : x.dirScl = .output) :
    linesSafe x (readByteProc p) = true ∧
      (linesAfter x (readByteProc p)).bothOut = true := by
  constructor
  · cases p with
    | ackEnd q => exact absurd rfl (hp q)
    | _ => simp [readByteProc, shiftInProc, readBitProc, linesSafe, plain, h]
  · simp [readByteProc, shiftInProc, readBitProc, linesAfter, Micro.linesAfter, plain, h]

theorem linesSafe_payload (vs : List Byte) (x : Lines) (h : x.bothOut = true) :
    linesSafe x (payloadProc vs) = true ∧
      (linesAfter x (payloadProc vs)).bothOut = true := by
  induction vs generalizing x with
  | nil => exact ⟨rfl, h⟩
  | cons v vs ih =>
    obtain ⟨a, b⟩ := linesSafe_sendByte v (.data v 1) x h
    obtain ⟨c, d⟩ := ih _ b
    simp only [payloadProc, sendDataProc, linesSafe_append, linesAfter_append, a, c, d, Bool.and_self, and_self]

theorem linesSafe_reads (n i : Nat) (x : Lines) (h : x.bothOut = true) :
    linesSafe x (readsProc i n) = true ∧
      (linesAfter x (readsProc i n)).bothOut = true := by
  induction n generalizing x i with
  | zero => exact ⟨rfl, h⟩
  | succ n ih =>
    obtain ⟨a, b⟩ := linesSafe_readByte x (.storeRx i) (by simp) ((Lines.bothOut_iff _).1 h).1
    obtain ⟨a', b'⟩ := linesSafe_sendBit _ (n == 0) b
    obtain ⟨c, d⟩ := ih (i+1) _ b'
    simp only [readsProc, linesSafe_append, linesAfter_append, a, a', c, d, Bool.and_self, and_self]

theorem linesSafe_writeBlock (x : Lines) (p : Bool) (a r : Byte) (vs : List Byte) (h : x.bothOut = true) :
    linesSafe x (writeBlockProc p a r vs) = true := by
  obtain ⟨a1, b1⟩ := linesSafe_start x h
  obtain ⟨a2, b2⟩ := linesSafe_sendByte (addrByte a .write) .address _ b1
  obtain ⟨a3, b3⟩ := linesSafe_sendByte r (.data r 1) _ b2
  obtain ⟨a4, b4⟩ := linesSafe_payload vs _ b3
  simp only [writeBlockProc, sendAddressProc, sendDataProc, linesSafe_append, linesAfter_append, a1,
    a2, a3, a4, linesSafe_stop _ p b4, Bool.and_self]

theorem linesSafe_readBlock (x : Lines) (p : Bool) (a r : Byte) (n : Nat) (h : x.bothOut = true) :
    linesSafe x (readBlockProc p a r n) = true := by
  obtain ⟨a1, b1⟩ := linesSafe_start x h
  obtain ⟨a2, b2⟩ := linesSafe_sendByte (addrByte a .write) .address _ b1
  obtain ⟨a3, b3⟩ := linesSafe_sendByte r (.data r 1) _ b2
  obtain ⟨a4, b4⟩ := linesSafe_start _ b3
  obtain ⟨a5, b5⟩ := linesSafe_sendByte (addrByte a .read) .address _ b4
  obtain ⟨a6, b6⟩ := linesSafe_reads n 0 _ b5
  simp only [readBlockProc, sendAddressProc, sendDataProc, linesSafe_append, linesAfter_append, a1,
    a2, a3, a4, a5, a6, linesSafe_stop _ p b6, Bool.and_self]

end Sys2Proof.Machine
end

