-- ==== Sys2Proof/Laws/PerInstr.lean ====
section
/-! SUPPORT. One law per command: the word of a well-formed command selects that command's row of the opcode map
(30_encoding.md R97). -/

namespace Sys2Proof.Laws.EncodeOpcode

/-- The word selects the row. -/
def Statement (i : Instr) : Prop := i.wf = true → encode i &&& (opcodeRow i).mask = (opcodeRow i).bits

theorem setLine (line : Line) (level : Level) : Statement (.setLine line level) := by
  cases line <;> cases level <;> exact fun _ => by decide

theorem setDir (line : Line) (dir : Dir) : Statement (.setDir line dir) := by
  cases line <;> cases dir <;> exact fun _ => by decide

theorem readLine (line : Line) : Statement (.readLine line) := by
  cases line <;> exact fun _ => by decide

theorem waitHalf : Statement .waitHalf := fun _ => by decide

theorem waitFull : Statement .waitFull := fun _ => by decide

theorem sendBit (value : Byte) : Statement (.sendBit value) := by
  unfold Statement
  revert value
  decide

theorem readBit : Statement .readBit := fun _ => by decide

theorem sendByte (value : Byte) : Statement (.sendByte value) := by
  unfold Statement
  revert value
  decide

theorem readByte : Statement .readByte := fun _ => by decide

theorem start : Statement .start := fun _ => by decide

theorem stop : Statement .stop := fun _ => by decide

/-- The three operands of format T leave the opcode and the must-be-zero bits alone, when the address has seven bits. -/
theorem formatT (op : Word) (addr reg count : Byte) (ho : op &&& 0xF800000F#32 = op) (h : addr < 0x80#8) :
    (op ||| placeField addr 20 ||| placeField reg 12 ||| placeField count 4) &&& 0xF800000F#32 = op := by
  have ha : placeField addr 20 &&& 0xF800000F#32 = 0#32 := by
    revert h
    revert addr
    decide
  have hr : placeField reg 12 &&& 0xF800000F#32 = 0#32 := by
    revert reg
    decide
  have hc : placeField count 4 &&& 0xF800000F#32 = 0#32 := by
    revert count
    decide
  have dist : ∀ a b c : Word, (a ||| b) &&& c = a &&& c ||| b &&& c := by
    intro a b c
    ext i hi
    simp [Bool.and_or_distrib_right]
  rw [dist, dist, dist, ha, hr, hc, ho]
  simp

theorem writeBlock (addr reg count : Byte) : Statement (.writeBlock addr reg count) := fun h =>
  formatT _ addr reg count (by decide) (by simpa [Instr.wf] using h)

theorem readBlock (addr reg count : Byte) : Statement (.readBlock addr reg count) := fun h =>
  formatT _ addr reg count (by decide) (by simpa [Instr.wf] using h)

end Sys2Proof.Laws.EncodeOpcode
end

