-- ==== Sys2Proof/Tests/Slice0.lean ====
section
/-! SUPPORT. Tests: well-formedness, the words of 95_test_vectors.md section 4.1, single steps against the vectors of
sections 4.2 to 4.8, and for each obligation with hypotheses a state that meets them. -/

namespace Sys2Proof.Tests

open Sys2Proof Sys2Proof.Machine

/-! ## Well-formedness: an ill-formed term for each check -/

theorem test_wf_sendBit : Instr.wf (.sendBit 1#8) = true ∧ Instr.wf (.sendBit 2#8) = false := by decide

theorem test_wf_writeBlock :
    Instr.wf (.writeBlock 0x7F#8 0xFF#8 255#8) = true ∧ Instr.wf (.writeBlock 0x80#8 0x00#8 1#8) = false := by decide

theorem test_wf_readBlock :
    Instr.wf (.readBlock 0x7F#8 0xFF#8 255#8) = true ∧ Instr.wf (.readBlock 0x80#8 0x00#8 1#8) = false := by decide

/-! ## Decoding: each word written out field by field (30_encoding.md R91 to R94, vectors VE1 to VE34) -/

/-- VE1 to VE4: OP 0001, 26 zeros, LINE, VAL. -/
theorem test_decode_setLine :
    decode (0b0001#4 ++ 0#26 ++ 0#1 ++ 0#1) = .ok (.setLine .scl false) ∧
    decode (0b0001#4 ++ 0#26 ++ 0#1 ++ 1#1) = .ok (.setLine .scl true) ∧
    decode (0b0001#4 ++ 0#26 ++ 1#1 ++ 0#1) = .ok (.setLine .sda false) ∧
    decode (0b0001#4 ++ 0#26 ++ 1#1 ++ 1#1) = .ok (.setLine .sda true) := by decide

/-- VE6, VE7: OP 0010, 26 zeros, LINE, VAL with 1 = output. -/
theorem test_decode_setDir :
    decode (0b0010#4 ++ 0#26 ++ 0#1 ++ 0#1) = .ok (.setDir .scl .input) ∧
    decode (0b0010#4 ++ 0#26 ++ 1#1 ++ 1#1) = .ok (.setDir .sda .output) := by decide

/-- VE8, VE9: OP 0011, 26 zeros, LINE, 0. -/
theorem test_decode_readLine :
    decode (0b0011#4 ++ 0#26 ++ 0#1 ++ 0#1) = .ok (.readLine .scl) ∧
    decode (0b0011#4 ++ 0#26 ++ 1#1 ++ 0#1) = .ok (.readLine .sda) := by decide

/-- VE11, VE13. -/
theorem test_decode_waits :
    decode (0b0100#4 ++ 0#28) = .ok .waitHalf ∧ decode (0b0101#4 ++ 0#28) = .ok .waitFull := by decide

/-- VE14, VE15, VE17. -/
theorem test_decode_bits :
    decode (0b0110#4 ++ 0#20 ++ 0x00#8) = .ok (.sendBit 0#8) ∧
    decode (0b0110#4 ++ 0#20 ++ 0x01#8) = .ok (.sendBit 1#8) ∧
    decode (0b0111#4 ++ 0#28) = .ok .readBit := by decide

/-- VE18, VE19, VE21. -/
theorem test_decode_bytes :
    decode (0b1000#4 ++ 0#20 ++ 0x00#8) = .ok (.sendByte 0x00#8) ∧
    decode (0b1000#4 ++ 0#20 ++ 0xFF#8) = .ok (.sendByte 0xFF#8) ∧
    decode (0b1001#4 ++ 0#28) = .ok .readByte := by decide

/-- VE22, VE23. -/
theorem test_decode_framing :
    decode (0b1010#4 ++ 0#28) = .ok .start ∧ decode (0b1011#4 ++ 0#28) = .ok .stop := by decide

/-- VE24, VE25, VE27, VE30, VE31: OP, 0, ADDR, REG, COUNT, 0000. -/
theorem test_decode_blocks :
    decode (0b1100#4 ++ 0#1 ++ 0x68#7 ++ 0x00#8 ++ 7#8 ++ 0#4) = .ok (.writeBlock 0x68#8 0x00#8 7#8) ∧
    decode (0b1100#4 ++ 0#1 ++ 0x50#7 ++ 0x10#8 ++ 1#8 ++ 0#4) = .ok (.writeBlock 0x50#8 0x10#8 1#8) ∧
    decode (0b1100#4 ++ 0#1 ++ 0x68#7 ++ 0x00#8 ++ 0#8 ++ 0#4) = .ok (.writeBlock 0x68#8 0x00#8 0#8) ∧
    decode (0b1101#4 ++ 0#1 ++ 0x68#7 ++ 0x00#8 ++ 7#8 ++ 0#4) = .ok (.readBlock 0x68#8 0x00#8 7#8) ∧
    decode (0b1101#4 ++ 0#1 ++ 0x7F#7 ++ 0xFF#8 ++ 255#8 ++ 0#4) = .ok (.readBlock 0x7F#8 0xFF#8 255#8) := by decide

/-- VE5, VE10, VE12, VE16, VE20, VE28, VE29: a 1 in a place the format marks 0. -/
theorem test_decode_mustBeZero :
    decode 0x10000004#32 = .error .mustBeZero ∧ decode 0x30000003#32 = .error .mustBeZero ∧
    decode 0x40000001#32 = .error .mustBeZero ∧ decode 0x60000002#32 = .error .mustBeZero ∧
    decode 0x80000100#32 = .error .mustBeZero ∧ decode 0xCE800070#32 = .error .mustBeZero ∧
    decode 0xC6800071#32 = .error .mustBeZero := by decide

/-- VE32, VE33, VE34. -/
theorem test_decode_reserved :
    decode 0x00000000#32 = .error .reservedOpcode ∧ decode 0xE0000000#32 = .error .reservedOpcode ∧
    decode 0xFFFFFFFF#32 = .error .reservedOpcode := by decide

/-- The encoder on the worked words of 30_encoding.md R104, and an ill-formed address in a refused word. -/
theorem test_encode :
    encode (.writeBlock 0x68#8 0x00#8 7#8) = 0xC6800070#32 ∧ encode (.readBlock 0x68#8 0x00#8 7#8) = 0xD6800070#32 ∧
    encode (.setDir .sda .input) = 0x20000002#32 ∧ encode (.sendByte 0xD0#8) = 0x800000D0#32 ∧
    decode (encode (.writeBlock 0x80#8 0x00#8 1#8)) = .error .mustBeZero ∧
    decode (encode (.sendBit 2#8)) = .error .mustBeZero := by decide

/-- 30_encoding.md R95's values. -/
theorem test_addrByte :
    addrByte 0x68#8 .write = 0xD0#8 ∧ addrByte 0x68#8 .read = 0xD1#8 ∧ addrByte 0x7F#8 .read = 0xFF#8 ∧
    addrByte 0x01#8 .read = 0x03#8 := by decide

/-- 43_byte_transfer.md R166's example: samples 0,0,1,0,0,1,1,0 make 0x26; W1: 0xA5 is sent as 1,0,1,0,0,1,0,1. -/
theorem test_bitOrder :
    assemble [false, false, true, false, false, true, true, false] = 0x26#8 ∧
    bitsMsbFirst 0xA5#8 = [true, false, true, false, false, true, false, true] := by decide

/-! ## States for the tests -/

/-- The data line at a level for ever, the clock line released. -/
def envAt (v : Level) : Env where
  script := []
  now := { scl := .released, sda := .level v }
  seen := 0

/-- The data line at `a` for the next `n` micro-operations, at `b` for the next `m`, then at `c`. -/
def envScript (n : Nat) (a : Level) (m : Nat) (b c : Level) : Env where
  script := List.replicate n { scl := .released, sda := .level a } ++
    List.replicate m { scl := .released, sda := .level b } ++ [{ scl := .released, sda := .level c }]
  now := { scl := .released, sda := .level a }
  seen := 0

/-- Parameters with a bound on the retries. -/
def boundedConfig : Config where
  halfTicks := 1
  maxAttempts := some 3
  maxCount := 2
  primExposed := true
  stopPreload := true

/-- Reset, with a known environment and a payload. -/
def resetState (e : Env) : State where
  __ := State.resetWith boundedConfig
  env := e
  txbuf := [(0, 0xA5#8), (1, 0x3C#8)]

/-- An open transaction: both lines low and outputs, TSTATE = DATA_PHASE. -/
def openState (e : Env) : State where
  __ := resetState e
  lines := { outScl := false, outSda := false, dirScl := .output, dirSda := .output }
  tstate := .dataPhase
  wires := [(false, false)]

/-- The same with the data line an input. -/
def listeningState (e : Env) : State where
  __ := openState e
  lines := { outScl := false, outSda := false, dirScl := .output, dirSda := .input }

/-- A running command whose next micro-operation is `m`, the one that remains after it a wait. -/
def runningState (m : Micro) : State where
  __ := openState (envAt false)
  seq := { todo := [m, plain .h], bit := false, code := .ok }

/-- What a step or an instruction answers. -/
def answered (o : Host.Outcome State Fault Refusal) : Option State :=
  match o with
  | .next t => some t
  | .fault _ => none
  | .refused _ => none

/-! ## Single steps against the vectors -/

/-- 10_state.md R39: after reset STATUS but for ACKF is 0, LINES is 0xF. -/
theorem test_reset_views : State.reset.status &&& 0xEF#8 = 0x00#8 ∧ State.reset.linesView = 0xF#4 := by decide

/-- VX1: STATUS & 0xEF = 0x22 and LINES = 0xC after START, whose last micro-operation is `C0`. -/
theorem test_start_views :
    (State.status { openState (envAt true) with tstate := .startAsserted, done := true }) &&& 0xEF#8 = 0x22#8 ∧
    (openState (envAt true)).linesView = 0xC#4 := by decide

/-- VK7, VK10: STATUS 0x16 after ADDR_NACK, 0x1A after DATA_NACK. -/
theorem test_status_nack :
    State.status { resetState (envAt true) with ackf := true, done := true, err := .addrNack } = 0x16#8 ∧
    State.status { resetState (envAt true) with ackf := true, done := true, err := .dataNack } = 0x1A#8 := by decide

/-- Section 4.8: a refusal leaves DONE = 1, ERR = 3, BUSY = 0 (STATUS & 0xEF = 0x0E) and the trace as it was. -/
theorem test_refusal :
    (answered (exec (.sendBit 0#8) State.reset)).map (fun t => (t.status &&& 0xEF#8, t.trace)) =
      some (0x0E#8, []) := by decide

/-- VE35, VE36: with PRIM_EXPOSED = false START is refused and WRITE_BLOCK is accepted. -/
theorem test_primExposed :
    (answered (exec .start { State.reset with cfg := { Config.default with primExposed := false } })).map
      State.busy = some false ∧
    (answered (exec (.writeBlock 0x68#8 0x00#8 1#8)
      { resetState (envAt false) with cfg := { boundedConfig with primExposed := false } })).map State.busy =
      some true := by decide

/-- VE27: COUNT = 0 decodes and is refused. -/
theorem test_count_zero :
    (answered (exec (.writeBlock 0x68#8 0x00#8 0#8) (resetState (envAt false)))).map State.err = some .misuse := by
  decide

/-- VL1: `SET_LINE data, low` from reset gives `D0` and OUT = (1,0), and TSTATE does not follow. -/
theorem test_setLine :
    (answered (exec (.setLine .sda false) (resetState (envAt true)))).bind (fun a =>
      (answered (step a)).map (fun t => (t.trace, t.linesView, t.tstate, t.done))) =
      some ([Token.w .sda false], 0xD#4, .idle, true) := by decide

/-- VL3: `SET_DIR data, input` keeps the latch. -/
theorem test_setDir :
    (answered (exec (.setDir .sda .input) (resetState (envAt true)))).bind (fun a =>
      (answered (step a)).map (fun t => (t.trace, t.linesView))) =
      some ([Token.t .sda .input], 0x7#4) := by decide

/-- VL4, VL5: READ_LINE. -/
theorem test_readLine :
    (answered (exec (.readLine .sda) (listeningState (envAt false)))).bind (fun a =>
      (answered (step a)).map (fun t => (t.trace, t.rdata))) = some ([Token.s .sda false], 0x00#8) ∧
    (answered (exec (.readLine .sda) (listeningState (envAt true)))).bind (fun a =>
      (answered (step a)).map (fun t => (t.trace, t.rdata))) = some ([Token.s .sda true], 0x01#8) := by decide

/-- VL9: with the latch low and the environment high, turning data to output shows (0,1) and then (0,0). -/
theorem test_retained_latch :
    (answered (exec (.setDir .sda .output) (listeningState (envAt true)))).bind (fun a =>
      (answered (step a)).map (fun t => (t.wires.take 2, t.linesView))) =
      some ([(false, false), (false, true)], 0xC#4) := by decide

/-- 41_bit_timer.md R140, R141: the one tick of WAIT_HALF with HALF_TICKS = 1 ends it, the first of WAIT_FULL does not. -/
theorem test_waits :
    (answered (exec .waitHalf (resetState (envAt true)))).bind (fun a =>
      (answered (step a)).map (fun t => (t.busy, t.timer, t.trace))) = some (false, 0, [Token.h]) ∧
    (answered (exec .waitFull (resetState (envAt true)))).bind (fun a =>
      (answered (step a)).map (fun t => (t.busy, t.timer, t.trace))) = some (true, 1, []) := by decide

/-- 42_bit_transfer.md R150, R151: the first token is `D<value>`, the first micro-operation of READ_BIT is the wait. -/
theorem test_bits_begin :
    (answered (exec (.sendBit 1#8) (openState (envAt true)))).bind (fun a =>
      (answered (step a)).map (fun t => (t.trace, t.lines.outSda))) = some ([Token.w .sda true], true) ∧
    (answered (exec .readBit (listeningState (envAt true)))).bind (fun a =>
      (answered (step a)).map State.trace) = some [Token.h] := by decide

/-- VY2: a NACKed address byte leaves ADDRESS_PHASE and ACKF = 1 and is no error. -/
theorem test_sendByte_nack :
    (answered (step { runningState { op := .t .sda .output, post := .ackEnd .report } with
      tstate := .addressPhase, seq := { todo := [{ op := .t .sda .output, post := .ackEnd .report }],
                                        bit := true, code := .ok } })).map
      (fun t => (t.tstate, t.ackf, t.err, t.busy)) = some (.addressPhase, true, .ok, false) := by decide

/-- 60_exceptions.md R224: a NACKed address byte leaves a STOP to do and nothing else. -/
theorem test_address_nack :
    (answered (step { runningState { op := .t .sda .output, post := .ackEnd .address } with
      seq := { todo := [{ op := .t .sda .output, post := .ackEnd .address }, plain .h], bit := true, code := .ok } })).map
      (fun t => (t.seq.todo.map Micro.op, t.seq.code)) =
      some ([.w .sda false, .f, .w .scl true, .f, .w .sda true], .addrNack) := by decide

/-- 44_transaction.md R184: the third NACK of a byte with MAX_ATTEMPTS = 3 gives up, the second does not. -/
theorem test_data_nack :
    (answered (step { runningState { op := .t .sda .output, post := .ackEnd (.data 0x55#8 3) } with
      seq := { todo := [{ op := .t .sda .output, post := .ackEnd (.data 0x55#8 3) }], bit := true, code := .ok } })).map
      (fun t => (t.seq.todo.length, t.seq.code)) = some (5, .dataNack) ∧
    (answered (step { runningState { op := .t .sda .output, post := .ackEnd (.data 0x55#8 2) } with
      seq := { todo := [{ op := .t .sda .output, post := .ackEnd (.data 0x55#8 2) }], bit := true, code := .ok } })).map
      (fun t => (t.seq.todo.length, t.seq.code)) = some (64, .ok) := by decide

/-- 43_byte_transfer.md R166: the end of READ_BYTE as a command puts SHREG into RDATA. -/
theorem test_readByte_ends :
    (answered (step { listeningState (envAt true) with
      shreg := 0x26#8
      seq := { todo := [{ op := .t .sda .output, post := .resultByte }], bit := true, code := .ok } })).map
      (fun t => (t.rdata, t.lines.dirSda, t.busy)) = some (0x26#8, .output, false) := by decide

/-- 44_transaction.md R187: the end of a READ_BYTE inside READ_BLOCK stores RXBUF[i] and leaves RDATA alone. -/
theorem test_readBlock_stores :
    (answered (step { listeningState (envAt true) with
      shreg := 0x21#8
      seq := { todo := [{ op := .t .sda .output, post := .storeRx 1 }, plain .h], bit := true, code := .ok } })).map
      (fun t => (t.rxbuf, t.rdata)) = some ([(1, 0x21#8)], 0x00#8) := by decide

/-- VX5 to VX8: the micro-operations of STOP with and without STOP_PRELOAD. -/
theorem test_stop_procs :
    (stopProc true).map Micro.op = [.w .sda false, .f, .w .scl true, .f, .w .sda true] ∧
    (stopProc false).map Micro.op = [.f, .w .scl true, .f, .w .sda true] := by decide

/-- 70_reset_and_hazards.md R281: the lengths of the procedures. -/
theorem test_lengths :
    (sendByteProc 0xD0#8 .report).length = 64 ∧ (readByteProc .resultByte).length = 50 ∧ startProc.length = 4 :=
  ⟨rfl, rfl, rfl⟩

/-- VK1, VK3 (44_transaction.md R186, R187): 201 and 262 micro-operations. -/
theorem test_block_lengths :
    (writeBlockProc true 0x68#8 0x05#8 [0xA5#8]).length = 201 ∧
    (readBlockProc true 0x68#8 0x01#8 1).length = 262 := by decide +kernel

/-- 10_state.md R21: equal neighbours of the wire history are merged; VX1's history. -/
theorem test_recordPins :
    [(true, true), (true, false), (true, false), (false, false)].foldl (fun ws p => recordPins p ws) [(true, true)] =
      [(false, false), (true, false), (true, true)] := by decide

/-- VB8 (section 1 of 95_test_vectors.md): the monitor on (1,1) (1,0) (0,0) (1,0) (0,0) writes S0. -/
theorem test_monitor :
    monitor none (true, true) [(true, false), (false, false), (true, false), (false, false)] =
      [.start, .bit false] := by decide

/-- The fetch helper and the table decoder. -/
theorem test_fetch :
    step (State.reset.withFetchWord 32 0xA0000000) = exec .start State.reset ∧
    decodeTableWord 32 0xC6800070 = some (.writeBlock 0x68#8 0x00#8 7#8) := ⟨rfl, by decide⟩


/-! ## Witnesses: for each obligation with hypotheses, a state and operands that meet them -/

theorem boundedConfig_legal : boundedConfig.legal = true := by decide

theorem resetState_quiet (e : Env) : (resetState e).Quiet := ⟨rfl, rfl, rfl⟩

theorem openState_quiet (e : Env) : (openState e).Quiet := ⟨rfl, rfl, rfl⟩

theorem listeningState_quiet (e : Env) : (listeningState e).Quiet := ⟨rfl, rfl, rfl⟩

theorem writeBlock_legal (e : Env) (addr reg : Byte) (h : addr < 0x80#8) :
    Legal (.writeBlock addr reg 2#8) (resetState e) :=
  ⟨⟨by simpa [Instr.wf] using h, nofun⟩, ⟨rfl, rfl⟩, rfl, by show 1 ≤ 2; omega, by show 2 ≤ 2; omega⟩

theorem readBlock_legal (e : Env) (addr reg : Byte) (h : addr < 0x80#8) :
    Legal (.readBlock addr reg 1#8) (resetState e) :=
  ⟨⟨by simpa [Instr.wf] using h, nofun⟩, ⟨rfl, rfl⟩, rfl, by show 1 ≤ 1; omega, by show 1 ≤ 2; omega⟩

theorem witness_DecodeInvertsEncode : Instr.wf (.readBlock 0x7F#8 0xFF#8 255#8) = true := by decide

theorem witness_EncodeInvertsDecode : decode 0xD7FFFFF0#32 = .ok (.readBlock 0x7F#8 0xFF#8 255#8) := by decide

theorem witness_DecodeFollowsOpcodeMap :
    decode 0x60000001#32 = .ok (.sendBit 1#8) ∧
    0x800000FF#32 &&& (opcodeRow (.sendByte 0x00#8)).mask = (opcodeRow (.sendByte 0x00#8)).bits := by decide

theorem witness_AddressByteLayout : 0x7F#8 < (0x80#8 : Byte) := by decide

theorem witness_ResetEventAbandonsCommand :
    State.inputs { runningState (plain .f) with inputs := [.reset, .await] } = .reset :: [.await] := rfl

theorem witness_ResetMeetsInvariant : Config.default.legal = true ∧ boundedConfig.legal = true := by decide

/-- A state in the middle of a wait. -/
def waitingState : State where
  __ := runningState (plain .f)
  timer := 1

theorem witness_StepKeepsInvariant : waitingState.Inv ∧ ∃ t, step waitingState = .next t :=
  ⟨⟨rfl, rfl, rfl, rfl, .inr ⟨_, _, rfl, .inr ⟨rfl, by decide⟩⟩, nofun, rfl, rfl⟩, _, rfl⟩

theorem witness_InvariantStateAlwaysSteps : waitingState.Inv := witness_StepKeepsInvariant.1

theorem witness_ParametersNeverChange : ∃ t, step waitingState = .next t := ⟨_, rfl⟩

theorem witness_StepIssuesDecodedCommand :
    State.inputs { resetState (envAt true) with inputs := [.write 0x000 0xA0000000#32, .await] } =
      .write 0x000 0xA0000000#32 :: [.await] ∧
    decode 0xA0000000#32 = .ok .start := ⟨rfl, by decide⟩

theorem witness_FetchWordIsIssuedNext : Instr.wf (.sendBit 1#8) = true := by decide

/-- One state for each constructor in which it is legal. -/
theorem witness_LegalCommandIsAccepted :
    (resetState (envAt true)).busy = false ∧ (openState (envAt true)).busy = false ∧
    (listeningState (envAt true)).busy = false ∧
    Legal (.setLine .sda false) (resetState (envAt true)) ∧ Legal (.setDir .scl .input) (resetState (envAt true)) ∧
    Legal (.readLine .sda) (listeningState (envAt true)) ∧ Legal .waitHalf (resetState (envAt true)) ∧
    Legal .waitFull (listeningState (envAt true)) ∧ Legal (.sendBit 1#8) (openState (envAt true)) ∧
    Legal .readBit (listeningState (envAt true)) ∧ Legal (.sendByte 0xD0#8) (openState (envAt true)) ∧
    Legal .readByte (listeningState (envAt true)) ∧ Legal .start (resetState (envAt true)) ∧
    Legal .stop (openState (envAt true)) ∧ Legal (.writeBlock 0x7F#8 0xFF#8 2#8) (resetState (envAt true)) ∧
    Legal (.readBlock 0x00#8 0x00#8 1#8) (resetState (envAt true)) :=
  ⟨rfl, rfl, rfl,
    ⟨⟨by decide, fun _ => rfl⟩, rfl, trivial, trivial⟩, ⟨⟨by decide, fun _ => rfl⟩, trivial, trivial, trivial⟩,
    ⟨⟨by decide, fun _ => rfl⟩, rfl, trivial, trivial⟩, ⟨⟨by decide, fun _ => rfl⟩, trivial, trivial, trivial⟩,
    ⟨⟨by decide, fun _ => rfl⟩, trivial, trivial, trivial⟩,
    ⟨⟨by decide, fun _ => rfl⟩, ⟨rfl, rfl⟩, nofun, trivial⟩,
    ⟨⟨by decide, fun _ => rfl⟩, ⟨rfl, rfl⟩, nofun, trivial⟩,
    ⟨⟨by decide, fun _ => rfl⟩, ⟨rfl, rfl⟩, nofun, trivial⟩,
    ⟨⟨by decide, fun _ => rfl⟩, rfl, nofun, trivial⟩,
    ⟨⟨by decide, fun _ => rfl⟩, ⟨rfl, rfl⟩, trivial, trivial⟩,
    ⟨⟨by decide, fun _ => rfl⟩, ⟨rfl, rfl⟩, nofun, trivial⟩,
    writeBlock_legal _ _ _ (by decide), readBlock_legal _ _ _ (by decide)⟩

/-- One state for each check of 60_exceptions.md R223 that fails: the row, the direction, TSTATE, the count at both ends. -/
theorem witness_IllegalCommandIsRefused :
    (resetState (envAt true)).busy = false ∧ (openState (envAt true)).busy = false ∧
    ¬ Legal (.writeBlock 0x80#8 0x00#8 1#8) (resetState (envAt true)) ∧
    ¬ Legal (.readLine .sda) (resetState (envAt true)) ∧ ¬ Legal .stop (resetState (envAt true)) ∧
    ¬ Legal (.readBlock 0x68#8 0x00#8 1#8) (openState (envAt true)) ∧
    ¬ Legal (.writeBlock 0x68#8 0x00#8 0#8) (resetState (envAt true)) ∧
    ¬ Legal (.writeBlock 0x68#8 0x00#8 3#8) (resetState (envAt true)) :=
  ⟨rfl, rfl, fun h => absurd h.1.1 (by decide), (fun h => (nofun : ¬ Dir.output = Dir.input) h.2.1), fun h => h.2.2.1 rfl,
    (fun h => (nofun : ¬ TState.dataPhase = TState.idle) h.2.2.1), fun h => absurd h.2.2.2.1 (by decide), fun h => absurd h.2.2.2.2 (by decide)⟩

theorem witness_UndecodableWordIsRefused :
    State.inputs { resetState (envAt true) with inputs := [.write 0x000 0xE0000000#32] } =
      .write 0x000 0xE0000000#32 :: [] ∧
    (resetState (envAt true)).busy = false ∧ decode 0xE0000000#32 = .error .reservedOpcode ∧
    decode 0x60000002#32 = .error .mustBeZero := ⟨rfl, rfl, by decide, by decide⟩

theorem witness_ReservedOpcodesAreRefused :
    State.inputs { resetState (envAt true) with inputs := [.write 0x000 0xFFFFFFFF#32] } =
      .write 0x000 0xFFFFFFFF#32 :: [] ∧
    (resetState (envAt true)).busy = false ∧ (0xFFFFFFFF#32 : Word).extractLsb' 28 4 = 0xF#4 ∧
    (0x00000000#32 : Word).extractLsb' 28 4 = 0x0#4 ∧ (0xE0000000#32 : Word).extractLsb' 28 4 = 0xE#4 :=
  ⟨rfl, rfl, by decide, by decide, by decide⟩

/-- Each clause: START is accepted, STOP with no transaction open and a word of no row are not. -/
theorem witness_CommandWriteIsAcceptedOrRefused :
    State.inputs { resetState (envAt true) with inputs := [.write 0x000 0xA0000000#32] } =
      .write 0x000 0xA0000000#32 :: [] ∧
    (resetState (envAt true)).busy = false ∧
    (∃ i, decode 0xA0000000#32 = .ok i ∧ Legal i (resetState (envAt true))) ∧
    (∀ i, decode 0xB0000000#32 = .ok i → ¬ Legal i (resetState (envAt true))) ∧
    ∀ i, decode 0xCE800070#32 = .ok i → ¬ Legal i (resetState (envAt true)) := by
  refine ⟨rfl, rfl, ⟨.start, by decide, ⟨⟨by decide, fun _ => rfl⟩, ⟨rfl, rfl⟩, trivial, trivial⟩⟩, ?_, ?_⟩
  · intro i h
    have e : decode 0xB0000000#32 = .ok .stop := by decide
    rw [e] at h
    cases h
    exact fun h => h.2.2.1 rfl
  · intro i h
    have e : decode 0xCE800070#32 = .error .mustBeZero := by decide
    rw [e] at h
    cases h

/-- Both clauses: START, and a WRITE_BLOCK of the largest count and address. -/
theorem witness_HiddenPrimitivesAreRefused :
    ∃ s : State, s.busy = false ∧ s.cfg.primExposed = false ∧
      (∀ addr reg count, Instr.start ≠ .writeBlock addr reg count ∧ Instr.start ≠ .readBlock addr reg count) ∧
      (0x7F#8 : Byte) < 0x80#8 ∧ s.tstate = .idle ∧ s.lines.dirScl = .output ∧ s.lines.dirSda = .output ∧
      1 ≤ (2#8 : Byte).toNat ∧ (2#8 : Byte).toNat ≤ s.cfg.maxCount :=
  ⟨{ resetState (envAt true) with cfg := { boundedConfig with primExposed := false } }, rfl, rfl,
    fun _ _ _ => ⟨nofun, nofun⟩, by decide, rfl, rfl, rfl, by decide, by decide⟩

theorem witness_WritesWhileBusyAreDropped :
    State.inputs { waitingState with inputs := [.write 0x101 0x55#32] } = .write 0x101 0x55#32 :: [] ∧
    State.busy { waitingState with inputs := [.write 0x101 0x55#32] } = true := ⟨rfl, rfl⟩

/-- The first and the last index MAX_COUNT = 2 allows. -/
theorem witness_TxbufWriteStoresOneByte :
    State.inputs { resetState (envAt true) with inputs := [.write (0x100 + 0) 0x7E#32] } =
      .write (0x100 + 0) 0x7E#32 :: [] ∧
    State.inputs { resetState (envAt true) with inputs := [.write (0x100 + 1) 0x7E#32] } =
      .write (0x100 + 1) 0x7E#32 :: [] ∧
    (resetState (envAt true)).busy = false ∧ 0 < (resetState (envAt true)).cfg.maxCount ∧
    1 < (resetState (envAt true)).cfg.maxCount := ⟨rfl, rfl, rfl, by decide, by decide⟩

/-- The numbers at the ends of each range: the read-only registers, below and above TXBUF, RXBUF. -/
theorem witness_UnmappedWriteHasNoEffect :
    ∀ num ∈ [0x001, 0x002, 0x003, 0x0FF, 0x102, 0x200, 0x201],
      State.inputs { resetState (envAt true) with inputs := [.write num 0x55#32] } = .write num 0x55#32 :: [] ∧
      num ≠ 0x000 ∧ ¬ (0x100 ≤ num ∧ num < 0x100 + (resetState (envAt true)).cfg.maxCount) :=
  fun num h => ⟨rfl, by revert num; decide⟩

/-- Each clause: STATUS, RDATA, LINES, the last RXBUF entry. -/
theorem witness_HostReadsHaveNoSideEffect :
    State.inputs { resetState (envAt true) with inputs := [.read 0x001] } = .read 0x001 :: [] ∧
    State.inputs { resetState (envAt true) with inputs := [.read 0x002] } = .read 0x002 :: [] ∧
    State.inputs { resetState (envAt true) with inputs := [.read 0x003] } = .read 0x003 :: [] ∧
    State.inputs { resetState (envAt true) with inputs := [.read (0x200 + 1)], rxbuf := [(1, 0x22#8)] } =
      .read (0x200 + 1) :: [] ∧
    (resetState (envAt true)).busy = false ∧ 1 < (resetState (envAt true)).cfg.maxCount ∧
    Memory.read [(1, 0x22#8)] 1 = some 0x22#8 := ⟨rfl, rfl, rfl, rfl, rfl, by decide, rfl⟩

theorem witness_IdleBlockDoesNothing : State.reset.Quiet := ⟨rfl, rfl, rfl⟩

/-- Both clauses, on the data line. -/
theorem witness_SetLineWritesItsLatch :
    (openState (envAt true)).Quiet ∧ (openState (envAt true)).cfg.primExposed = true ∧
    (openState (envAt true)).lines.dir .sda = .output ∧ (listeningState (envAt true)).Quiet ∧
    (listeningState (envAt true)).cfg.primExposed = true ∧ (listeningState (envAt true)).lines.dir .sda = .input :=
  ⟨openState_quiet _, rfl, rfl, listeningState_quiet _, rfl, rfl⟩

theorem witness_SetDirWritesItsDirection :
    (openState (envAt true)).Quiet ∧ (openState (envAt true)).cfg.primExposed = true := ⟨openState_quiet _, rfl⟩

/-- Both clauses, on the data line. -/
theorem witness_ReadLineSamplesTheLine :
    (listeningState (envAt true)).Quiet ∧ (listeningState (envAt true)).cfg.primExposed = true ∧
    (listeningState (envAt true)).lines.dir .sda = .input ∧ (openState (envAt true)).Quiet ∧
    (openState (envAt true)).cfg.primExposed = true ∧ (openState (envAt true)).lines.dir .sda = .output :=
  ⟨listeningState_quiet _, rfl, rfl, openState_quiet _, rfl, rfl⟩

theorem witness_WaitsOnlyPassTime :
    (listeningState (envAt true)).Quiet ∧ (listeningState (envAt true)).cfg.legal = true ∧
    (listeningState (envAt true)).cfg.primExposed = true ∧ 0 < (listeningState (envAt true)).cfg.halfTicks ∧
    1 < 2 * (listeningState (envAt true)).cfg.halfTicks :=
  ⟨listeningState_quiet _, by decide, rfl, by decide, by decide⟩

theorem witness_TicksRefineMicroOperations :
    (runningState (plain .f)).cfg.legal = true ∧ (runningState (plain .f)).inputs = [] ∧
    (runningState (plain .f)).timer = 0 ∧ (runningState (plain .f)).seq.todo = plain .f :: [plain .h] :=
  ⟨by decide, rfl, rfl, rfl⟩

theorem witness_SendBitPulsesTheClock :
    (openState (envAt true)).Quiet ∧ (openState (envAt true)).cfg.legal = true ∧
    Legal (.sendBit 1#8) (openState (envAt true)) :=
  ⟨openState_quiet _, by decide, ⟨⟨by decide, fun _ => rfl⟩, ⟨rfl, rfl⟩, nofun, trivial⟩⟩

theorem witness_ReadBitSamplesBeforeTheFall :
    (listeningState (envAt false)).Quiet ∧ (listeningState (envAt false)).cfg.legal = true ∧
    Legal .readBit (listeningState (envAt false)) :=
  ⟨listeningState_quiet _, by decide, ⟨⟨by decide, fun _ => rfl⟩, ⟨rfl, rfl⟩, nofun, trivial⟩⟩

theorem witness_SendByteReportsItsAcknowledgement :
    (openState (envAt true)).Quiet ∧ (openState (envAt true)).cfg.legal = true ∧
    Legal (.sendByte 0xD0#8) (openState (envAt true)) :=
  ⟨openState_quiet _, by decide, ⟨⟨by decide, fun _ => rfl⟩, ⟨rfl, rfl⟩, nofun, trivial⟩⟩

theorem witness_ReadByteAssemblesEightSamples :
    (openState (envAt true)).Quiet ∧ (openState (envAt true)).cfg.legal = true ∧
    Legal .readByte (openState (envAt true)) :=
  ⟨openState_quiet _, by decide, ⟨⟨by decide, fun _ => rfl⟩, rfl, nofun, trivial⟩⟩

theorem openState_inv (e : Env) : (openState e).Inv :=
  ⟨boundedConfig_legal, rfl, rfl, rfl, .inl rfl, fun _ => rfl, rfl, rfl⟩

theorem resetState_inv (e : Env) : (resetState e).Inv :=
  ⟨boundedConfig_legal, rfl, rfl, rfl, .inl rfl, fun _ => rfl, rfl, rfl⟩

/-- Both clauses, the second with 0xFF. -/
theorem witness_SentByteIsReadBack :
    (openState (envAt true)).Inv ∧ (openState (envAt true)).Quiet ∧
    Legal (.sendByte 0xA5#8) (openState (envAt true)) ∧ (openState (envAt true)).lines.outScl = false ∧
    Legal .readByte (openState (envAt true)) ∧ readDraws (openState (envAt true)).env 0 = bitsMsbFirst 0xFF#8 :=
  ⟨openState_inv _, openState_quiet _,
    ⟨⟨by decide, fun _ => rfl⟩, ⟨rfl, rfl⟩, nofun, trivial⟩, rfl,
    ⟨⟨by decide, fun _ => rfl⟩, rfl, nofun, trivial⟩, rfl⟩

theorem start_legal (e : Env) : Legal .start (openState e) :=
  ⟨⟨by decide, fun _ => rfl⟩, ⟨rfl, rfl⟩, trivial, trivial⟩

theorem stop_legal (e : Env) : Legal .stop (openState e) :=
  ⟨⟨by decide, fun _ => rfl⟩, ⟨rfl, rfl⟩, nofun, trivial⟩

theorem witness_StartAssertsStartCondition :
    (openState (envAt true)).Quiet ∧ Legal .start (openState (envAt true)) := ⟨openState_quiet _, start_legal _⟩

theorem witness_StopReturnsToIdle :
    (openState (envAt true)).Quiet ∧ (openState (envAt true)).cfg.legal = true ∧
    Legal .stop (openState (envAt true)) := ⟨openState_quiet _, by decide, stop_legal _⟩

/-- The clock low, and the bus idle. -/
theorem witness_StartPutsOneStartCondition :
    (openState (envAt true)).Inv ∧ (openState (envAt true)).Quiet ∧ Legal .start (openState (envAt true)) ∧
    (openState (envAt true)).lines.outScl = false ∧ (resetState (envAt true)).Inv ∧
    (resetState (envAt true)).Quiet ∧ Legal .start (resetState (envAt true)) ∧
    (resetState (envAt true)).lines.outSda = true :=
  ⟨openState_inv _, openState_quiet _, start_legal _, rfl, resetState_inv _, resetState_quiet _,
    ⟨⟨by decide, fun _ => rfl⟩, ⟨rfl, rfl⟩, trivial, trivial⟩, rfl⟩

/-- With STOP_PRELOAD, and without it and data high. -/
theorem witness_StopPutsOneStopCondition :
    (openState (envAt true)).Inv ∧ (openState (envAt true)).Quiet ∧ Legal .stop (openState (envAt true)) ∧
    (openState (envAt true)).lines.outScl = false ∧
    ∃ s : State, s.Inv ∧ s.Quiet ∧ Legal .stop s ∧ s.lines.outScl = false ∧ s.cfg.stopPreload = false ∧
      s.lines.outSda = true :=
  ⟨openState_inv _, openState_quiet _, stop_legal _, rfl,
    { openState (envAt true) with
      cfg := { boundedConfig with stopPreload := false }
      lines := { outScl := false, outSda := true, dirScl := .output, dirSda := .output }
      wires := [(false, true)] },
    ⟨by decide, by decide, rfl, rfl, .inl rfl, fun _ => rfl, rfl, rfl⟩, ⟨rfl, rfl, rfl⟩,
    ⟨⟨by decide, fun _ => rfl⟩, ⟨rfl, rfl⟩, nofun, trivial⟩, rfl, rfl, rfl⟩

theorem witness_WriteBlockSendsItsBytes :
    (resetState (envAt false)).Quiet ∧ (resetState (envAt false)).cfg.legal = true ∧
    Legal (.writeBlock 0x68#8 0x00#8 2#8) (resetState (envAt false)) ∧
    ∀ j, j < (2#8 : Byte).toNat + 2 → ackDraw (resetState (envAt false)).env j = false :=
  ⟨resetState_quiet _, by decide, writeBlock_legal _ _ _ (by decide), fun _ _ => Env.draw_const _ _ _ rfl rfl⟩

theorem witness_ReadBlockStoresItsBytes :
    (resetState (envAt false)).Quiet ∧ (resetState (envAt false)).cfg.legal = true ∧
    Legal (.readBlock 0x68#8 0x00#8 1#8) (resetState (envAt false)) ∧
    ackDraw (resetState (envAt false)).env 0 = false ∧ ackDraw (resetState (envAt false)).env 1 = false ∧
    (resetState (envAt false)).env.draw .sda 197 = false :=
  ⟨resetState_quiet _, by decide, readBlock_legal _ _ _ (by decide), Env.draw_const _ _ _ rfl rfl,
    Env.draw_const _ _ _ rfl rfl, Env.draw_const _ _ _ rfl rfl⟩

/-- With one byte, and with MAX_COUNT of them. -/
theorem witness_ReadBlockAcknowledgesAllButTheLast :
    (resetState (envAt false)).Quiet ∧ (resetState (envAt false)).cfg.legal = true ∧
    Legal (.readBlock 0x68#8 0x00#8 1#8) (resetState (envAt false)) ∧
    Legal (.readBlock 0x68#8 0x00#8 2#8) (resetState (envAt false)) ∧
    ackDraw (resetState (envAt false)).env 0 = false ∧ ackDraw (resetState (envAt false)).env 1 = false ∧
    (resetState (envAt false)).env.draw .sda 197 = false :=
  ⟨resetState_quiet _, by decide, readBlock_legal _ _ _ (by decide),
    ⟨⟨by decide, nofun⟩, ⟨rfl, rfl⟩, rfl, by decide, by decide⟩, Env.draw_const _ _ _ rfl rfl,
    Env.draw_const _ _ _ rfl rfl, Env.draw_const _ _ _ rfl rfl⟩

theorem witness_AddressNackEndsTheBlock :
    (resetState (envAt true)).Quiet ∧ (resetState (envAt true)).cfg.legal = true ∧
    Legal (.writeBlock 0x68#8 0x00#8 2#8) (resetState (envAt true)) ∧
    Legal (.readBlock 0x68#8 0x00#8 1#8) (resetState (envAt true)) ∧
    ackDraw (resetState (envAt true)).env 0 = true :=
  ⟨resetState_quiet _, by decide, writeBlock_legal _ _ _ (by decide), readBlock_legal _ _ _ (by decide),
    Env.draw_const _ _ _ rfl rfl⟩

/-- The data line is low until the 196th micro-operation and high from the 197th on. -/
theorem witness_ReadAddressNackEndsTheRead :
    (resetState (envScript 196 false 0 true true)).Quiet ∧
    (resetState (envScript 196 false 0 true true)).cfg.legal = true ∧
    Legal (.readBlock 0x68#8 0x00#8 1#8) (resetState (envScript 196 false 0 true true)) ∧
    ackDraw (resetState (envScript 196 false 0 true true)).env 0 = false ∧
    ackDraw (resetState (envScript 196 false 0 true true)).env 1 = false ∧
    (resetState (envScript 196 false 0 true true)).env.draw .sda 197 = true :=
  ⟨resetState_quiet _, by decide, readBlock_legal _ _ _ (by decide), by decide +kernel, by decide +kernel,
    by decide +kernel⟩

/-- WRITE_BLOCK's and READ_BLOCK's register byte (p = 0), and WRITE_BLOCK's last byte (p = COUNT), with MAX_ATTEMPTS = 3. -/
theorem witness_DataNackAtTheBound :
    (resetState (envScript 68 false 0 true true)).Quiet ∧
    (resetState (envScript 68 false 0 true true)).cfg.legal = true ∧
    Legal (.writeBlock 0x68#8 0x00#8 2#8) (resetState (envScript 68 false 0 true true)) ∧
    Legal (.readBlock 0x68#8 0x00#8 1#8) (resetState (envScript 68 false 0 true true)) ∧
    (resetState (envScript 68 false 0 true true)).cfg.maxAttempts = some 3 ∧
    (∀ j, j ≤ 0 → ackDraw (resetState (envScript 68 false 0 true true)).env j = false) ∧
    (∀ j, 0 < j → j ≤ 0 + 3 → ackDraw (resetState (envScript 68 false 0 true true)).env j = true) ∧
    (∀ j, j ≤ 2 → ackDraw (resetState (envScript 200 false 0 true true)).env j = false) ∧
    (∀ j, 2 < j → j ≤ 2 + 3 → ackDraw (resetState (envScript 200 false 0 true true)).env j = true) := by
  refine ⟨resetState_quiet _, by decide, writeBlock_legal _ _ _ (by decide), readBlock_legal _ _ _ (by decide), rfl,
    ?_, ?_, ?_, ?_⟩
  all_goals
    intro j
    intros
    interval_cases j <;> decide +kernel

/-- The last byte (p = COUNT) is NACKed twice (k = 2, the most that MAX_ATTEMPTS = 3 allows) and then ACKed. -/
theorem witness_TransientNackIsInvisible :
    (resetState (envScript 200 false 128 true false)).Quiet ∧
    (resetState (envScript 200 false 128 true false)).cfg.legal = true ∧
    Legal (.writeBlock 0x68#8 0x00#8 2#8) (resetState (envScript 200 false 128 true false)) ∧
    (∀ m, (resetState (envScript 200 false 128 true false)).cfg.maxAttempts = some m → 2 < m) ∧
    (∀ j, j ≤ 2 → ackDraw (resetState (envScript 200 false 128 true false)).env j = false) ∧
    (∀ j, 2 < j → j ≤ 2 + 2 → ackDraw (resetState (envScript 200 false 128 true false)).env j = true) ∧
    (∀ j, 2 + 2 < j → j < (2#8 : Byte).toNat + 2 + 2 →
      ackDraw (resetState (envScript 200 false 128 true false)).env j = false) := by
  refine ⟨resetState_quiet _, by decide, writeBlock_legal _ _ _ (by decide), ?_, ?_, ?_, ?_⟩
  · intro m h
    cases h
    decide
  · intro j h
    interval_cases j <;> decide +kernel
  · intro j h1 h2
    interval_cases j <;> decide +kernel
  · intro j h1 h2
    have h3 : j < 6 := h2
    obtain rfl : j = 5 := by omega
    decide +kernel

/-- The register byte is NACKed twice (k = 2, the most that MAX_ATTEMPTS = 3 allows) and then ACKed. -/
theorem witness_ReadBlockRetriesItsRegisterByte :
    (resetState (envScript 68 false 128 true false)).Quiet ∧
    (resetState (envScript 68 false 128 true false)).cfg.legal = true ∧
    Legal (.readBlock 0x68#8 0x00#8 1#8) (resetState (envScript 68 false 128 true false)) ∧
    (∀ m, (resetState (envScript 68 false 128 true false)).cfg.maxAttempts = some m → 2 < m) ∧
    ackDraw (resetState (envScript 68 false 128 true false)).env 0 = false ∧
    (∀ j, 1 ≤ j → j ≤ 2 → ackDraw (resetState (envScript 68 false 128 true false)).env j = true) ∧
    ackDraw (resetState (envScript 68 false 128 true false)).env (2 + 1) = false ∧
    (resetState (envScript 68 false 128 true false)).env.draw .sda (197 + 64 * 2) = false := by
  refine ⟨resetState_quiet _, by decide, readBlock_legal _ _ _ (by decide), ?_, by decide +kernel, ?_,
    by decide +kernel, by decide +kernel⟩
  · intro m h
    cases h
    decide
  · intro j h1 h2
    interval_cases j <;> decide +kernel

/-- A state in which the byte after the `n`-th micro-operation is NACKed for ever and MAX_ATTEMPTS is INF. -/
def stallingState (n : Nat) : State where
  __ := resetState (envScript n false 0 true true)
  cfg := { boundedConfig with maxAttempts := none }

theorem stallingState_nacks (n j : Nat) (h : n + 1 ≤ 65 + 64 * j)
    (hs : (Env.after (n + 1) (stallingState n).env).script = [])
    (hd : (Env.after (n + 1) (stallingState n).env).now.sda = .level true) :
    ackDraw (stallingState n).env j = true := by
  have e : 65 + 64 * j = (n + 1) + (65 + 64 * j - (n + 1)) := by omega
  rw [ackDraw, e, ← Env.draw_after]
  exact Env.draw_const _ _ _ hs hd

/-- The last payload byte of a WRITE_BLOCK (p = COUNT = 2), and the register byte of a READ_BLOCK (p = 0). -/
theorem witness_UnboundedRetryNeverEnds :
    ((stallingState 200).Quiet ∧ (stallingState 200).cfg.legal = true ∧
      Legal (.writeBlock 0x68#8 0x00#8 2#8) (stallingState 200) ∧ 2 ≤ (2#8 : Byte).toNat ∧
      (stallingState 200).cfg.maxAttempts = none ∧ (∀ j, j ≤ 2 → ackDraw (stallingState 200).env j = false) ∧
      ∀ j, 2 < j → ackDraw (stallingState 200).env j = true) ∧
    ((stallingState 68).Quiet ∧ (stallingState 68).cfg.legal = true ∧
      Legal (.readBlock 0x68#8 0x00#8 1#8) (stallingState 68) ∧ (stallingState 68).cfg.maxAttempts = none ∧
      (∀ j, j ≤ 0 → ackDraw (stallingState 68).env j = false) ∧
      ∀ j, 0 < j → ackDraw (stallingState 68).env j = true) := by
  refine ⟨⟨⟨rfl, rfl, rfl⟩, by decide, writeBlock_legal (envAt true) _ _ (by decide), by decide, rfl, ?_, ?_⟩,
    ⟨⟨rfl, rfl, rfl⟩, by decide, readBlock_legal (envAt true) _ _ (by decide), rfl, ?_, ?_⟩⟩
  · intro j h
    interval_cases j <;> decide +kernel
  · intro j h
    exact stallingState_nacks 200 j (by omega) (by decide +kernel) (by decide +kernel)
  · intro j h
    obtain rfl : j = 0 := by omega
    decide +kernel
  · intro j h
    exact stallingState_nacks 68 j (by omega) (by decide +kernel) (by decide +kernel)

theorem witness_BoundedBlockAlwaysEnds :
    (resetState (envAt true)).Quiet ∧ (resetState (envAt true)).cfg.legal = true ∧
    Legal (.writeBlock 0x68#8 0x00#8 2#8) (resetState (envAt true)) ∧
    Legal (.readBlock 0x68#8 0x00#8 1#8) (resetState (envAt true)) ∧
    (resetState (envAt true)).cfg.maxAttempts = some 3 :=
  ⟨resetState_quiet _, by decide, writeBlock_legal _ _ _ (by decide), readBlock_legal _ _ _ (by decide), rfl⟩

/-- The block commands with nobody on the bus (VK7, VK8): the one evaluation of this file that takes more than a step. -/
theorem absent_peripheral_ends (i : Instr)
    (h : i = .writeBlock 0x68#8 0x00#8 2#8 ∨ i = .readBlock 0x68#8 0x00#8 1#8) :
    (answered (exec i (resetState (envAt true)))).bind (fun a => (answered (run 84 a)).map
      (fun t => (t.busy, t.err))) = some (false, .addrNack) := by
  obtain rfl | rfl := h
  · decide +kernel
  · decide +kernel

theorem absent_peripheral_run (i : Instr)
    (h : i = .writeBlock 0x68#8 0x00#8 2#8 ∨ i = .readBlock 0x68#8 0x00#8 1#8) :
    ∃ a t, exec i (resetState (envAt true)) = .next a ∧ run 84 a = .next t ∧ t.busy = false ∧ t.err ≠ .ok := by
  have e := absent_peripheral_ends i h
  cases h1 : exec i (resetState (envAt true)) with
  | next a =>
    cases h2 : run 84 a with
    | next t =>
      simp only [h1, h2, answered, Option.bind_some, Option.map_some, Option.some.injEq, Prod.mk.injEq] at e
      exact ⟨a, t, rfl, h2, e.1, by simp [e.2]⟩
    | fault r => simp [h1, h2, answered] at e
    | refused r => simp [h1, h2, answered] at e
  | fault r => simp [h1, answered] at e
  | refused r => simp [h1, answered] at e

theorem witness_ExactlyOneStopPerBlock :
    ∃ (a t : State), (resetState (envAt true)).Inv ∧ (resetState (envAt true)).Quiet ∧
      Legal (.writeBlock 0x68#8 0x00#8 2#8) (resetState (envAt true)) ∧
      (resetState (envAt true)).cfg.stopPreload = true ∧ (resetState (envAt true)).lines.outScl = true ∧
      (resetState (envAt true)).lines.outSda = true ∧
      exec (.writeBlock 0x68#8 0x00#8 2#8) (resetState (envAt true)) = .next a ∧
      (∀ (n : Nat) (u : State), run n a = .next u → u.busy = true → u.timer = 0 → u.lines.outScl = true →
        u.env.move.level .sda = u.env.level .sda) ∧
      run 84 a = .next t ∧ t.busy = false := by
  obtain ⟨a, t, h1, h2, h3, -⟩ := absent_peripheral_run _ (.inl rfl)
  have ha : a.inputs = [] ∧ a.env = envAt true := by
    obtain ⟨-, e⟩ | ⟨-, -, e⟩ | ⟨-, -, e⟩ := State.issue_cases (resetState (envAt true)) a
      (State.blockLegal 0x68#8 2#8 (resetState (envAt true))) _ h1 <;> rw [e] <;> exact ⟨rfl, rfl⟩
  refine ⟨a, t, resetState_inv _, resetState_quiet _, writeBlock_legal _ _ _ (by decide), rfl, rfl, rfl, h1, ?_, h2, h3⟩
  intro n u hu _ _ _
  obtain ⟨e1, e2⟩ := run_env_const n a u ha.1 (by rw [ha.2]; rfl) hu
  have e3 : u.env.now.sda = .level true := by
    rw [e2, ha.2]
    rfl
  simp [Env.level, Env.drive, Env.move, e1, e3]

theorem witness_FailedReadKeepsRxbuf :
    ∃ (a t : State), (resetState (envAt true)).Quiet ∧ (resetState (envAt true)).cfg.legal = true ∧
      exec (.readBlock 0x68#8 0x00#8 1#8) (resetState (envAt true)) = .next a ∧ run 84 a = .next t ∧
      t.busy = false ∧ t.err ≠ .ok := by
  obtain ⟨a, t, h⟩ := absent_peripheral_run _ (.inr rfl)
  exact ⟨a, t, resetState_quiet _, by decide, h⟩

theorem witness_AtMostOneLineBitPerStep :
    (∃ t, step (runningState (plain (.w .sda true))) = .next t) ∧
    (runningState (plain (.w .sda true))).inputs.head? ≠ some .reset := ⟨⟨_, rfl⟩, nofun⟩

/-- An output and an input, and a step that changes the pins: data turned to an input that the environment holds high. -/
theorem witness_WireHistoryFollowsThePins :
    (listeningState (envAt true)).lines.dir .scl = .output ∧ (listeningState (envAt true)).lines.dir .sda = .input ∧
    ∃ s t : State, s.Inv ∧ step s = .next t ∧ s.inputs.head? ≠ some .reset ∧
      t.wires = [(false, true), (false, false)] :=
  ⟨rfl, rfl, { runningState (plain (.t .sda .input)) with env := envAt true }, _,
    ⟨boundedConfig_legal, rfl, rfl, rfl, .inl rfl, nofun, rfl, rfl⟩, rfl, nofun, by decide⟩

theorem witness_ClockStaysAnUnsampledOutput :
    ∃ a t, (openState (envAt true)).Quiet ∧ (openState (envAt true)).cfg.legal = true ∧
      Legal .start (openState (envAt true)) ∧
      (∀ line level dir, Instr.start ≠ .setLine line level ∧ Instr.start ≠ .setDir line dir ∧
        Instr.start ≠ .readLine line) ∧
      Instr.start ≠ .waitHalf ∧ Instr.start ≠ .waitFull ∧ exec .start (openState (envAt true)) = .next a ∧
      run 1 a = .next t :=
  ⟨_, _, openState_quiet _, by decide, start_legal _, fun _ _ _ => ⟨nofun, nofun, nofun⟩, nofun, nofun, rfl, rfl⟩

/-- Each row of the table of 44_transaction.md R180. -/
theorem witness_TransactionStateTable :
    (∃ t, step { runningState (plain .h) with inputs := [.reset] } = .next t ∧ t.tstate = .idle) ∧
    (∃ t, step (runningState { op := .w .scl false, post := .startAsserted }) = .next t ∧
      t.tstate = .startAsserted) ∧
    (∃ t, step (runningState { op := .w .sda true, post := .toIdle }) = .next t ∧ t.tstate = .idle) ∧
    (∃ t, step { runningState { op := .w .sda true, post := .beginByte 0xD0#8 } with tstate := .startAsserted } =
      .next t ∧ t.tstate = .addressPhase) ∧
    (∃ t, step { runningState { op := .t .sda .output, post := .ackEnd .address } with tstate := .addressPhase } =
      .next t ∧ t.tstate = .dataPhase) :=
  ⟨⟨_, rfl, rfl⟩, ⟨_, rfl, rfl⟩, ⟨_, rfl, rfl⟩, ⟨_, rfl, rfl⟩, ⟨_, rfl, rfl⟩⟩

/-- Each clause: a step that changes ACKF, RDATA, RXBUF, TXBUF. -/
theorem witness_EachResultHasOneWriter :
    (∀ m, (runningState m).inputs.head? ≠ some .reset) ∧
    (∃ t, step { runningState { op := .t .sda .output, post := .ackEnd .report } with ackf := true } = .next t ∧
      t.ackf = false) ∧
    (∃ t, step { runningState { op := .t .sda .output, post := .resultByte } with shreg := 0x26#8 } = .next t ∧
      t.rdata = 0x26#8) ∧
    (∃ t, step (runningState { op := .t .sda .output, post := .storeRx 1 }) = .next t ∧ t.rxbuf = [(1, 0x00#8)]) ∧
    (∃ t, step { resetState (envAt true) with txbuf := [], inputs := [.write 0x101 0x7E#32] } = .next t ∧
      t.txbuf = [(1, 0x7E#8)]) :=
  ⟨fun _ => nofun, ⟨_, rfl, rfl⟩, ⟨_, rfl, rfl⟩, ⟨_, rfl, rfl⟩, ⟨_, rfl, rfl⟩⟩

theorem witness_PrimitivesLastTheirTicks :
    (openState (envAt true)).Quiet ∧ (openState (envAt true)).cfg.legal = true ∧
    Legal .stop (openState (envAt true)) ∧
    ∀ addr reg count, Instr.stop ≠ .writeBlock addr reg count ∧ Instr.stop ≠ .readBlock addr reg count :=
  ⟨openState_quiet _, by decide, stop_legal _, fun _ _ _ => ⟨nofun, nofun⟩⟩

end Sys2Proof.Tests
end

section
/-! SUPPORT. What a command is, said once for all thirteen: its legality, its micro-operations, and its word. -/

namespace Sys2Proof.Machine

/-! ## Issuing a command -/

/-- The legality with which each arm of `exec` issues its command. -/
def commandLegal : Instr → State → Bool
  | .setLine line _, s => s.cfg.primExposed && decide (s.lines.dir line = .output)
  | .setDir _ _, s => s.cfg.primExposed
  | .readLine line, s => s.cfg.primExposed && decide (s.lines.dir line = .input)
  | .waitHalf, s => s.cfg.primExposed
  | .waitFull, s => s.cfg.primExposed
  | .sendBit value, s =>
    s.cfg.primExposed && decide (value < 2#8) && s.lines.bothOut && decide (s.tstate ≠ .idle)
  | .readBit, s =>
    s.cfg.primExposed && decide (s.lines.dirScl = .output) && decide (s.lines.dirSda = .input) &&
      decide (s.tstate ≠ .idle)
  | .sendByte _, s => s.cfg.primExposed && s.lines.bothOut && decide (s.tstate ≠ .idle)
  | .readByte, s => s.cfg.primExposed && decide (s.lines.dirScl = .output) && decide (s.tstate ≠ .idle)
  | .start, s => s.cfg.primExposed && s.lines.bothOut
  | .stop, s => s.cfg.primExposed && s.lines.bothOut && decide (s.tstate ≠ .idle)
  | .writeBlock addr _ count, s => s.blockLegal addr count
  | .readBlock addr _ count, s => s.blockLegal addr count

/-- The micro-operations with which each arm of `exec` issues its command. -/
def commandProc : Instr → State → List Micro
  | .setLine line level, _ => setLineProc line level
  | .setDir line dir, _ => setDirProc line dir
  | .readLine line, _ => readLineProc line
  | .waitHalf, _ => waitHalfProc
  | .waitFull, _ => waitFullProc
  | .sendBit value, _ => sendBitProc .none (bitOperand value)
  | .readBit, _ => readBitProc .resultBit
  | .sendByte value, _ => sendByteProc value .report
  | .readByte, _ => readByteProc .resultByte
  | .start, _ => startProc
  | .stop, s => stopProc s.cfg.stopPreload
  | .writeBlock addr reg count, s =>
    writeBlockProc s.cfg.stopPreload addr reg (s.txBytes 0 (countOperand count))
  | .readBlock addr reg count, s => readBlockProc s.cfg.stopPreload addr reg (countOperand count)

theorem exec_eq_issue (i : Instr) (s : State) : exec i s = s.issue (commandLegal i s) (commandProc i s) := by
  cases i <;> rfl

theorem State.blockLegal_iff (addr count : Byte) (s : State) :
    s.blockLegal addr count = true ↔
      addr < 0x80#8 ∧ (s.lines.dirScl = .output ∧ s.lines.dirSda = .output) ∧ s.tstate = .idle ∧
        1 ≤ count.toNat ∧ count.toNat ≤ s.cfg.maxCount := by
  simp only [State.blockLegal, Bool.and_eq_true, decide_eq_true_eq, Lines.bothOut_iff]
  unfold countOperand
  tauto

/-- The legality each command is issued with is that no check of 60_exceptions.md R223 fails. -/
theorem commandLegal_iff (i : Instr) (s : State) : commandLegal i s = true ↔ Legal i s := by
  cases i <;>
    simp [commandLegal, Legal, rowCheck, directionCheck, transactionCheck, countCheck, Instr.wf, isPrimitive,
      State.blockLegal_iff, and_assoc, and_left_comm]

theorem stopProc_ne_nil (preload : Bool) : stopProc preload ≠ [] := by
  cases preload <;> simp [stopProc, stopTail]

theorem commandProc_ne_nil (i : Instr) (s : State) : commandProc i s ≠ [] := by
  cases i with
  | stop => exact stopProc_ne_nil _
  | _ => exact List.cons_ne_nil _ _

theorem exec_busy (i : Instr) (s : State) (hb : s.busy = true) : exec i s = .next s := by
  rw [exec_eq_issue, State.issue_busy s _ _ hb]

theorem exec_legal (i : Instr) (s : State) (hb : s.busy = false) (hl : Legal i s) :
    exec i s = .next (s.accept (commandProc i s)) := by
  rw [exec_eq_issue, (commandLegal_iff i s).2 hl, State.issue_legal s _ hb]

theorem exec_illegal (i : Instr) (s : State) (hb : s.busy = false) (hl : ¬ Legal i s) :
    exec i s = .next s.refuse := by
  rw [exec_eq_issue, Bool.eq_false_iff.2 (mt (commandLegal_iff i s).1 hl), State.issue_illegal s _ hb]

/-! ## The host port -/

theorem State.issueWord_ok (s : State) (w : Word) (i : Instr) (h : decode w = .ok i) :
    s.issueWord w = exec i s := by
  simp [State.issueWord, h]

theorem State.issueWord_error (s : State) (w : Word) (r : Reject) (h : decode w = .error r) :
    s.issueWord w = s.rejectWord := by
  simp [State.issueWord, h]

@[simp] theorem State.writePort_command (s : State) (w : Word) : s.writePort 0x000 w = s.issueWord w := rfl

theorem State.issueWord_busy (s : State) (w : Word) (hb : s.busy = true) : s.issueWord w = .next s := by
  cases h : decode w with
  | ok i => rw [State.issueWord_ok s w i h, exec_busy i s hb]
  | error r => rw [State.issueWord_error s w r h, State.rejectWord, State.issue_busy s _ _ hb]

theorem State.storeTx_busy (s : State) (i : Nat) (v : Byte) (hb : s.busy = true) : s.storeTx i v = s := by
  simp [State.storeTx, hb]

theorem State.storeTx_idle (s : State) (i : Nat) (v : Byte) (hb : s.busy = false) :
    s.storeTx i v = { s with txbuf := s.txbuf.write i v } := by
  simp [State.storeTx, hb]

/-- 10_state.md R32: whatever the host writes, and where, is dropped while BUSY = 1. -/
theorem State.writePort_busy (s : State) (num : Nat) (val : Word) (hb : s.busy = true) :
    s.writePort num val = .next s := by
  unfold State.writePort
  split
  · exact s.issueWord_busy val hb
  · split
    · rw [s.storeTx_busy _ _ hb]
    · rfl

theorem State.readPort_status (s : State) : s.readPort 0x001 = s.status := rfl

theorem State.readPort_rdata (s : State) (hb : s.busy = false) : s.readPort 0x002 = s.rdata := by
  simp [State.readPort, hb]

theorem State.readPort_lines (s : State) : s.readPort 0x003 = (s.linesView).setWidth 8 := rfl

theorem State.readPort_rxbuf (s : State) (i : Nat) (hi : i < s.cfg.maxCount) (hb : s.busy = false) :
    s.readPort (0x200 + i) = s.rxByte i := by
  have h1 : 0x200 + i ≠ 0x001 := by omega
  have h2 : 0x200 + i ≠ 0x002 := by omega
  have h3 : 0x200 + i ≠ 0x003 := by omega
  simp [State.readPort, h1, h2, h3, hi, hb]

theorem State.rxByte_written (s : State) (i : Nat) (b : Byte) (h : s.rxbuf.read i = some b) : s.rxByte i = b := by
  simp [State.rxByte, h]

end Sys2Proof.Machine

/-! ## The word of a command decodes to it (30_encoding.md R91 to R94) -/

namespace Sys2Proof

/-- A seven-bit address in bits 26:20 is read back there, and as 0 in every other field of format T. -/
theorem extract_placeField_addr (addr : Byte) (h : addr < 0x80#8) :
    (placeField addr 20).extractLsb' 28 4 = 0#4 ∧ (placeField addr 20).extractLsb' 27 1 = 0#1 ∧
    ((placeField addr 20).extractLsb' 20 7).setWidth 8 = addr ∧ (placeField addr 20).extractLsb' 12 8 = 0#8 ∧
    (placeField addr 20).extractLsb' 4 8 = 0#8 ∧ (placeField addr 20).extractLsb' 0 4 = 0#4 := by
  revert addr
  decide

theorem extract_placeField_reg (reg : Byte) :
    (placeField reg 12).extractLsb' 28 4 = 0#4 ∧ (placeField reg 12).extractLsb' 27 1 = 0#1 ∧
    (placeField reg 12).extractLsb' 20 7 = 0#7 ∧ (placeField reg 12).extractLsb' 12 8 = reg ∧
    (placeField reg 12).extractLsb' 4 8 = 0#8 ∧ (placeField reg 12).extractLsb' 0 4 = 0#4 := by
  revert reg
  decide

theorem extract_placeField_count (count : Byte) :
    (placeField count 4).extractLsb' 28 4 = 0#4 ∧ (placeField count 4).extractLsb' 27 1 = 0#1 ∧
    (placeField count 4).extractLsb' 20 7 = 0#7 ∧ (placeField count 4).extractLsb' 12 8 = 0#8 ∧
    (placeField count 4).extractLsb' 4 8 = count ∧ (placeField count 4).extractLsb' 0 4 = 0#4 := by
  revert count
  decide

theorem extract_placeField_opcode (op : BitVec 4) :
    (placeField op 28).extractLsb' 28 4 = op ∧ (placeField op 28).extractLsb' 27 1 = 0#1 ∧
    (placeField op 28).extractLsb' 20 7 = 0#7 ∧ (placeField op 28).extractLsb' 12 8 = 0#8 ∧
    (placeField op 28).extractLsb' 4 8 = 0#8 ∧ (placeField op 28).extractLsb' 0 4 = 0#4 := by
  revert op
  decide

/-- The word of format T with the opcode `op` and its three operands (30_encoding.md R94). -/
def wordT (op : BitVec 4) (addr reg count : Byte) : Word :=
  placeField op 28 ||| placeField addr 20 ||| placeField reg 12 ||| placeField count 4

theorem wordT_opcode (op : BitVec 4) (addr reg count : Byte) (h : addr < 0x80#8) :
    (wordT op addr reg count).extractLsb' 28 4 = op := by
  simp [wordT, BitVec.extractLsb'_or, extract_placeField_addr addr h, extract_placeField_reg,
    extract_placeField_count, extract_placeField_opcode]

theorem decodeT_wordT (op : BitVec 4) (addr reg count : Byte) (h : addr < 0x80#8)
    (make : Byte → Byte → Byte → Instr) : decodeT (wordT op addr reg count) make = .ok (make addr reg count) := by
  simp [decodeT, wordT, BitVec.extractLsb'_or, extract_placeField_addr addr h, extract_placeField_reg,
    extract_placeField_count, extract_placeField_opcode]

/-- Decoding the word of a well-formed command gives the command back. -/
theorem decode_encode (i : Instr) (h : i.wf = true) : decode (encode i) = .ok i := by
  cases i with
  | setLine line level => cases line <;> cases level <;> decide
  | setDir line dir => cases line <;> cases dir <;> decide
  | readLine line => cases line <;> decide
  | sendBit value =>
    revert value
    decide
  | sendByte value =>
    clear h
    revert value
    decide
  | writeBlock addr reg count =>
    have ha : addr < 0x80#8 := by simpa [Instr.wf] using h
    change decode (wordT 0xC#4 addr reg count) = _
    simp [decode, wordT_opcode _ addr reg count ha, decodeT_wordT _ addr reg count ha]
  | readBlock addr reg count =>
    have ha : addr < 0x80#8 := by simpa [Instr.wf] using h
    change decode (wordT 0xD#4 addr reg count) = _
    simp [decode, wordT_opcode _ addr reg count ha, decodeT_wordT _ addr reg count ha]
  | _ => decide

end Sys2Proof
end

section
/-! SUPPORT. Everything one step can do, case by case. -/

namespace Sys2Proof.Machine

/-! ## One controller's step -/

/-- Everything the controller's step can do, in the five ways that matter to the registers and the pins: it idles, a
wait begins or goes on, a wait of several ticks ends, or a whole micro-operation is performed at once. -/
inductive TickCase (s : State) : State → Prop
  | idle (h : s.seq.todo = []) : TickCase s s
  | waitBegun (m : Micro) (rest : List Micro) (n : Nat) (h : s.seq.todo = m :: rest) (hw : m.op = .h ∨ m.op = .f)
    (hn : n < microTicks s.cfg m.op) : TickCase s { s.settle with timer := n }
  | waiting (n : Nat) (hn : n < s.timer) : TickCase s { s with timer := n }
  | waitEnded (m : Micro) (rest : List Micro) (h : s.seq.todo = m :: rest) (hw : m.op = .h ∨ m.op = .f) :
    TickCase s (State.retire (m.token s.env) m.post rest { s with timer := 0 })
  | performed (m : Micro) (rest : List Micro) (bit : Level) (h : s.seq.todo = m :: rest)
    (ht : m.op = .h ∨ m.op = .f → s.timer = 0) : TickCase s (State.retire (m.token s.env) m.post rest
      { s.settle with lines := m.linesAfter s.lines, seq := { s.seq with bit := bit } })

theorem TickCase.of_waitTick (s : State) (m : Micro) (rest : List Micro) (h : s.seq.todo = m :: rest)
    (hw : m.op = .h ∨ m.op = .f) :
    TickCase s (s.waitTick (microTicks s.cfg m.op) (m.token s.env) m.post rest) := by
  obtain ⟨ht, -, e⟩ | ⟨-, hn, e⟩ | ⟨-, e⟩ | ⟨n, ht, e⟩ :=
    State.waitTick_cases (microTicks s.cfg m.op) (m.token s.env) m.post rest s <;> rw [e]
  · have hl : m.linesAfter s.lines = s.lines := by obtain h | h := hw <;> simp [Micro.linesAfter, h]
    have p := TickCase.performed m rest s.seq.bit h (fun _ => ht)
    rw [hl] at p
    exact p
  · exact .waitBegun m rest _ h hw (by omega)
  · exact .waitEnded m rest h hw
  · exact .waiting _ (by omega)

theorem State.tick_case (s t : State) (h : s.tick = .next t) : TickCase s t := by
  obtain ⟨h0, rfl⟩ | ⟨p, rest, ⟨l, v, hm, -, rfl⟩ | ⟨l, d, hm, rfl⟩ | ⟨l, hm, -, rfl⟩ | ⟨hm, rfl⟩ | ⟨hm, rfl⟩⟩ :=
    State.tick_cases s t h
  · exact .idle h0
  · exact .performed _ rest s.seq.bit hm (by simp)
  · exact .performed _ rest s.seq.bit hm (by simp)
  · exact .performed _ rest (s.env.draw l 1) hm (by simp)
  · exact .of_waitTick s _ rest hm (.inl rfl)
  · exact .of_waitTick s _ rest hm (.inr rfl)

/-! ## One step of the machine -/

/-- Everything a step can do: the controller moves; the outside's action is taken without effect; a command is
accepted or a word refused; TXBUF is written; the host reads; the environment changes its drive; reset. -/
inductive StepCase (s : State) : State → Prop
  | tick {t : State} (rest : List Input) (h : State.tick { s with inputs := rest } = .next t) : StepCase s t
  | taken (rest : List Input) : StepCase s { s with inputs := rest }
  | accepted (w : Word) (rest : List Input) (i : Instr) (hin : s.inputs = .write 0x000 w :: rest)
    (hb : s.busy = false) (hd : decode w = .ok i) (hl : Legal i { s with inputs := rest }) :
    StepCase s (State.accept (commandProc i { s with inputs := rest }) { s with inputs := rest })
  | refused (w : Word) (rest : List Input) (hin : s.inputs = .write 0x000 w :: rest) (hb : s.busy = false) :
    StepCase s (State.refuse { s with inputs := rest })
  | stored (num : Nat) (val : Word) (rest : List Input) (hin : s.inputs = .write num val :: rest)
    (hb : s.busy = false) :
    StepCase s { s with inputs := rest, txbuf := s.txbuf.write (num - 0x100) (val.setWidth 8) }
  | read (num : Nat) (rest : List Input) : StepCase s (State.hostRead num { s with inputs := rest })
  | driven (d : EnvDrive) (rest : List Input) : StepCase s (State.changeDrive d { s with inputs := rest })
  | reset (rest : List Input) (hin : s.inputs = .reset :: rest) :
    StepCase s (State.resetEvent { s with inputs := rest })

theorem StepCase.of_issueWord (s t : State) (w : Word) (rest : List Input)
    (hin : s.inputs = .write 0x000 w :: rest) (h : State.issueWord w { s with inputs := rest } = .next t) :
    StepCase s t := by
  cases hb : s.busy with
  | true =>
    rw [State.issueWord_busy { s with inputs := rest } w hb] at h
    cases h
    exact .taken rest
  | false =>
    cases hd : decode w with
    | error r =>
      rw [State.issueWord_error _ w r hd, State.rejectWord, State.issue_illegal { s with inputs := rest } _ hb] at h
      cases h
      exact .refused w rest hin hb
    | ok i =>
      rw [State.issueWord_ok _ w i hd] at h
      by_cases hl : Legal i { s with inputs := rest }
      · rw [exec_legal i { s with inputs := rest } hb hl] at h
        cases h
        exact .accepted w rest i hin hb hd hl
      · rw [exec_illegal i { s with inputs := rest } hb hl] at h
        cases h
        exact .refused w rest hin hb

theorem StepCase.of_writePort (s t : State) (num : Nat) (val : Word) (rest : List Input)
    (hin : s.inputs = .write num val :: rest) (h : State.writePort num val { s with inputs := rest } = .next t) :
    StepCase s t := by
  unfold State.writePort at h
  split at h
  · rename_i h0
    subst h0
    exact .of_issueWord s t val rest hin h
  · split at h
    · cases h
      cases hb : s.busy with
      | true =>
        rw [State.storeTx_busy { s with inputs := rest } _ _ hb]
        exact .taken rest
      | false =>
        rw [State.storeTx_idle { s with inputs := rest } _ _ hb]
        exact .stored num val rest hin hb
    · cases h
      exact .taken rest

theorem step_case (s t : State) (h : step s = .next t) : StepCase s t := by
  cases hin : s.inputs with
  | nil =>
    rw [step_quiet s hin] at h
    exact .tick s.inputs h
  | cons x rest =>
    rw [step_take s x rest hin] at h
    cases x with
    | write num val => exact .of_writePort s t num val rest hin h
    | read num =>
      cases h
      exact .read num rest
    | await =>
      simp only [State.take] at h
      split at h
      · exact .tick _ h
      · cases h
        exact .taken rest
    | pass => exact .tick rest h
    | drive d =>
      cases h
      exact .driven d rest
    | reset =>
      cases h
      exact .reset rest hin

/-! ## What the end of a micro-operation does to SEQ and the results -/

theorem State.nackedData_seq (v : Byte) (att : Nat) (s : State) : ∃ q, s.nackedData v att = { s with seq := q } := by
  unfold State.nackedData
  split
  · exact ⟨_, rfl⟩
  · split <;> exact ⟨_, rfl⟩

/-- What an acknowledgement decides stands in SEQ alone. -/
theorem State.ackDecision_seq (policy : AckPolicy) (s : State) : ∃ q, s.ackDecision policy = { s with seq := q } := by
  unfold State.ackDecision
  split
  · exact ⟨s.seq, rfl⟩
  · exact ⟨s.seq, rfl⟩
  · exact ⟨_, rfl⟩
  · exact ⟨s.seq, rfl⟩
  · exact s.nackedData_seq _ _

/-- What an acknowledgement leaves to do: what was left before, a byte again before that, or a STOP alone. -/
theorem State.ackDecision_todo (policy : AckPolicy) (s : State) :
    (s.ackDecision policy).seq.todo = s.seq.todo ∨
    (∃ v att, (s.ackDecision policy).seq.todo = sendByteProc v (.data v att) ++ s.seq.todo) ∨
    (s.ackDecision policy).seq.todo = stopProc s.cfg.stopPreload := by
  unfold State.ackDecision
  split
  · exact .inl rfl
  · exact .inl rfl
  · exact .inr (.inr rfl)
  · exact .inl rfl
  · unfold State.nackedData
    split
    · exact .inr (.inl ⟨_, _, rfl⟩)
    · split
      · exact .inr (.inr rfl)
      · exact .inr (.inl ⟨_, _, rfl⟩)

theorem State.finish_todo (s : State) : s.finish.seq.todo = s.seq.todo := by
  unfold State.finish
  split
  · rename_i h
    exact h.symm
  · rfl

/-- What remains of SEQ after a micro-operation: the rest, and only an acknowledgement can put a byte before it or a
STOP in its place. -/
theorem State.retire_todo (tok : Token) (p : Post) (rest : List Micro) (s : State) :
    (s.retire tok p rest).seq.todo = rest ∨
    ((∃ policy, p = .ackEnd policy) ∧
      ((∃ v att, (s.retire tok p rest).seq.todo = sendByteProc v (.data v att) ++ rest) ∨
        (s.retire tok p rest).seq.todo = stopProc s.cfg.stopPreload)) := by
  rw [State.retire, State.finish_todo]
  cases p with
  | ackEnd policy =>
    obtain h | h := State.ackDecision_todo policy
      { State.emit tok { s with seq := { s.seq with todo := rest } } with
        ackf := s.seq.bit, tstate := tstateAtByteEnd s.tstate s.seq.bit }
    · exact .inl h
    · exact .inr ⟨⟨policy, rfl⟩, h⟩
  | _ => exact .inl rfl

/-- The end of a sent byte writes ACKF and TSTATE, and what it decides stands in SEQ alone. -/
theorem State.applyPost_ackEnd (policy : AckPolicy) (s : State) :
    ∃ q, s.applyPost (.ackEnd policy) =
      { s with seq := q, ackf := s.seq.bit, tstate := tstateAtByteEnd s.tstate s.seq.bit } :=
  State.ackDecision_seq policy { s with ackf := s.seq.bit, tstate := tstateAtByteEnd s.tstate s.seq.bit }

theorem State.applyPost_ackf (p : Post) (s : State) (h : (s.applyPost p).ackf ≠ s.ackf) :
    ∃ policy, p = .ackEnd policy := by
  cases p with
  | ackEnd policy => exact ⟨policy, rfl⟩
  | _ => exact absurd rfl h

theorem State.applyPost_rdata (p : Post) (s : State) (h : (s.applyPost p).rdata ≠ s.rdata) :
    p = .resultBit ∨ p = .resultByte := by
  cases p with
  | resultBit => exact .inl rfl
  | resultByte => exact .inr rfl
  | ackEnd policy =>
    obtain ⟨q, hq⟩ := s.applyPost_ackEnd policy
    exact absurd (congrArg State.rdata hq) h
  | _ => exact absurd rfl h

theorem State.applyPost_rxbuf (p : Post) (s : State) (h : (s.applyPost p).rxbuf ≠ s.rxbuf) :
    ∃ i, p = .storeRx i := by
  cases p with
  | storeRx i => exact ⟨i, rfl⟩
  | ackEnd policy =>
    obtain ⟨q, hq⟩ := s.applyPost_ackEnd policy
    exact absurd (congrArg State.rxbuf hq) h
  | _ => exact absurd rfl h

/-- The results the host reads, after the end of a micro-operation, are what its procedure's own doings made of them. -/
theorem State.retire_results (tok : Token) (p : Post) (rest : List Micro) (s : State) :
    ∃ x : State, (x.ackf = s.ackf ∧ x.rdata = s.rdata ∧ x.rxbuf = s.rxbuf) ∧
      (s.retire tok p rest).ackf = (x.applyPost p).ackf ∧ (s.retire tok p rest).rdata = (x.applyPost p).rdata ∧
      (s.retire tok p rest).rxbuf = (x.applyPost p).rxbuf := by
  obtain ⟨-, -, -, -, ha, -, hd, -, hx, -⟩ := State.finish_frame
    (State.applyPost p (State.emit tok { s with seq := { s.seq with todo := rest } }))
  exact ⟨State.emit tok { s with seq := { s.seq with todo := rest } }, ⟨rfl, rfl, rfl⟩, ha, hd, hx⟩

end Sys2Proof.Machine
end

section
/-! SUPPORT. The writers of the results, the pins, the clock: what every controller's step keeps of them. -/

namespace Sys2Proof.Machine

/-! ## Who writes ACKF, RDATA, RXBUF (10_state.md R28, R35, 20_memory.md R62) -/

/-- ACKF, RDATA and RXBUF of `t` differ from those of `s` only if the next micro-operation of `s` is their writer. -/
def ResultsByWriter (s t : State) : Prop :=
  (t.ackf ≠ s.ackf → ∃ m rest p, s.seq.todo = m :: rest ∧ m.post = .ackEnd p) ∧
  (t.rdata ≠ s.rdata → ∃ m rest, s.seq.todo = m :: rest ∧ (m.post = .resultBit ∨ m.post = .resultByte)) ∧
  (t.rxbuf ≠ s.rxbuf → ∃ m rest i, s.seq.todo = m :: rest ∧ m.post = .storeRx i)

theorem ResultsByWriter.of_unchanged {s t : State} (ha : t.ackf = s.ackf) (hd : t.rdata = s.rdata)
    (hx : t.rxbuf = s.rxbuf) : ResultsByWriter s t :=
  ⟨fun h => absurd ha h, fun h => absurd hd h, fun h => absurd hx h⟩

theorem ResultsByWriter.of_retire {s x : State} (m : Micro) (rest : List Micro) (tok : Token)
    (hm : s.seq.todo = m :: rest) (ha : x.ackf = s.ackf) (hd : x.rdata = s.rdata) (hx : x.rxbuf = s.rxbuf) :
    ResultsByWriter s (x.retire tok m.post rest) := by
  obtain ⟨y, ⟨ya, yd, yx⟩, ra, rd, rx⟩ := State.retire_results tok m.post rest x
  refine ⟨fun h => ?_, fun h => ?_, fun h => ?_⟩
  · rw [ra, ← ha, ← ya] at h
    obtain ⟨p, hp⟩ := State.applyPost_ackf m.post y h
    exact ⟨m, rest, p, hm, hp⟩
  · rw [rd, ← hd, ← yd] at h
    exact ⟨m, rest, hm, State.applyPost_rdata m.post y h⟩
  · rw [rx, ← hx, ← yx] at h
    obtain ⟨i, hi⟩ := State.applyPost_rxbuf m.post y h
    exact ⟨m, rest, i, hm, hi⟩

theorem TickCase.resultsByWriter {s t : State} (h : TickCase s t) : ResultsByWriter s t := by
  cases h with
  | waitEnded m rest hm => exact .of_retire m rest _ hm rfl rfl rfl
  | performed m rest bit hm => exact .of_retire m rest _ hm rfl rfl rfl
  | idle | waitBegun | waiting => exact .of_unchanged rfl rfl rfl

/-! ## The pins and their history (10_state.md R21) -/

theorem State.wire_output (s : State) (l : Line) (h : s.lines.dir l = .output) : s.wire l = s.lines.out l := by
  simp [State.wire, h]

theorem State.wire_input (s : State) (l : Line) (h : s.lines.dir l = .input) : s.wire l = s.env.level l := by
  simp [State.wire, h]

/-- The pins depend on the line bits and the environment only. -/
theorem State.pins_congr {s t : State} (hl : t.lines = s.lines) (he : t.env = s.env) : t.pins = s.pins := by
  simp only [State.pins, State.wire, hl, he]

/-- The pins of the state in which the environment has moved and the controller has not. -/
def State.pinsMoved (s : State) : Level × Level := State.pins { s with env := s.env.move }

/-- The history of `t` is that of `s` with the pins recorded: not at all while they stay, once, or after the
environment's move and again after the micro-operation. -/
def HistoryFollows (s t : State) : Prop :=
  (t.wires = s.wires ∧ t.pins = s.pins) ∨ t.wires = recordPins t.pins s.wires ∨
    t.wires = recordPins t.pins (recordPins s.pinsMoved s.wires)

theorem State.retire_history (tok : Token) (p : Post) (rest : List Micro) (x : State) :
    (x.retire tok p rest).wires = recordPins (x.retire tok p rest).pins x.wires := by
  obtain ⟨-, hl, -, -, -, -, he, -, hw, -⟩ := State.retire_frame tok p rest x
  rw [hw, State.pins_congr hl he]

theorem TickCase.historyFollows {s t : State} (h : TickCase s t) : HistoryFollows s t := by
  cases h with
  | idle => exact .inl ⟨rfl, rfl⟩
  | waiting => exact .inl ⟨rfl, rfl⟩
  | waitBegun => exact .inr (.inl rfl)
  | waitEnded m rest hm => exact .inr (.inl (State.retire_history _ _ _ { s with timer := 0 }))
  | performed m rest bit hm => exact .inr (.inr (State.retire_history _ _ _ _))

theorem step_historyFollows (s t : State) (h : step s = .next t) (hr : s.inputs.head? ≠ some .reset) :
    HistoryFollows s t := by
  cases step_case s t h with
  | tick rest ht => exact (State.tick_case _ _ ht).historyFollows
  | driven d rest => exact .inr (.inl rfl)
  | reset rest hin => exact absurd (by rw [hin]; rfl) hr
  | taken | accepted | refused | stored | read => exact .inl ⟨rfl, rfl⟩

theorem HistoryFollows.head {s t : State} (h : HistoryFollows s t) (hs : s.wires.head? = some s.pins) :
    t.wires.head? = some t.pins := by
  obtain ⟨hw, hp⟩ | hw | hw := h
  · rw [hw, hp, hs]
  · rw [hw, recordPins_head]
  · rw [hw, recordPins_head]

theorem HistoryFollows.merged {s t : State} (h : HistoryFollows s t) (hs : historyMerged s.wires = true) :
    historyMerged t.wires = true := by
  obtain ⟨hw, -⟩ | hw | hw := h <;> rw [hw]
  · exact hs
  · exact recordPins_merged _ _ hs
  · exact recordPins_merged _ _ (recordPins_merged _ _ hs)

/-- Two recordings grow the history by both pairs, by the newer one, or not at all: the older one alone is the case
in which both are equal. -/
theorem recordPins_two_cases (p q : Level × Level) (ws : List (Level × Level)) :
    recordPins p (recordPins q ws) = ws ∨ recordPins p (recordPins q ws) = p :: ws ∨
      recordPins p (recordPins q ws) = p :: q :: ws := by
  obtain hq | hq := recordPins_cases q ws
  · by_cases hpq : p = q
    · subst hpq
      exact .inr (.inl (by rw [hq, recordPins_same]))
    · exact .inr (.inr (by rw [hq]; simp [recordPins, hpq]))
  · rw [hq]
    obtain hp | hp := recordPins_cases p ws
    · exact .inr (.inl hp)
    · exact .inl hp

theorem HistoryFollows.grows {s t : State} (h : HistoryFollows s t) :
    t.wires = s.wires ∨ t.wires = t.pins :: s.wires ∨ t.wires = t.pins :: s.pinsMoved :: s.wires := by
  obtain ⟨hw, -⟩ | hw | hw := h
  · exact .inl hw
  · obtain hp | hp := recordPins_cases t.pins s.wires
    · exact .inr (.inl (hw.trans hp))
    · exact .inl (hw.trans hp)
  · rw [hw]
    exact recordPins_two_cases _ _ _

theorem historyMerged_tail (q : Level × Level) (ws : List (Level × Level)) (h : historyMerged (q :: ws) = true) :
    historyMerged ws = true := by
  cases ws with
  | nil => rfl
  | cons p ws =>
    simp only [historyMerged, Bool.and_eq_true] at h
    exact h.2

/-- A merged history has no two equal neighbours anywhere. -/
theorem historyMerged_neighbours (u v : List (Level × Level)) (p q : Level × Level)
    (h : historyMerged (u ++ p :: q :: v) = true) : p ≠ q := by
  induction u with
  | nil =>
    simp only [List.nil_append, historyMerged, Bool.and_eq_true, decide_eq_true_eq] at h
    exact h.1
  | cons x u ih => exact ih (historyMerged_tail x _ h)

/-! ## The clock (10_state.md R25) -/

/-- The micro-operation neither turns nor samples the clock line. -/
def Micro.sparesClock (m : Micro) : Bool :=
  match m.op with
  | .t .scl _ => false
  | .s .scl => false
  | _ => true

theorem Micro.linesAfter_dirScl (m : Micro) (x : Lines) (h : m.sparesClock = true) :
    (m.linesAfter x).dirScl = x.dirScl := by
  obtain ⟨op, p⟩ := m
  cases op with
  | t l d =>
    cases l with
    | scl => cases h
    | sda => rfl
  | w l v => cases l <;> rfl
  | _ => rfl

theorem Micro.token_ne_clock_sample (m : Micro) (e : Env) (b : Level) (h : m.sparesClock = true) :
    m.token e ≠ .s .scl b := by
  obtain ⟨op, p⟩ := m
  cases op with
  | s l =>
    cases l with
    | scl => cases h
    | sda => exact nofun
  | _ => exact nofun

theorem sparesClock_sendByte (v : Byte) (policy : AckPolicy) :
    (sendByteProc v policy).all Micro.sparesClock = true := rfl

theorem sparesClock_stop (preload : Bool) : (stopProc preload).all Micro.sparesClock = true := by
  cases preload <;> rfl

theorem sparesClock_payload (vs : List Byte) : (payloadProc vs).all Micro.sparesClock = true := by
  induction vs with
  | nil => rfl
  | cons v vs ih => rw [payloadProc, List.all_append, ih, sendDataProc, sparesClock_sendByte, Bool.and_self]

theorem sparesClock_reads (i n : Nat) : (readsProc i n).all Micro.sparesClock = true := by
  induction n generalizing i with
  | zero => rfl
  | succ n ih =>
    rw [readsProc, List.all_append, ih, Bool.and_true]
    rfl

/-- Every operation from SEND_BIT upward spares the clock. -/
theorem sparesClock_commandProc (i : Instr) (s : State)
    (h : ∀ line level dir, i ≠ .setLine line level ∧ i ≠ .setDir line dir ∧ i ≠ .readLine line) :
    (commandProc i s).all Micro.sparesClock = true := by
  cases i with
  | setLine line level => exact absurd rfl (h line level .output).1
  | setDir line dir => exact absurd rfl (h line true dir).2.1
  | readLine line => exact absurd rfl (h line true .output).2.2
  | stop => exact sparesClock_stop _
  | writeBlock addr reg count =>
    simp only [commandProc, writeBlockProc, sendAddressProc, sendDataProc, List.all_append, sparesClock_sendByte,
      sparesClock_payload, sparesClock_stop, Bool.and_true]
    rfl
  | readBlock addr reg count =>
    simp only [commandProc, readBlockProc, sendAddressProc, sendDataProc, List.all_append, sparesClock_sendByte,
      sparesClock_reads, sparesClock_stop, Bool.and_true]
    rfl
  | _ => rfl

/-- Every operation from SEND_BIT upward needs the clock line as an output (60_exceptions.md R223 check 2). -/
theorem Legal.clock_output {i : Instr} {s : State} (hl : Legal i s)
    (h : ∀ line level dir, i ≠ .setLine line level ∧ i ≠ .setDir line dir ∧ i ≠ .readLine line)
    (hh : i ≠ .waitHalf) (hf : i ≠ .waitFull) : s.lines.dirScl = .output := by
  obtain ⟨-, hd, -⟩ := hl
  cases i with
  | setLine line level => exact absurd rfl (h line level .output).1
  | setDir line dir => exact absurd rfl (h line true dir).2.1
  | readLine line => exact absurd rfl (h line true .output).2.2
  | waitHalf => exact absurd rfl hh
  | waitFull => exact absurd rfl hf
  | readByte => exact hd
  | _ => exact hd.1

/-- The controller, left alone, keeps the clock an output and has not sampled it since the trace was `base`. -/
structure ClockKept (base : List Token) (s : State) : Prop where
  inputs : s.inputs = []
  dir : s.lines.dirScl = .output
  todo : s.seq.todo.all Micro.sparesClock = true
  trace : ∃ toks, s.trace = toks ++ base ∧ ∀ b, Token.s .scl b ∉ toks

theorem ClockKept.retire {base : List Token} {x : State} {m : Micro} {rest : List Micro} (tok : Token)
    (hk : ClockKept base { x with seq := { x.seq with todo := rest } }) (htok : ∀ b, Token.s .scl b ≠ tok) :
    ClockKept base (x.retire tok m.post rest) := by
  obtain ⟨-, hl, -, -, -, hi, -, ht, -⟩ := State.retire_frame tok m.post rest x
  obtain ⟨toks, htr, hno⟩ := hk.trace
  have hrest : rest.all Micro.sparesClock = true := hk.todo
  refine ⟨hi.trans hk.inputs, (congrArg Lines.dirScl hl).trans hk.dir, ?_, tok :: toks, ?_, ?_⟩
  · obtain h | ⟨-, ⟨v, att, h⟩ | h⟩ := State.retire_todo tok m.post rest x <;> rw [h]
    · exact hrest
    · rw [List.all_append, sparesClock_sendByte, hrest, Bool.and_self]
    · exact sparesClock_stop _
  · rw [ht, show x.trace = toks ++ base from htr, List.cons_append]
  · intro b hb
    obtain hb | hb := List.mem_cons.1 hb
    · exact htok b hb
    · exact hno b hb

theorem TickCase.keeps_clock {base : List Token} {s t : State} (h : TickCase s t) (hk : ClockKept base s) :
    ClockKept base t := by
  obtain ⟨hi, hd, hall, htr⟩ := hk
  cases h with
  | idle | waitBegun | waiting => exact ⟨hi, hd, hall, htr⟩
  | waitEnded m rest hm hw =>
    rw [hm, List.all_cons, Bool.and_eq_true] at hall
    exact .retire _ ⟨hi, hd, hall.2, htr⟩ (fun b => (m.token_ne_clock_sample s.env b hall.1).symm)
  | performed m rest bit hm =>
    rw [hm, List.all_cons, Bool.and_eq_true] at hall
    exact .retire _ ⟨hi, (m.linesAfter_dirScl s.lines hall.1).trans hd, hall.2, htr⟩
      (fun b => (m.token_ne_clock_sample s.env b hall.1).symm)

theorem run_keeps_clock {base : List Token} (k : Nat) (s t : State) (hk : ClockKept base s)
    (h : run k s = .next t) : ClockKept base t := by
  induction k generalizing s with
  | zero =>
    cases h
    exact hk
  | succ k ih =>
    obtain ⟨u, hu, hr⟩ := run_succ_inv k s t h
    rw [step_quiet s hk.inputs] at hu
    exact ih u ((State.tick_case s u hu).keeps_clock hk) hr

/-! ## One tick and one untimed micro-operation (70_reset_and_hazards.md R283) -/

theorem run_one (s : State) : run 1 s = step s := by
  unfold run
  split <;> rename_i h <;> exact h.symm

/-- A micro-operation that is no wait is one tick, and that tick is the untimed micro-operation. -/
theorem run_tick_eq_microStep (s : State) (m : Micro) (rest : List Micro) (hin : s.inputs = [])
    (hm : s.seq.todo = m :: rest) (hw : ¬ (m.op = .h ∨ m.op = .f)) :
    run (microTicks s.cfg m.op) s = s.microStep := by
  obtain ⟨op, p⟩ := m
  cases op with
  | h => exact absurd (.inl rfl) hw
  | f => exact absurd (.inr rfl) hw
  | _ => simp only [microTicks, run_one, step_quiet s hin, State.tick, State.microStep, hm]

/-- Between micro-operations a wait's ticks together are the untimed wait. -/
theorem run_wait_eq_microStep (s : State) (m : Micro) (rest : List Micro) (hc : s.cfg.legal = true)
    (hin : s.inputs = []) (ht : s.timer = 0) (hm : s.seq.todo = m :: rest) (hw : m.op = .h ∨ m.op = .f) :
    run (microTicks s.cfg m.op) s = s.microStep := by
  obtain h | h := hw
  · rw [h, State.microStep, hm]
    simp only [h]
    exact run_wait s m rest _ .h (Config.legal_halfTicks _ hc) hin ht hm (.inl ⟨h, rfl, rfl⟩)
  · rw [h, State.microStep, hm]
    simp only [h]
    exact run_wait s m rest _ .f (Config.legal_fullTicks _ hc) hin ht hm (.inr ⟨h, rfl, rfl⟩)

/-! ## The bits of STATUS and LINES (10_state.md R34, R36) -/

theorem statusBits (t : BitVec 2) (a : Bool) (e : BitVec 2) (d b : Bool) (v : Byte)
    (hv : v = 0#1 ++ t ++ BitVec.ofBool a ++ e ++ BitVec.ofBool d ++ BitVec.ofBool b) :
    v.getLsbD 0 = b ∧ v.getLsbD 1 = d ∧ v.extractLsb' 2 2 = e ∧ v.getLsbD 4 = a ∧ v.extractLsb' 5 2 = t ∧
      v.getLsbD 7 = false := by
  subst hv
  revert t a e d b
  decide

theorem linesBits (d c b a : Bool) (v : BitVec 4)
    (hv : v = BitVec.ofBool d ++ BitVec.ofBool c ++ BitVec.ofBool b ++ BitVec.ofBool a) :
    v.getLsbD 0 = a ∧ v.getLsbD 1 = b ∧ v.getLsbD 2 = c ∧ v.getLsbD 3 = d := by
  subst hv
  revert a b c d
  decide

theorem State.linesView_reset (c : Config) : (State.resetWith c).linesView = 0xF#4 := by
  simp [State.linesView, State.resetWith, dirLevel]

theorem dirLevel_eq (d : Dir) : dirLevel d = decide (d = .output) := by
  cases d <;> rfl

end Sys2Proof.Machine
end

section
/-! PROOFS. The statements of 10_state.md. -/

namespace Sys2Proof.Machine

/-- Settles O7: each value is the reset state's field, the pins follow the two outputs. -/
theorem resetGivesIdleBus : Obligations.ResetGivesIdleBus := by
  unfold Obligations.ResetGivesIdleBus
  exact fun c => ⟨rfl, rfl, rfl, rfl, rfl, rfl, rfl, State.linesView_reset c, State.wire_output _ .scl rfl,
    State.wire_output _ .sda rfl⟩

/-- Settles O9: SEQ is empty, TIMER is 0, and the history is the one pair the pins show. -/
theorem resetMeetsInvariant : Obligations.ResetMeetsInvariant := by
  unfold Obligations.ResetMeetsInvariant
  intro c hc
  obtain ⟨htx, hrx⟩ := State.resetWith_buffers_wf c
  exact {
    cfg := hc
    txbuf := htx
    rxbuf := hrx
    lines := rfl
    timer := .inl rfl
    idle := fun _ => rfl
    pins := rfl
    merged := rfl }

/-- Settles O13. -/
theorem stepIssuesDecodedCommand : Obligations.StepIssuesDecodedCommand := by
  unfold Obligations.StepIssuesDecodedCommand
  intro s w rest i hin hd
  rw [step_take s _ rest hin]
  exact State.issueWord_ok _ w i hd

/-- Settles O14: the word placed is the command's own, and it decodes to the command. -/
theorem fetchWordIsIssuedNext : Obligations.FetchWordIsIssuedNext := by
  unfold Obligations.FetchWordIsIssuedNext
  intro s i hwf
  have hw : BitVec.ofNat 32 ((encode i).toNat % 2 ^ 32) = encode i := by
    rw [Nat.mod_eq_of_lt (encode i).isLt, BitVec.ofNat_toNat, BitVec.setWidth_eq]
  have hin : (s.withFetchWord 32 (encode i).toNat).inputs = .write 0x000 (encode i) :: s.inputs := by
    rw [State.withFetchWord, hw, State.withCommandWord_inputs]
  exact stepIssuesDecodedCommand _ _ _ i hin (decode_encode i hwf)

/-- Settles O23: the bits of the two views, whatever fields they are made of. -/
theorem statusAndLinesLayout : Obligations.StatusAndLinesLayout := by
  unfold Obligations.StatusAndLinesLayout
  intro s
  obtain ⟨hb, hd, he, ha, ht, hz⟩ := statusBits s.tstate.bits s.ackf s.err.bits s.done s.busy s.status rfl
  obtain ⟨l0, l1, l2, l3⟩ := linesBits _ _ _ _ s.linesView rfl
  refine ⟨hb, hd, he.trans ?_, ha, ht.trans ?_, hz, l0, l1, l2.trans (dirLevel_eq _), l3.trans (dirLevel_eq _)⟩
  · cases s.err <;> rfl
  · cases s.tstate <;> rfl

/-- Settles O15: a legal command is issued with a procedure that is not empty. -/
theorem legalCommandIsAccepted : Obligations.LegalCommandIsAccepted := by
  unfold Obligations.LegalCommandIsAccepted
  exact fun i s hb hl => ⟨commandProc i s, commandProc_ne_nil i s, exec_legal i s hb hl⟩

/-- Settles O20: the port drops every write while BUSY = 1. -/
theorem writesWhileBusyAreDropped : Obligations.WritesWhileBusyAreDropped := by
  unfold Obligations.WritesWhileBusyAreDropped
  intro s num val rest hin hb
  rw [step_take s _ rest hin]
  exact State.writePort_busy { s with inputs := rest } num val hb

/-- Settles O22: the value read is what the port shows in the state with the read taken. -/
theorem hostReadsHaveNoSideEffect : Obligations.HostReadsHaveNoSideEffect := by
  unfold Obligations.HostReadsHaveNoSideEffect
  intro s num rest hin
  refine ⟨State.readPort num { s with inputs := rest }, step_take s _ rest hin, ?_, ?_, ?_, ?_⟩
  · rintro rfl
    exact State.readPort_status _
  · rintro rfl hb
    exact State.readPort_rdata { s with inputs := rest } hb
  · rintro rfl
    exact State.readPort_lines _
  · rintro i b rfl hi hb hr
    rw [State.readPort_rxbuf { s with inputs := rest } i hi hb]
    exact State.rxByte_written { s with inputs := rest } i b hr

/-- Settles O29: a wait's ticks are the untimed wait, any other micro-operation is one tick. -/
theorem ticksRefineMicroOperations : Obligations.TicksRefineMicroOperations := by
  unfold Obligations.TicksRefineMicroOperations
  intro s m rest hc hin ht hm
  by_cases hw : m.op = .h ∨ m.op = .f
  · exact run_wait_eq_microStep s m rest hc hin ht hm hw
  · exact run_tick_eq_microStep s m rest hin hm hw

/-- Settles O51: acceptance puts only micro-operations that spare the clock into SEQ, and every tick keeps that. -/
theorem clockStaysAnUnsampledOutput : Obligations.ClockStaysAnUnsampledOutput := by
  unfold Obligations.ClockStaysAnUnsampledOutput
  intro s a t i k hq hc hl hi hh hf ha ht
  rw [exec_legal i s hq.not_busy hl] at ha
  cases ha
  have hk : ClockKept s.trace (s.accept (commandProc i s)) :=
    ⟨hq.2.2, hl.clock_output hi hh hf, sparesClock_commandProc i s hi, [], rfl, fun _ => List.not_mem_nil⟩
  obtain ⟨-, hd, -, htr⟩ := run_keeps_clock k _ t hk ht
  exact ⟨hd, htr⟩

/-- Settles O53: only a controller's step changes the three results, only the port's write changes TXBUF. -/
theorem eachResultHasOneWriter : Obligations.EachResultHasOneWriter := by
  unfold Obligations.EachResultHasOneWriter
  intro s t h hr
  cases step_case s t h with
  | tick rest ht =>
    obtain ⟨ha, hd, hx⟩ := (State.tick_case _ _ ht).resultsByWriter
    exact ⟨ha, hd, hx, fun hne => absurd (State.tick_frame _ _ ht).txbuf hne⟩
  | stored num val rest hin hb =>
    exact ⟨fun hne => absurd rfl hne, fun hne => absurd rfl hne, fun hne => absurd rfl hne,
      fun _ => ⟨hb, num, val, rest, hin⟩⟩
  | reset rest hin => exact absurd (by rw [hin]; rfl) hr
  | taken | accepted | refused | read | driven =>
    exact ⟨fun hne => absurd rfl hne, fun hne => absurd rfl hne, fun hne => absurd rfl hne, fun hne => absurd rfl hne⟩

/-- Settles O57: every step but the reset event records the pins as they move. -/
theorem wireHistoryFollowsThePins : Obligations.WireHistoryFollowsThePins := by
  unfold Obligations.WireHistoryFollowsThePins
  refine ⟨fun s l => ⟨s.wire_output l, s.wire_input l⟩, fun s t hinv h hr => ?_⟩
  have hf := step_historyFollows s t h hr
  refine ⟨hf.head hinv.pins, fun u p q v hw => ?_, hf.grows⟩
  exact historyMerged_neighbours u v p q (hw ▸ hf.merged hinv.merged)

end Sys2Proof.Machine
end

section
/-! SUPPORT. The buffers: the port's write to TXBUF, and why a READ_BLOCK that fails has stored no byte. -/

namespace Sys2Proof.Machine

/-! ## TXBUF at the host port (20_memory.md R61) -/

theorem State.writePort_txbuf (s : State) (i : Nat) (val : Word) (hi : i < s.cfg.maxCount) :
    s.writePort (0x100 + i) val = .next (s.storeTx i (val.setWidth 8)) := by
  simp [State.writePort, hi]

/-! ## A property that every tick keeps -/

/-- What every controller's step keeps holds to the end of a run that the outside leaves alone. -/
theorem run_keeps {P : State → Prop} (hP : ∀ s t, TickCase s t → P s → P t) (k : Nat) (s t : State)
    (hin : s.inputs = []) (hs : P s) (h : run k s = .next t) : P t := by
  induction k generalizing s with
  | zero =>
    cases h
    exact hs
  | succ k ih =>
    obtain ⟨u, hu, hr⟩ := run_succ_inv k s t h
    rw [step_quiet s hin] at hu
    exact ih u ((State.tick_frame s u hu).inputs.trans hin) (hP s u (State.tick_case s u hu) hs) hr

/-! ## What the end of a micro-operation does to RXBUF and to the command's code -/

theorem State.retire_rxbuf (tok : Token) (p : Post) (rest : List Micro) (s : State) (h : ∀ i, p ≠ .storeRx i) :
    (s.retire tok p rest).rxbuf = s.rxbuf := by
  obtain ⟨x, ⟨-, -, hx⟩, -, -, hr⟩ := State.retire_results tok p rest s
  by_contra hne
  rw [hr, ← hx] at hne
  obtain ⟨i, hi⟩ := State.applyPost_rxbuf p x hne
  exact h i hi

theorem State.finish_ok (s : State) (he : s.err = .ok) (hc : s.seq.code = .ok) :
    s.finish.err = .ok ∧ s.finish.seq.code = .ok := by
  unfold State.finish
  split
  · exact ⟨hc, rfl⟩
  · exact ⟨he, hc⟩

/-- An acknowledgement keeps the command's code, or leaves a STOP alone to do (60_exceptions.md R224). -/
theorem State.ackDecision_code (policy : AckPolicy) (s : State) :
    (s.ackDecision policy).seq.code = s.seq.code ∨
      (s.ackDecision policy).seq.todo = stopProc s.cfg.stopPreload := by
  unfold State.ackDecision
  split
  · exact .inl rfl
  · exact .inl rfl
  · exact .inr rfl
  · exact .inl rfl
  · unfold State.nackedData
    split
    · exact .inl rfl
    · split
      · exact .inr rfl
      · exact .inl rfl

/-- The end of a micro-operation lets a command that has not failed go on so, unless an acknowledgement leaves it a STOP
alone to do. -/
theorem State.retire_ok (tok : Token) (p : Post) (rest : List Micro) (s : State) (he : s.err = .ok)
    (hc : s.seq.code = .ok) :
    ((s.retire tok p rest).err = .ok ∧ (s.retire tok p rest).seq.code = .ok) ∨
      ((∃ policy, p = .ackEnd policy) ∧ (s.retire tok p rest).seq.todo = stopProc s.cfg.stopPreload) := by
  obtain ⟨-, -, -, -, hpe, -⟩ :=
    State.applyPost_frame p (State.emit tok { s with seq := { s.seq with todo := rest } })
  cases p with
  | ackEnd policy =>
    obtain h | h := State.ackDecision_code policy
      { State.emit tok { s with seq := { s.seq with todo := rest } } with
        ackf := s.seq.bit, tstate := tstateAtByteEnd s.tstate s.seq.bit }
    · exact .inl (State.finish_ok _ (hpe.trans he) (h.trans hc))
    · exact .inr ⟨⟨policy, rfl⟩, (State.finish_todo _).trans h⟩
  | _ => exact .inl (State.finish_ok _ he hc)

/-! ## Micro-operations that store no byte -/

/-- The micro-operation does not store into RXBUF. -/
def Micro.sparesRxbuf (m : Micro) : Bool :=
  match m.post with
  | .storeRx _ => false
  | _ => true

theorem Micro.sparesRxbuf_post (m : Micro) (h : m.sparesRxbuf = true) : ∀ i, m.post ≠ .storeRx i := by
  intro i hp
  simp [Micro.sparesRxbuf, hp] at h

theorem sparesRxbuf_sendByte (v : Byte) (policy : AckPolicy) :
    (sendByteProc v policy).all Micro.sparesRxbuf = true := rfl

theorem sparesRxbuf_stop (preload : Bool) : (stopProc preload).all Micro.sparesRxbuf = true := by
  cases preload <;> rfl

theorem straight_stop (preload : Bool) : (stopProc preload).all Micro.straight = true := by
  cases preload <;> rfl

theorem straight_reads (i n : Nat) : (readsProc i n).all Micro.straight = true := by
  induction n generalizing i with
  | zero => rfl
  | succ n ih =>
    rw [readsProc, List.all_append, ih, Bool.and_true]
    rfl

/-- First micro-operations that store no byte, then micro-operations that await no acknowledgement. -/
def StoresAfterAcks (todo : List Micro) : Prop :=
  ∃ l r, todo = l ++ r ∧ l.all Micro.sparesRxbuf = true ∧ r.all Micro.straight = true

/-- READ_BLOCK sends its three bytes before it stores the first one (44_transaction.md R187). -/
theorem readBlockProc_storesAfterAcks (preload : Bool) (addr reg : Byte) (n : Nat) :
    StoresAfterAcks (readBlockProc preload addr reg n) := by
  refine ⟨startProc ++ sendAddressProc addr .write ++ sendDataProc reg ++ startProc ++ sendAddressProc addr .read,
    readsProc 0 n ++ stopProc preload, by simp only [readBlockProc, List.append_assoc], ?_, ?_⟩
  · simp only [sendAddressProc, sendDataProc, List.all_append, sparesRxbuf_sendByte, Bool.and_true]
    rfl
  · rw [List.all_append, straight_reads, straight_stop, Bool.and_self]

/-! ## The phases of a command that stores after its acknowledgements (20_memory.md R75) -/

/-- Nothing has been stored since RXBUF was `base`, and nothing will be. -/
def StoresNothing (base : Memory) (s : State) : Prop :=
  s.rxbuf = base ∧ s.seq.todo.all Micro.sparesRxbuf = true

/-- The command has not failed, and awaits no acknowledgement that could make it fail. -/
def CannotFail (s : State) : Prop :=
  s.err = .ok ∧ s.seq.code = .ok ∧ s.seq.todo.all Micro.straight = true

/-- The command has not failed and has stored nothing since RXBUF was `base`; acknowledgements come before stores. -/
def AwaitsAcks (base : Memory) (s : State) : Prop :=
  s.rxbuf = base ∧ s.err = .ok ∧ s.seq.code = .ok ∧ StoresAfterAcks s.seq.todo

/-- The command that runs since RXBUF was `base` has stored nothing or can no longer fail. -/
def FailureStoresNothing (base : Memory) (s : State) : Prop :=
  AwaitsAcks base s ∨ CannotFail s ∨ StoresNothing base s

theorem StoresNothing.retire {base : Memory} {x : State} {m : Micro} {rest : List Micro} (tok : Token)
    (h : StoresNothing base x) (hm : x.seq.todo = m :: rest) : StoresNothing base (x.retire tok m.post rest) := by
  obtain ⟨hx, hall⟩ := h
  rw [hm, List.all_cons, Bool.and_eq_true] at hall
  refine ⟨(State.retire_rxbuf _ _ _ _ (m.sparesRxbuf_post hall.1)).trans hx, ?_⟩
  obtain h | ⟨-, ⟨v, att, h⟩ | h⟩ := State.retire_todo tok m.post rest x <;> rw [h]
  · exact hall.2
  · rw [List.all_append, sparesRxbuf_sendByte, hall.2, Bool.and_self]
  · exact sparesRxbuf_stop _

theorem CannotFail.retire {x : State} {m : Micro} {rest : List Micro} (tok : Token)
    (h : CannotFail x) (hm : x.seq.todo = m :: rest) : CannotFail (x.retire tok m.post rest) := by
  obtain ⟨he, hc, hall⟩ := h
  rw [hm, List.all_cons, Bool.and_eq_true] at hall
  have hp := m.straight_post hall.1
  obtain ht | ⟨⟨policy, h⟩, -⟩ := State.retire_todo tok m.post rest x
  · obtain ⟨he', hc'⟩ | ⟨⟨policy, h⟩, -⟩ := State.retire_ok tok m.post rest x he hc
    · exact ⟨he', hc', ht.symm ▸ hall.2⟩
    · exact absurd h (hp policy)
  · exact absurd h (hp policy)

theorem AwaitsAcks.retire {base : Memory} {x : State} {m : Micro} {rest : List Micro} (tok : Token)
    (h : AwaitsAcks base x) (hm : x.seq.todo = m :: rest) :
    FailureStoresNothing base (x.retire tok m.post rest) := by
  obtain ⟨hx, he, hc, l, r, hlr, hl, hr⟩ := h
  cases l with
  | nil => exact .inr (.inl (CannotFail.retire tok ⟨he, hc, hlr ▸ hr⟩ hm))
  | cons m' l =>
    rw [List.cons_append] at hlr
    obtain ⟨rfl, rfl⟩ := List.cons.inj (hm.symm.trans hlr)
    rw [List.all_cons, Bool.and_eq_true] at hl
    have hx' := (State.retire_rxbuf tok m.post (l ++ r) x (m.sparesRxbuf_post hl.1)).trans hx
    have failed (h : (x.retire tok m.post (l ++ r)).seq.todo = stopProc x.cfg.stopPreload) :
        FailureStoresNothing base (x.retire tok m.post (l ++ r)) := .inr (.inr ⟨hx', h ▸ sparesRxbuf_stop _⟩)
    obtain ⟨he', hc'⟩ | ⟨-, h⟩ := State.retire_ok tok m.post (l ++ r) x he hc
    · obtain h | ⟨-, ⟨v, att, h⟩ | h⟩ := State.retire_todo tok m.post (l ++ r) x
      · exact .inl ⟨hx', he', hc', l, r, h, hl.2, hr⟩
      · refine .inl ⟨hx', he', hc', sendByteProc v (.data v att) ++ l, r, by rw [h, List.append_assoc], ?_, hr⟩
        rw [List.all_append, sparesRxbuf_sendByte, hl.2, Bool.and_self]
      · exact failed h
    · exact failed h

theorem FailureStoresNothing.retire {base : Memory} {x : State} {m : Micro} {rest : List Micro} (tok : Token)
    (h : FailureStoresNothing base x) (hm : x.seq.todo = m :: rest) :
    FailureStoresNothing base (x.retire tok m.post rest) := by
  obtain h | h | h := h
  · exact h.retire tok hm
  · exact .inr (.inl (h.retire tok hm))
  · exact .inr (.inr (h.retire tok hm))

theorem TickCase.keeps_failureStoresNothing {base : Memory} (s t : State) (h : TickCase s t)
    (hs : FailureStoresNothing base s) : FailureStoresNothing base t := by
  cases h with
  | idle | waitBegun | waiting => exact hs
  | waitEnded m rest hm hw => exact FailureStoresNothing.retire (x := { s with timer := 0 }) _ hs hm
  | performed m rest bit hm =>
    exact FailureStoresNothing.retire (x := { s.settle with
      lines := m.linesAfter s.lines, seq := { s.seq with bit := bit } }) _ hs hm

theorem FailureStoresNothing.rxbuf {base : Memory} {s : State} (h : FailureStoresNothing base s) (he : s.err ≠ .ok) :
    s.rxbuf = base := by
  obtain ⟨hx, -⟩ | ⟨hok, -⟩ | ⟨hx, -⟩ := h
  · exact hx
  · exact absurd hok he
  · exact hx

end Sys2Proof.Machine
end

section
/-! PROOFS. The statements of 20_memory.md. -/

namespace Sys2Proof.Machine

/-- Settles O21: the idle port stores the low byte, and a buffer's write changes one index. -/
theorem txbufWriteStoresOneByte : Obligations.TxbufWriteStoresOneByte := by
  unfold Obligations.TxbufWriteStoresOneByte
  intro s i val rest hin hb hi
  refine ⟨s.txbuf.write i (val.setWidth 8), ?_, Memory.read_write_same _ _ _,
    fun j hj => Memory.read_write_other _ _ _ _ hj⟩
  calc step s = State.writePort (0x100 + i) val { s with inputs := rest } := step_take s _ rest hin
    _ = .next (State.storeTx i (val.setWidth 8) { s with inputs := rest }) := State.writePort_txbuf _ i val hi
    _ = _ := congrArg Host.Outcome.next (State.storeTx_idle { s with inputs := rest } i _ hb)

/-- Settles O49: every acknowledgement that can fail comes before the first stored byte. -/
theorem failedReadKeepsRxbuf : Obligations.FailedReadKeepsRxbuf := by
  unfold Obligations.FailedReadKeepsRxbuf
  intro s a t addr reg count k hq _ ha ht _ he
  have phase : a.inputs = [] ∧ FailureStoresNothing s.rxbuf a := by
    have hb := hq.not_busy
    obtain ⟨hseq, -, hin⟩ := hq
    by_cases hl : Legal (.readBlock addr reg count) s
    · rw [exec_legal _ s hb hl] at ha
      cases ha
      exact ⟨hin, .inl ⟨rfl, rfl, rfl, readBlockProc_storesAfterAcks _ addr reg _⟩⟩
    · rw [exec_illegal _ s hb hl] at ha
      cases ha
      exact ⟨hin, .inr (.inr ⟨rfl, by rw [State.refuse_seq, hseq]; rfl⟩)⟩
  obtain ⟨hin, hphase⟩ := phase
  exact (run_keeps TickCase.keeps_failureStoresNothing k a t hin hphase ht).rxbuf he

end Sys2Proof.Machine
end

section
/-! SUPPORT. The decoder read backwards: what a word that decodes, or that selects a row, is made of. -/

namespace Sys2Proof

/-! ## A word is made of its fields (30_encoding.md R90) -/

theorem placeField_zero (n lo : Nat) : placeField (0#n) lo = 0#32 := by
  simp [placeField]

theorem placeField_setWidth {n m : Nat} (v : BitVec n) (lo : Nat) (h : n ≤ m) :
    placeField (v.setWidth m) lo = placeField v lo := by
  simp [placeField, h]

/-- A field in its place is its high part and its low part, each in its place. -/
theorem placeField_extract_split (w : Word) (lo n m : Nat) :
    placeField (w.extractLsb' lo (n + m)) lo =
      placeField (w.extractLsb' (lo + m) n) (lo + m) ||| placeField (w.extractLsb' lo m) lo := by
  ext i hi
  simp only [placeField, BitVec.getElem_or, BitVec.getElem_shiftLeft, BitVec.getElem_setWidth,
    BitVec.getLsbD_extractLsb']
  by_cases hlo : i < lo
  · simp [hlo, show i < lo + m by omega]
  by_cases hm : i < lo + m
  · simp [hlo, hm, show i - lo < n + m by omega, show i - lo < m by omega]
  · simp [hlo, hm, show ¬ i - lo < m by omega, show lo + m + (i - (lo + m)) = lo + (i - lo) by omega,
      show i - (lo + m) < n ↔ i - lo < n + m by omega]

theorem placeField_whole (w : Word) : placeField (w.extractLsb' 0 32) 0 = w := by
  simp [placeField, BitVec.extractLsb'_eq_self]

theorem word_eq_opcode_rest (w : Word) :
    w = placeField (w.extractLsb' 28 4) 28 ||| placeField (w.extractLsb' 0 28) 0 :=
  calc w = placeField (w.extractLsb' 0 (4 + 28)) 0 := (placeField_whole w).symm
    _ = _ := placeField_extract_split w 0 4 28

/-! ## What each format's reading gives (30_encoding.md R91 to R94) -/

/-- Every format answers one command, or rejects the word for a bit marked 0. -/
theorem checked_eq_ok {c : Prop} [Decidable c] {i j : Instr} :
    (if c then Except.ok i else .error Reject.mustBeZero) = .ok j ↔ c ∧ i = j := by
  split <;> simp [*]

theorem checked_ne_reserved {c : Prop} [Decidable c] {i : Instr} :
    (if c then Except.ok i else .error Reject.mustBeZero) ≠ .error .reservedOpcode := by
  split <;> simp

theorem bitOfLine_lineOfBit (b : Bool) : bitOfLine (lineOfBit b) = BitVec.ofBool b := by
  cases b <;> rfl

theorem bitOfDir_dirOfBit (b : Bool) : bitOfDir (dirOfBit b) = BitVec.ofBool b := by
  cases b <;> rfl

theorem extract_one (w : Word) (k : Nat) : w.extractLsb' k 1 = BitVec.ofBool (w.getLsbD k) := by
  ext i hi
  obtain rfl : i = 0 := by omega
  simp

/-- The fields of format L, bits 27:2 being zero. -/
theorem word_eq_formatL (w : Word) (hz : w.extractLsb' 2 26 = 0#26) :
    w = placeField (w.extractLsb' 28 4) 28 ||| placeField (bitOfLine (lineOfBit (w.getLsbD 1))) 1 |||
      placeField (w.extractLsb' 0 1) 0 := by
  have hw := word_eq_opcode_rest w
  rw [placeField_extract_split w 0 26 2, hz, placeField_zero, BitVec.zero_or, placeField_extract_split w 0 1 1,
    extract_one w (0 + 1), ← BitVec.or_assoc] at hw
  rw [bitOfLine_lineOfBit]
  exact hw

section
variable {w : Word} {op : BitVec 4} {j : Instr}

theorem encode_of_decodeN {i : Instr} (ho : w.extractLsb' 28 4 = op)
    (h : decodeN w i = .ok j) (he : i.wf = true ∧ encode i = placeField op 28) : j.wf = true ∧ encode j = w := by
  obtain ⟨hz, rfl⟩ := checked_eq_ok.1 h
  have hw := word_eq_opcode_rest w
  rw [ho, hz, placeField_zero, BitVec.or_zero] at hw
  exact hw ▸ he

theorem encode_of_decodeL {make : Line → Bool → Instr} (ho : w.extractLsb' 28 4 = op)
    (h : decodeL w make = .ok j)
    (he : ∀ line val, (make line val).wf = true ∧
      encode (make line val) =
        placeField op 28 ||| placeField (bitOfLine line) 1 ||| placeField (BitVec.ofBool val) 0) :
    j.wf = true ∧ encode j = w := by
  obtain ⟨hz, rfl⟩ := checked_eq_ok.1 h
  obtain ⟨hwf, hj⟩ := he (lineOfBit (w.getLsbD 1)) (w.getLsbD 0)
  have hw := word_eq_formatL w hz
  rw [ho, extract_one w 0] at hw
  exact ⟨hwf, hj.trans hw.symm⟩

theorem encode_of_decodeLineOnly {make : Line → Instr} (ho : w.extractLsb' 28 4 = op)
    (h : decodeLineOnly w make = .ok j)
    (he : ∀ line, (make line).wf = true ∧ encode (make line) = placeField op 28 ||| placeField (bitOfLine line) 1) :
    j.wf = true ∧ encode j = w := by
  obtain ⟨⟨hz, hval⟩, rfl⟩ := checked_eq_ok.1 h
  obtain ⟨hwf, hj⟩ := he (lineOfBit (w.getLsbD 1))
  have hw := word_eq_formatL w hz
  rw [ho, hval, placeField_zero, BitVec.or_zero] at hw
  exact ⟨hwf, hj.trans hw.symm⟩

/-- The fields of format V, bits 27:8 being zero. -/
theorem word_eq_formatV (w : Word) (hz : w.extractLsb' 8 20 = 0#20) :
    w = placeField (w.extractLsb' 28 4) 28 ||| placeField (w.extractLsb' 0 8) 0 := by
  have hw := word_eq_opcode_rest w
  rw [placeField_extract_split w 0 20 8, hz, placeField_zero, BitVec.zero_or] at hw
  exact hw

theorem encode_of_decodeV {make : Byte → Instr} (ho : w.extractLsb' 28 4 = op)
    (h : decodeV w make = .ok j)
    (he : ∀ value, (make value).wf = true ∧ encode (make value) = placeField op 28 ||| placeField value 0) :
    j.wf = true ∧ encode j = w := by
  obtain ⟨hz, rfl⟩ := checked_eq_ok.1 h
  obtain ⟨hwf, hj⟩ := he (w.extractLsb' 0 8)
  exact ⟨hwf, hj.trans (ho ▸ word_eq_formatV w hz).symm⟩

/-- Bits 27:1 being zero, so are bits 27:8, and the value in bits 7:0 is 0 or 1 (30_encoding.md R93). -/
theorem formatBit_fields (w : Word) (hz : w.extractLsb' 1 27 = 0#27) :
    w.extractLsb' 8 20 = 0#20 ∧ w.extractLsb' 0 8 < 2#8 := by
  have hbit (k : Nat) (h1 : 1 ≤ k) (h2 : k < 28) : w.getLsbD k = false := by
    have hk := congrArg (fun v : BitVec 27 => v.getLsbD (k - 1)) hz
    simpa [show k - 1 < 27 by omega, show 1 + (k - 1) = k by omega] using hk
  constructor
  · ext i hi
    simp [hbit (8 + i) (by omega) (by omega)]
  · have hvalue : w.extractLsb' 0 8 = (BitVec.ofBool (w.getLsbD 0)).setWidth 8 := by
      ext i hi
      by_cases h0 : i = 0
      · simp [h0]
      · simp [hbit i (by omega) (by omega), h0]
    rw [hvalue]
    cases w.getLsbD 0 <;> decide

theorem encode_of_decodeBit {make : Byte → Instr} (ho : w.extractLsb' 28 4 = op)
    (h : decodeBit w make = .ok j)
    (he : ∀ value, value < 2#8 → (make value).wf = true ∧
      encode (make value) = placeField op 28 ||| placeField value 0) :
    j.wf = true ∧ encode j = w := by
  obtain ⟨hz, rfl⟩ := checked_eq_ok.1 h
  obtain ⟨hhigh, hlt⟩ := formatBit_fields w hz
  obtain ⟨hwf, hj⟩ := he _ hlt
  exact ⟨hwf, hj.trans (ho ▸ word_eq_formatV w hhigh).symm⟩

theorem setWidth_address_lt (a : BitVec 7) : a.setWidth 8 < 0x80#8 := by
  revert a
  decide

/-- The fields of format T, bit 27 and bits 3:0 being zero. -/
theorem word_eq_formatT (w : Word) (h27 : w.extractLsb' 27 1 = 0#1) (hlow : w.extractLsb' 0 4 = 0#4) :
    w = wordT (w.extractLsb' 28 4) ((w.extractLsb' 20 7).setWidth 8) (w.extractLsb' 12 8) (w.extractLsb' 4 8) := by
  have hw := word_eq_opcode_rest w
  rw [placeField_extract_split w 0 1 27, placeField_extract_split w 0 7 20, placeField_extract_split w 0 8 12,
    placeField_extract_split w 0 8 4, h27, hlow, placeField_zero, placeField_zero, BitVec.zero_or, BitVec.or_zero,
    ← BitVec.or_assoc, ← BitVec.or_assoc] at hw
  rw [wordT, placeField_setWidth _ _ (by decide)]
  exact hw

theorem encode_of_decodeT {make : Byte → Byte → Byte → Instr} (ho : w.extractLsb' 28 4 = op)
    (h : decodeT w make = .ok j)
    (he : ∀ addr reg count, addr < 0x80#8 → (make addr reg count).wf = true ∧
      encode (make addr reg count) = wordT op addr reg count) :
    j.wf = true ∧ encode j = w := by
  obtain ⟨⟨h27, hlow⟩, rfl⟩ := checked_eq_ok.1 h
  obtain ⟨hwf, hj⟩ := he _ (w.extractLsb' 12 8) (w.extractLsb' 4 8) (setWidth_address_lt (w.extractLsb' 20 7))
  exact ⟨hwf, hj.trans (ho ▸ word_eq_formatT w h27 hlow).symm⟩

end

/-- A word that decodes is the word of a well-formed command, the one it decodes to. -/
theorem encode_of_decode (w : Word) (i : Instr) (h : decode w = .ok i) : i.wf = true ∧ encode i = w := by
  obtain ⟨-, hd⟩ | ⟨op, hd⟩ | ⟨op, hd⟩ | ⟨op, hd⟩ | ⟨op, hd⟩ | ⟨op, hd⟩ | ⟨op, hd⟩ | ⟨op, hd⟩ | ⟨op, hd⟩ |
    ⟨op, hd⟩ | ⟨op, hd⟩ | ⟨op, hd⟩ | ⟨op, hd⟩ | ⟨op, hd⟩ | ⟨-, hd⟩ | ⟨-, hd⟩ := decode_cases w <;> rw [hd] at h
  · cases h
  · exact encode_of_decodeL op h (fun _ _ => ⟨rfl, rfl⟩)
  · exact encode_of_decodeL op h (fun _ val => ⟨rfl, by rw [encode, bitOfDir_dirOfBit]⟩)
  · exact encode_of_decodeLineOnly op h (fun _ => ⟨rfl, rfl⟩)
  · exact encode_of_decodeN op h ⟨rfl, rfl⟩
  · exact encode_of_decodeN op h ⟨rfl, rfl⟩
  · exact encode_of_decodeBit op h (fun _ hlt => ⟨decide_eq_true hlt, rfl⟩)
  · exact encode_of_decodeN op h ⟨rfl, rfl⟩
  · exact encode_of_decodeV op h (fun _ => ⟨rfl, rfl⟩)
  · exact encode_of_decodeN op h ⟨rfl, rfl⟩
  · exact encode_of_decodeN op h ⟨rfl, rfl⟩
  · exact encode_of_decodeN op h ⟨rfl, rfl⟩
  · exact encode_of_decodeT op h (fun _ _ _ hlt => ⟨decide_eq_true hlt, rfl⟩)
  · exact encode_of_decodeT op h (fun _ _ _ hlt => ⟨decide_eq_true hlt, rfl⟩)
  · cases h
  · cases h

/-! ## The rows of the opcode map (30_encoding.md R97) -/

/-- The word of every well-formed command selects the command's row. -/
theorem encode_selects_row (i : Instr) : Laws.EncodeOpcode.Statement i := by
  cases i with
  | setLine line level => exact Laws.EncodeOpcode.setLine line level
  | setDir line dir => exact Laws.EncodeOpcode.setDir line dir
  | readLine line => exact Laws.EncodeOpcode.readLine line
  | waitHalf => exact Laws.EncodeOpcode.waitHalf
  | waitFull => exact Laws.EncodeOpcode.waitFull
  | sendBit value => exact Laws.EncodeOpcode.sendBit value
  | readBit => exact Laws.EncodeOpcode.readBit
  | sendByte value => exact Laws.EncodeOpcode.sendByte value
  | readByte => exact Laws.EncodeOpcode.readByte
  | start => exact Laws.EncodeOpcode.start
  | stop => exact Laws.EncodeOpcode.stop
  | writeBlock addr reg count => exact Laws.EncodeOpcode.writeBlock addr reg count
  | readBlock addr reg count => exact Laws.EncodeOpcode.readBlock addr reg count

/-- A field that the row's mask covers holds, in a word that selects the row, what it holds in the row's bits. -/
theorem field_of_selected {w mask bits : Word} (h : w &&& mask = bits) (lo n : Nat) {v : BitVec n}
    (hf : mask.extractLsb' lo n = BitVec.allOnes n ∧ bits.extractLsb' lo n = v) : w.extractLsb' lo n = v := by
  obtain ⟨hmask, hbits⟩ := hf
  rw [← hbits, ← h, BitVec.extractLsb'_and, hmask, BitVec.and_allOnes]

/-- Every row's mask covers the opcode (30_encoding.md R97). -/
theorem opcodeRow_mask_opcode (i : Instr) : (opcodeRow i).mask.extractLsb' 28 4 = BitVec.allOnes 4 := by
  cases i <;> simp only [opcodeRow] <;> decide

/-- A word that selects a row has the row's opcode and zeros where the row's format has them, so it decodes. -/
theorem decode_of_selected (w : Word) (i : Instr) (h : w &&& (opcodeRow i).mask = (opcodeRow i).bits) :
    ∃ j, decode w = .ok j ∧ opcodeRow j = opcodeRow i := by
  have op := field_of_selected h 28 4 ⟨opcodeRow_mask_opcode i, rfl⟩
  cases i with
  | setLine line level =>
    dsimp only [opcodeRow] at h
    have hd : decode w = decodeL w (fun line val => .setLine line val) := by simp [decode, op, opcodeRow]
    exact ⟨_, hd.trans (checked_eq_ok.2 ⟨field_of_selected h 2 26 (by decide), rfl⟩), rfl⟩
  | setDir line dir =>
    dsimp only [opcodeRow] at h
    have hd : decode w = decodeL w (fun line val => .setDir line (dirOfBit val)) := by simp [decode, op, opcodeRow]
    exact ⟨_, hd.trans (checked_eq_ok.2 ⟨field_of_selected h 2 26 (by decide), rfl⟩), rfl⟩
  | readLine line =>
    dsimp only [opcodeRow] at h
    have hd : decode w = decodeLineOnly w (fun line => .readLine line) := by simp [decode, op, opcodeRow]
    have hz : w.extractLsb' 2 26 = 0#26 ∧ w.extractLsb' 0 1 = 0#1 :=
      ⟨field_of_selected h 2 26 (by decide), field_of_selected h 0 1 (by decide)⟩
    exact ⟨_, hd.trans (checked_eq_ok.2 ⟨hz, rfl⟩), rfl⟩
  | sendBit value =>
    dsimp only [opcodeRow] at h
    have hd : decode w = decodeBit w (fun value => .sendBit value) := by simp [decode, op, opcodeRow]
    exact ⟨_, hd.trans (checked_eq_ok.2 ⟨field_of_selected h 1 27 (by decide), rfl⟩), rfl⟩
  | sendByte value =>
    dsimp only [opcodeRow] at h
    have hd : decode w = decodeV w (fun value => .sendByte value) := by simp [decode, op, opcodeRow]
    exact ⟨_, hd.trans (checked_eq_ok.2 ⟨field_of_selected h 8 20 (by decide), rfl⟩), rfl⟩
  | writeBlock addr reg count =>
    dsimp only [opcodeRow] at h
    have hd : decode w = decodeT w (fun addr reg count => .writeBlock addr reg count) := by simp [decode, op, opcodeRow]
    have hz : w.extractLsb' 27 1 = 0#1 ∧ w.extractLsb' 0 4 = 0#4 :=
      ⟨field_of_selected h 27 1 (by decide), field_of_selected h 0 4 (by decide)⟩
    exact ⟨_, hd.trans (checked_eq_ok.2 ⟨hz, rfl⟩), rfl⟩
  | readBlock addr reg count =>
    dsimp only [opcodeRow] at h
    have hd : decode w = decodeT w (fun addr reg count => .readBlock addr reg count) := by simp [decode, op, opcodeRow]
    have hz : w.extractLsb' 27 1 = 0#1 ∧ w.extractLsb' 0 4 = 0#4 :=
      ⟨field_of_selected h 27 1 (by decide), field_of_selected h 0 4 (by decide)⟩
    exact ⟨_, hd.trans (checked_eq_ok.2 ⟨hz, rfl⟩), rfl⟩
  | waitHalf | waitFull | readBit | readByte | start | stop =>
    have hz : w.extractLsb' 0 28 = 0#28 := field_of_selected h 0 28 (by decide)
    refine ⟨_, ?_, rfl⟩
    simp [decode, decodeN, op, hz, opcodeRow]

/-- The decoder finds the opcode reserved exactly when it is 0x0, 0xE or 0xF: every other one has a format, and a
format only ever rejects a word for a bit it marks 0 (30_encoding.md R98, R99). -/
theorem decode_reserved_iff (w : Word) :
    w.extractLsb' 28 4 = 0x0#4 ∨ w.extractLsb' 28 4 = 0xE#4 ∨ w.extractLsb' 28 4 = 0xF#4 ↔
      decode w = .error .reservedOpcode := by
  constructor
  · rintro (op | op | op) <;> simp [decode, op]
  · intro h
    obtain ⟨op, -⟩ | ⟨-, hd⟩ | ⟨-, hd⟩ | ⟨-, hd⟩ | ⟨-, hd⟩ | ⟨-, hd⟩ | ⟨-, hd⟩ | ⟨-, hd⟩ | ⟨-, hd⟩ | ⟨-, hd⟩ |
      ⟨-, hd⟩ | ⟨-, hd⟩ | ⟨-, hd⟩ | ⟨-, hd⟩ | ⟨op, -⟩ | ⟨op, -⟩ := decode_cases w
    · exact .inl op
    iterate 13 exact absurd (hd.symm.trans h) checked_ne_reserved
    · exact .inr (.inl op)
    · exact .inr (.inr op)

end Sys2Proof

/-! ## What the port does with the words (30_encoding.md R95, R98, R100) -/

namespace Sys2Proof.Machine

theorem State.rejectWord_idle (s : State) (hb : s.busy = false) : s.rejectWord = .next s.refuse :=
  s.issue_illegal [] hb

theorem isPrimitive_of_not_block {i : Instr}
    (h : ∀ addr reg count, i ≠ .writeBlock addr reg count ∧ i ≠ .readBlock addr reg count) : isPrimitive i = true := by
  cases i with
  | writeBlock addr reg count => exact absurd rfl (h addr reg count).1
  | readBlock addr reg count => exact absurd rfl (h addr reg count).2
  | _ => rfl

theorem not_legal_of_hidden {i : Instr} {s : State} (hp : isPrimitive i = true) (he : s.cfg.primExposed = false) :
    ¬ Legal i s := by
  rintro ⟨⟨-, hexposed⟩, -⟩
  simp [hexposed hp] at he

/-- The address byte of a seven-bit address as a number (30_encoding.md R95). -/
theorem addrByte_toNat (addr : Byte) (rw : Rw) (h : addr < 0x80#8) :
    (addrByte addr rw).toNat = 2 * addr.toNat + (rwBit rw).toNat := by
  have ha : addr.toNat < 128 := h
  have hbit : (rwBit rw).toNat < 2 ^ 1 := by cases rw <;> decide
  calc (addrByte addr rw).toNat = addr.toNat <<< 1 % 256 ||| (rwBit rw).toNat := by
        rw [addrByte, BitVec.toNat_or, BitVec.toNat_shiftLeft]
    _ = addr.toNat <<< 1 + (rwBit rw).toNat := by
        rw [Nat.shiftLeft_add_eq_or_of_lt hbit, Nat.mod_eq_of_lt (by omega)]
    _ = _ := by rw [Nat.shiftLeft_eq]; omega

end Sys2Proof.Machine
end

section
/-! PROOFS. The statements of 30_encoding.md. -/

namespace Sys2Proof.Machine

/-- Settles O2. -/
theorem decodeInvertsEncode : Obligations.DecodeInvertsEncode := by
  unfold Obligations.DecodeInvertsEncode
  exact decode_encode

/-- Settles O3: the word is put together again from its fields, format by format. -/
theorem encodeInvertsDecode : Obligations.EncodeInvertsDecode := by
  unfold Obligations.EncodeInvertsDecode
  exact encode_of_decode

/-- Settles O4: a word that decodes is its command's own word, and a word that selects a row has the row's opcode. -/
theorem decodeFollowsOpcodeMap : Obligations.DecodeFollowsOpcodeMap := by
  unfold Obligations.DecodeFollowsOpcodeMap
  refine ⟨fun w i h => ?_, decode_of_selected⟩
  obtain ⟨hwf, rfl⟩ := encode_of_decode w i h
  exact encode_selects_row i hwf

/-- Settles O17: the port issues nothing for the word, which an idle block answers as a misuse. -/
theorem undecodableWordIsRefused : Obligations.UndecodableWordIsRefused := by
  unfold Obligations.UndecodableWordIsRefused
  intro s w rest r hin hb hd
  calc step s = State.issueWord w { s with inputs := rest } := step_take s _ rest hin
    _ = State.rejectWord { s with inputs := rest } := State.issueWord_error _ w r hd
    _ = _ := State.rejectWord_idle { s with inputs := rest } hb

/-- Settles O5: the three opcodes are the ones without a format, and their words do not decode. -/
theorem reservedOpcodesAreRefused : Obligations.ReservedOpcodesAreRefused := by
  unfold Obligations.ReservedOpcodesAreRefused
  exact ⟨decode_reserved_iff, fun s w rest hin hb op =>
    undecodableWordIsRefused s w rest _ hin hb ((decode_reserved_iff w).1 op)⟩

/-- Settles O19: a hidden primitive fails the row check; a block command's checks are the conditions given. -/
theorem hiddenPrimitivesAreRefused : Obligations.HiddenPrimitivesAreRefused := by
  unfold Obligations.HiddenPrimitivesAreRefused
  intro i s hb he
  refine ⟨fun hi => exec_illegal i s hb (not_legal_of_hidden (isPrimitive_of_not_block hi) he), ?_⟩
  intro addr reg count hi ha hidle hscl hsda h1 hmax
  have hblock := (s.blockLegal_iff addr count).2 ⟨ha, ⟨hscl, hsda⟩, hidle, h1, hmax⟩
  have hl : Legal i s := by
    obtain rfl | rfl := hi <;> exact (commandLegal_iff _ s).1 hblock
  exact legalCommandIsAccepted i s hb hl

/-- Settles O1: each word is evaluated. -/
theorem workedWordsDecode : Obligations.WorkedWordsDecode := by
  unfold Obligations.WorkedWordsDecode
  decide

/-- Settles O6: the direction is the bit the shifted address leaves free. -/
theorem addressByteLayout : Obligations.AddressByteLayout := by
  unfold Obligations.AddressByteLayout
  exact fun addr h => ⟨addrByte_toNat addr .write h, addrByte_toNat addr .read h⟩

end Sys2Proof.Machine
end

section
/-! SUPPORT. What every step keeps of the invariant, why a step always answers, and a command that is one
micro-operation. -/

namespace Sys2Proof.Machine

/-! ## `linesSafe` at the next micro-operation (10_state.md R24, 40_line_driver.md R124) -/

/-- The micro-operation's own `require` holds, both lines are outputs where it may call for a STOP or a repeated byte,
and the rest is safe from the lines it leaves. -/
theorem linesSafe_cons (x : Lines) (m : Micro) (rest : List Micro) :
    linesSafe x (m :: rest) = true ↔
      m.allowed x = true ∧ ((∃ policy, m.post = .ackEnd policy) → (m.linesAfter x).bothOut = true) ∧
        linesSafe (m.linesAfter x) rest = true := by
  have hw (l : Line) (v : Level) : linesSafe (x.setOut l v) rest = linesSafe x rest :=
    (linesSafe_congr rest _ _ (x.sameDirs_setOut l v)).symm
  obtain ⟨op, p⟩ := m
  cases p with
  | ackEnd policy => cases op <;> simp [linesSafe, Micro.allowed, Micro.linesAfter, hw, and_assoc]
  | _ => cases op <;> simp [linesSafe, Micro.allowed, Micro.linesAfter, hw]

/-- Every command's procedure is safe from the lines its legality asks for (60_exceptions.md R223 check 2). -/
theorem linesSafe_commandProc {i : Instr} {s : State} (hl : Legal i s) :
    linesSafe s.lines (commandProc i s) = true := by
  obtain ⟨-, hd, -⟩ := hl
  cases i with
  | setLine line level => simpa [commandProc, setLineProc, linesSafe, plain, directionCheck] using hd
  | readLine line => simpa [commandProc, readLineProc, linesSafe, directionCheck] using hd
  | setDir | waitHalf | waitFull => rfl
  | sendBit value => exact (linesSafe_sendBit _ _ ((Lines.bothOut_iff _).2 hd)).1
  | readBit => simp [commandProc, readBitProc, linesSafe, plain, hd.1, hd.2]
  | sendByte value => exact (linesSafe_sendByte value _ _ ((Lines.bothOut_iff _).2 hd)).1
  | readByte => exact (linesSafe_readByte _ _ (by simp) hd).1
  | start => exact (linesSafe_start _ ((Lines.bothOut_iff _).2 hd)).1
  | stop => exact linesSafe_stop _ _ ((Lines.bothOut_iff _).2 hd)
  | writeBlock addr reg count => exact linesSafe_writeBlock _ _ _ _ _ ((Lines.bothOut_iff _).2 hd)
  | readBlock addr reg count => exact linesSafe_readBlock _ _ _ _ _ ((Lines.bothOut_iff _).2 hd)

/-! ## What the end of a micro-operation keeps of the invariant -/

theorem Lines.sameDirs_of_bothOut {x y : Lines} (hx : x.bothOut = true) (hy : y.bothOut = true) : x.SameDirs y := by
  obtain ⟨hxc, hxd⟩ := (Lines.bothOut_iff x).1 hx
  obtain ⟨hyc, hyd⟩ := (Lines.bothOut_iff y).1 hy
  exact ⟨hxc.trans hyc.symm, hxd.trans hyd.symm⟩

/-- Whatever an acknowledgement decides, what remains of SEQ is safe. -/
theorem State.retire_linesSafe (tok : Token) (p : Post) (rest : List Micro) (x : State)
    (hrest : linesSafe x.lines rest = true) (hack : (∃ policy, p = .ackEnd policy) → x.lines.bothOut = true) :
    linesSafe (x.retire tok p rest).lines (x.retire tok p rest).seq.todo = true := by
  obtain ⟨-, hl, -⟩ := State.retire_frame tok p rest x
  rw [hl]
  obtain h | ⟨hp, ⟨v, att, h⟩ | h⟩ := State.retire_todo tok p rest x <;> rw [h]
  · exact hrest
  · have hout := hack hp
    obtain ⟨hbyte, hafter⟩ := linesSafe_sendByte v (.data v att) x.lines hout
    rw [linesSafe_append, hbyte, linesSafe_congr rest _ _ (Lines.sameDirs_of_bothOut hafter hout), hrest, Bool.and_self]
  · exact linesSafe_stop _ _ (hack hp)

theorem State.retire_rxbuf_wf (tok : Token) (p : Post) (rest : List Micro) (x : State) (h : x.rxbuf.wf = true) :
    (x.retire tok p rest).rxbuf.wf = true := by
  obtain ⟨y, ⟨-, -, hy⟩, -, -, hr⟩ := State.retire_results tok p rest x
  rw [← hy] at h
  rw [hr]
  by_cases hsame : (y.applyPost p).rxbuf = y.rxbuf
  · rw [hsame, h]
  · obtain ⟨i, rfl⟩ := State.applyPost_rxbuf p y hsame
    exact Memory.write_wf _ i _ h

/-- A command that ends leaves nothing in SEQ (10_state.md R30). -/
theorem State.finish_idle (s : State) (h : s.finish.seq.todo = []) : s.finish.seq = Seq.idle := by
  rw [State.finish_todo] at h
  rw [State.finish_ended s h]

/-! ## What a controller's step keeps of the invariant -/

/-- A micro-operation that ends, the environment and the pins apart, keeps the invariant; `x` is the state in which
it has had its effect. -/
theorem State.Inv.retire {s x : State} {m : Micro} {rest : List Micro} (hs : s.Inv) (hm : s.seq.todo = m :: rest)
    (tok : Token) (hcfg : x.cfg = s.cfg) (htx : x.txbuf = s.txbuf) (hrx : x.rxbuf = s.rxbuf)
    (hl : x.lines = m.linesAfter s.lines) (ht : x.timer = 0)
    (hf : HistoryFollows s (x.retire tok m.post rest)) : (x.retire tok m.post rest).Inv := by
  obtain ⟨rcfg, -, rtimer, rtx, -⟩ := State.retire_frame tok m.post rest x
  have hsafe := hs.lines
  rw [hm, linesSafe_cons, ← hl] at hsafe
  obtain ⟨-, hack, hrest⟩ := hsafe
  exact {
    cfg := by rw [rcfg, hcfg, hs.cfg]
    txbuf := by rw [rtx, htx, hs.txbuf]
    rxbuf := State.retire_rxbuf_wf _ _ _ x (hrx ▸ hs.rxbuf)
    lines := State.retire_linesSafe _ _ _ x hrest hack
    timer := .inl (rtimer.trans ht)
    idle := State.finish_idle _
    pins := hf.head hs.pins
    merged := hf.merged hs.merged }

/-- Where the next micro-operation is no wait, TIMER is 0. -/
theorem State.timerSafe.eq_zero {s : State} {m : Micro} {rest : List Micro} (h : s.timerSafe)
    (hm : s.seq.todo = m :: rest) (hw : ¬ (m.op = .h ∨ m.op = .f)) : s.timer = 0 := by
  obtain h0 | ⟨m', rest', hm', hop⟩ := h
  · exact h0
  · obtain ⟨rfl, -⟩ := List.cons.inj (hm.symm.trans hm')
    exact absurd (hop.imp And.left And.left) hw

/-- TIMER, once it runs, may go down. -/
theorem State.timerSafe.down {s : State} (h : s.timerSafe) (n : Nat) (hn : n < s.timer) :
    State.timerSafe { s with timer := n } := by
  obtain h0 | ⟨m, rest, hm, ⟨hop, hlt⟩ | ⟨hop, hlt⟩⟩ := h
  · omega
  · exact .inr ⟨m, rest, hm, .inl ⟨hop, hn.trans hlt⟩⟩
  · exact .inr ⟨m, rest, hm, .inr ⟨hop, hn.trans hlt⟩⟩

/-- A wait loads TIMER below its length (10_state.md R26). -/
theorem State.timerSafe_loaded {s : State} {m : Micro} {rest : List Micro} (hm : s.seq.todo = m :: rest)
    (hw : m.op = .h ∨ m.op = .f) (n : Nat) (hn : n < microTicks s.cfg m.op) :
    State.timerSafe { s.settle with timer := n } := by
  obtain h | h := hw <;> rw [h] at hn
  · exact .inr ⟨m, rest, hm, .inl ⟨h, hn⟩⟩
  · exact .inr ⟨m, rest, hm, .inr ⟨h, hn⟩⟩

theorem TickCase.keeps_inv {s t : State} (h : TickCase s t) (hs : s.Inv) : t.Inv := by
  have hf := h.historyFollows
  cases h with
  | idle => exact hs
  | waitBegun m rest n hm hw hn =>
    exact { hs with
      timer := State.timerSafe_loaded hm hw n hn
      pins := hf.head hs.pins
      merged := hf.merged hs.merged }
  | waiting n hn => exact { hs with timer := hs.timer.down n hn }
  | waitEnded m rest hm hw =>
    have hl : s.lines = m.linesAfter s.lines := by obtain h | h := hw <;> simp [Micro.linesAfter, h]
    exact hs.retire (x := { s with timer := 0 }) hm _ rfl rfl rfl hl rfl hf
  | performed m rest bit hm ht =>
    have h0 : s.timer = 0 := by
      by_cases hw : m.op = .h ∨ m.op = .f
      · exact ht hw
      · exact hs.timer.eq_zero hm hw
    exact hs.retire (x := { s.settle with lines := m.linesAfter s.lines, seq := { s.seq with bit := bit } })
      hm _ rfl rfl rfl rfl h0 hf

/-! ## What a step of the machine keeps of the invariant -/

/-- What the outside does next is no part of the invariant. -/
theorem State.Inv.withInputs {s : State} (hs : s.Inv) (rest : List Input) : State.Inv { s with inputs := rest } :=
  { hs with }

/-- With no command running TIMER is 0. -/
theorem State.Inv.timer_idle {s : State} (hs : s.Inv) (hb : s.busy = false) : s.timer = 0 := by
  obtain h0 | ⟨m, rest, hm, -⟩ := hs.timer
  · exact h0
  · simp [s.not_busy_iff.1 hb] at hm

theorem State.Inv.accept {i : Instr} {s : State} (hs : s.Inv) (hb : s.busy = false) (hl : Legal i s) :
    (s.accept (commandProc i s)).Inv :=
  { hs with
    lines := linesSafe_commandProc hl
    timer := .inl (hs.timer_idle hb)
    idle := fun h => absurd h (commandProc_ne_nil i s) }

/-- The reset event meets the invariant with the parameters it keeps, whatever ran before (10_state.md R39). -/
theorem State.resetEvent_inv (s : State) (hc : s.cfg.legal = true) : s.resetEvent.Inv :=
  { resetMeetsInvariant s.cfg hc with }

theorem StepCase.keeps_inv {s t : State} (h : StepCase s t) (hs : s.Inv) : t.Inv := by
  cases h with
  | tick rest ht => exact (State.tick_case _ _ ht).keeps_inv (hs.withInputs rest)
  | taken rest => exact hs.withInputs rest
  | accepted w rest i hin hb hd hl => exact (hs.withInputs rest).accept hb hl
  | refused | read => exact { hs with }
  | stored num val rest hin hb => exact { hs with txbuf := Memory.write_wf _ _ _ hs.txbuf }
  | driven d rest =>
    exact { hs with
      pins := recordPins_head _ _
      merged := recordPins_merged _ _ hs.merged }
  | reset rest hin => exact State.resetEvent_inv _ hs.cfg

/-! ## Why a step always answers -/

/-- The internal requires of `uW` and `uS` hold where SEQ is safe (40_line_driver.md R124). -/
theorem State.tick_total (s : State) (h : linesSafe s.lines s.seq.todo = true) : ∃ t, s.tick = .next t := by
  cases hm : s.seq.todo with
  | nil => exact ⟨s, s.tick_idle hm⟩
  | cons m rest =>
    rw [hm, linesSafe_cons] at h
    obtain ⟨ha, -⟩ := h
    obtain ⟨op, p⟩ := m
    cases op with
    | w l v => exact ⟨_, s.tick_write l v p rest hm (of_decide_eq_true ha)⟩
    | t l d => exact ⟨_, s.tick_turn l d p rest hm⟩
    | s l => exact ⟨_, s.tick_sample l p rest hm (of_decide_eq_true ha)⟩
    | h | f => simp [State.tick, hm]

theorem State.issueWord_total (w : Word) (s : State) : ∃ t, s.issueWord w = .next t := by
  cases hd : decode w with
  | ok i =>
    rw [s.issueWord_ok w i hd, exec_eq_issue]
    exact s.issue_total _ _
  | error r =>
    rw [s.issueWord_error w r hd]
    exact s.issue_total _ _

theorem State.writePort_total (num : Nat) (val : Word) (s : State) : ∃ t, s.writePort num val = .next t := by
  unfold State.writePort
  split
  · exact s.issueWord_total val
  · split <;> exact ⟨_, rfl⟩

/-- Whatever the outside does next, it has an answer where SEQ is safe. -/
theorem State.take_total (x : Input) (s : State) (h : linesSafe s.lines s.seq.todo = true) :
    ∃ t, s.take x = .next t := by
  cases x with
  | write num val => exact s.writePort_total num val
  | await =>
    simp only [State.take]
    split
    · exact State.tick_total { s with inputs := .await :: s.inputs } h
    · exact ⟨_, rfl⟩
  | pass => exact s.tick_total h
  | read | drive | reset => exact ⟨_, rfl⟩

/-! ## The four line bits (10_state.md R20) -/

/-- The line bits `y` are `x` with one latch or one direction written, or `x` itself. -/
def Lines.OneBitWritten (x y : Lines) : Prop :=
  y = x ∨ (∃ l v, y = x.setOut l v) ∨ ∃ l d, y = x.setDir l d

theorem Micro.linesAfter_oneBitWritten (m : Micro) (x : Lines) : x.OneBitWritten (m.linesAfter x) := by
  obtain ⟨op, p⟩ := m
  cases op with
  | w l v => exact .inr (.inl ⟨l, v, rfl⟩)
  | t l d => exact .inr (.inr ⟨l, d, rfl⟩)
  | s | h | f => exact .inl rfl

theorem TickCase.oneBitWritten {s t : State} (h : TickCase s t) : s.lines.OneBitWritten t.lines := by
  cases h with
  | idle | waitBegun | waiting => exact .inl rfl
  | waitEnded m rest hm hw =>
    obtain ⟨-, hl, -⟩ := State.retire_frame (m.token s.env) m.post rest { s with timer := 0 }
    exact .inl hl
  | performed m rest bit hm =>
    obtain ⟨-, hl, -⟩ := State.retire_frame (m.token s.env) m.post rest
      { s.settle with lines := m.linesAfter s.lines, seq := { s.seq with bit := bit } }
    rw [hl]
    exact m.linesAfter_oneBitWritten s.lines

/-! ## A command that is one micro-operation -/

/-- A micro-operation that is no wait and decides nothing has its whole effect in one tick. -/
theorem State.tick_eq_effect (s : State) (m : Micro) (rest : List Micro) (hm : s.seq.todo = m :: rest)
    (hs : m.straight = true) (ha : m.allowed s.lines = true) (hw : ¬ (m.op = .h ∨ m.op = .f)) :
    s.tick = .next (State.finish ((s.effect m).setTodo rest)) := by
  rw [← State.effect_setTodo s m rest hs]
  obtain ⟨op, p⟩ := m
  cases op with
  | w l v => exact s.tick_write l v p rest hm (of_decide_eq_true ha)
  | t l d => exact s.tick_turn l d p rest hm
  | s l => exact s.tick_sample l p rest hm (of_decide_eq_true ha)
  | h => exact absurd (.inl rfl) hw
  | f => exact absurd (.inr rfl) hw

/-- An accepted command of one micro-operation, no wait, ends with its first step, whatever the parameters are. -/
theorem run_single (s : State) (m : Micro) (q : s.Quiet) (hs : m.straight = true) (ha : m.allowed s.lines = true)
    (hw : ¬ (m.op = .h ∨ m.op = .f)) :
    ∃ wl, run 1 (s.accept [m]) = .next { s.ended 1 [m.token s.env] wl .ok with
      lines := m.linesAfter s.lines
      shreg := (Regs.after s.env { s.regs with bit := false } m).shreg
      tstate := (Regs.after s.env { s.regs with bit := false } m).tstate
      rdata := (Regs.after s.env { s.regs with bit := false } m).rdata
      rxbuf := (Regs.after s.env { s.regs with bit := false } m).rxbuf } := by
  obtain ⟨hseq, -, hin⟩ := q
  obtain ⟨wl, h⟩ := State.effect_eq (s.accept [m]) m hs
  refine ⟨wl, ?_⟩
  rw [run_one, step_quiet (s.accept [m]) hin, State.tick_eq_effect (s.accept [m]) m [] rfl hs ha hw, h]
  simp only [State.finish, State.setTodo, State.moved, State.setRegs, State.accept, State.ended, hseq]
  rfl

end Sys2Proof.Machine
end

section
/-! PROOFS. The statements of 40_line_driver.md. -/

namespace Sys2Proof.Machine

/-- Settles O10: every case of a step keeps every clause; a retried byte and the STOP of an error exit stand where both
lines are outputs, so SEQ stays safe. -/
theorem stepKeepsInvariant : Obligations.StepKeepsInvariant := by
  unfold Obligations.StepKeepsInvariant
  exact fun s t hs h => (step_case s t h).keeps_inv hs

/-- Settles O11: the invariant's clause about SEQ is the `require` of the next micro-operation. -/
theorem invariantStateAlwaysSteps : Obligations.InvariantStateAlwaysSteps := by
  unfold Obligations.InvariantStateAlwaysSteps
  intro s hs
  cases hin : s.inputs with
  | nil =>
    rw [step_quiet s hin]
    exact s.tick_total hs.lines
  | cons x rest =>
    rw [step_take s x rest hin]
    exact State.take_total x { s with inputs := rest } hs.lines

/-- Settles O50: only the controller's step and the reset event touch the line bits. -/
theorem atMostOneLineBitPerStep : Obligations.AtMostOneLineBitPerStep := by
  unfold Obligations.AtMostOneLineBitPerStep
  intro s t h hr
  cases step_case s t h with
  | tick rest ht => exact (State.tick_case _ _ ht).oneBitWritten
  | reset rest hin => exact absurd (by rw [hin]; rfl) hr
  | taken | accepted | refused | stored | read | driven => exact .inl rfl

/-- Settles O25: the one micro-operation writes the latch; on an input the direction check fails. -/
theorem setLineWritesItsLatch : Obligations.SetLineWritesItsLatch := by
  unfold Obligations.SetLineWritesItsLatch
  intro s line level q hp
  refine ⟨fun hd => ?_, fun hd => exec_illegal _ s q.not_busy fun ⟨_, hdir, _⟩ => ?_⟩
  · have hl : Legal (.setLine line level) s := (commandLegal_iff _ s).1 (by simp [commandLegal, hp, hd])
    obtain ⟨wl, h⟩ := run_single s (plain (.w line level)) q rfl (decide_eq_true hd) (by simp [plain])
    refine ⟨_, wl, exec_legal _ s q.not_busy hl, h.trans ?_⟩
    cases line <;> rfl
  · exact absurd (hd.symm.trans hdir) nofun

/-- Settles O26: the one micro-operation writes the direction. -/
theorem setDirWritesItsDirection : Obligations.SetDirWritesItsDirection := by
  unfold Obligations.SetDirWritesItsDirection
  intro s line dir q hp
  have hl : Legal (.setDir line dir) s := (commandLegal_iff _ s).1 hp
  obtain ⟨wl, h⟩ := run_single s (plain (.t line dir)) q rfl rfl (by simp [plain])
  refine ⟨_, wl, exec_legal _ s q.not_busy hl, h.trans ?_⟩
  cases line <;> rfl

/-- Settles O27: the one micro-operation samples the line into RDATA; on an output the direction check fails. -/
theorem readLineSamplesTheLine : Obligations.ReadLineSamplesTheLine := by
  unfold Obligations.ReadLineSamplesTheLine
  intro s line q hp
  refine ⟨fun hd => ?_, fun hd => exec_illegal _ s q.not_busy fun ⟨_, hdir, _⟩ => ?_⟩
  · have hl : Legal (.readLine line) s := (commandLegal_iff _ s).1 (by simp [commandLegal, hp, hd])
    obtain ⟨wl, h⟩ := run_single s { op := .s line, post := .resultBit } q rfl (decide_eq_true hd) (by simp)
    exact ⟨_, wl, exec_legal _ s q.not_busy hl, h⟩
  · exact absurd (hd.symm.trans hdir) nofun

end Sys2Proof.Machine
end

section
/-! SUPPORT. A wait before its last tick (10_state.md R26): the controller stays at its micro-operation. -/

namespace Sys2Proof.Machine

/-- The ticks left of a wait of `ticks` ticks; TIMER is 0 before its first. -/
def State.waitLeft (s : State) (ticks : Nat) : Nat := if s.timer = 0 then ticks else s.timer

/-- A tick of a wait that is not its last keeps SEQ and leaves one tick less. -/
theorem State.waitTick_before_last (s : State) (ticks : Nat) (tok : Token) (p : Post) (rest : List Micro)
    (h : 1 < s.waitLeft ticks) :
    (s.waitTick ticks tok p rest).seq = s.seq ∧
      (s.waitTick ticks tok p rest).waitLeft ticks + 1 = s.waitLeft ticks := by
  unfold State.waitLeft at h ⊢
  obtain ⟨ht, hn, -⟩ | ⟨ht, hn, e⟩ | ⟨ht, -⟩ | ⟨n, ht, e⟩ := State.waitTick_cases ticks tok p rest s
  · exact absurd hn (by simpa [ht] using h)
  · have hleft : ticks - 1 ≠ 0 := by omega
    rw [e, if_pos ht, if_neg hleft]
    exact ⟨rfl, by dsimp only; omega⟩
  · simp [ht] at h
  · simp [e, ht]

theorem State.tick_wait (s : State) (m : Micro) (rest : List Micro) (hm : s.seq.todo = m :: rest)
    (hw : m.op = .h ∨ m.op = .f) :
    s.tick = .next (s.waitTick (microTicks s.cfg m.op) (m.token s.env) m.post rest) := by
  obtain h | h := hw <;> simp [State.tick, hm, h, microTicks, Micro.token]

/-- In every tick of a wait before its end SEQ is where it was. -/
theorem run_wait_seq (j : Nat) (s : State) (m : Micro) (rest : List Micro) (hin : s.inputs = [])
    (hm : s.seq.todo = m :: rest) (hw : m.op = .h ∨ m.op = .f) (hj : j < s.waitLeft (microTicks s.cfg m.op)) :
    ∃ u, run j s = .next u ∧ u.seq = s.seq := by
  induction j generalizing s with
  | zero => exact ⟨s, rfl, rfl⟩
  | succ j ih =>
    have ht := s.tick_wait m rest hm hw
    have f := State.tick_frame s _ ht
    obtain ⟨hseq, hleft⟩ := s.waitTick_before_last (microTicks s.cfg m.op) (m.token s.env) m.post rest (by omega)
    rw [run_succ j s _ ((step_quiet s hin).trans ht), ← hseq]
    exact ih _ (f.inputs.trans hin) (hseq ▸ hm) (by rw [f.cfg]; omega)

/-- A command that is one wait is busy for exactly the wait's ticks and leaves its token. -/
theorem run_waitCommand (s : State) (op : MicroOp) (q : s.Quiet) (hc : s.cfg.legal = true)
    (hw : op = .h ∨ op = .f) :
    ∃ wl, run (microTicks s.cfg op) (s.accept [plain op]) = .next (s.ended 1 [(plain op).token s.env] wl .ok) ∧
      ∀ j, j < microTicks s.cfg op → ∃ u, run j (s.accept [plain op]) = .next u ∧ u.busy = true := by
  have ha : (plain op).allowed s.lines = true := by obtain rfl | rfl := hw <;> rfl
  obtain ⟨wl, h⟩ := run_command s [plain op] q hc (List.cons_ne_nil _ _) rfl (by simp [stretchAllowed, ha])
  obtain ⟨-, htimer, hin⟩ := q
  refine ⟨wl, h.trans ?_, fun j hj => ?_⟩
  · obtain rfl | rfl := hw <;> rfl
  · have hleft : (s.accept [plain op]).waitLeft (microTicks s.cfg op) = microTicks s.cfg op := if_pos htimer
    obtain ⟨u, hu, hseq⟩ := run_wait_seq j (s.accept [plain op]) (plain op) [] hin rfl hw (hj.trans_eq hleft.symm)
    exact ⟨u, hu, u.busy_iff.2 (by rw [hseq]; exact List.cons_ne_nil _ _)⟩

end Sys2Proof.Machine
end

section
/-! PROOFS. The statement of 41_bit_timer.md. -/

namespace Sys2Proof.Machine

/-- Settles O28: each command is one wait, busy until its last tick. -/
theorem waitsOnlyPassTime : Obligations.WaitsOnlyPassTime := by
  unfold Obligations.WaitsOnlyPassTime
  intro s q hc hp
  obtain ⟨wl, hend, hbusy⟩ := run_waitCommand s .h q hc (.inl rfl)
  obtain ⟨wl', hend', hbusy'⟩ := run_waitCommand s .f q hc (.inr rfl)
  exact ⟨⟨_, wl, exec_legal .waitHalf s q.not_busy ((commandLegal_iff _ s).1 hp), hend, hbusy⟩,
    ⟨_, wl', exec_legal .waitFull s q.not_busy ((commandLegal_iff _ s).1 hp), hend', hbusy'⟩⟩

end Sys2Proof.Machine
end

section
/-! SUPPORT. A safe procedure never breaks a `require` on its way (40_line_driver.md R124). -/

namespace Sys2Proof.Machine

theorem stretchAllowed_of_linesSafe (l : List Micro) (x : Lines) (h : linesSafe x l = true) :
    stretchAllowed x l = true := by
  induction l generalizing x with
  | nil => rfl
  | cons m l ih =>
    obtain ⟨hm, -, hrest⟩ := (linesSafe_cons x m l).1 h
    rw [stretchAllowed, hm, ih _ hrest, Bool.and_self]

theorem Legal.stretchAllowed {i : Instr} {s : State} (hl : Legal i s) :
    stretchAllowed s.lines (commandProc i s) = true :=
  stretchAllowed_of_linesSafe _ _ (linesSafe_commandProc hl)

end Sys2Proof.Machine
end

section
/-! PROOFS. The statements of 42_bit_transfer.md. -/

namespace Sys2Proof.Machine

/-- Settles O30: the procedure is straight, and its seven micro-operations write OUT[SDA] once and end with the clock
low. -/
theorem sendBitPulsesTheClock : Obligations.SendBitPulsesTheClock := by
  unfold Obligations.SendBitPulsesTheClock
  intro s value q hc hl
  obtain ⟨wl, h⟩ := run_command s (sendBitProc .none (bitOperand value)) q hc (List.cons_ne_nil _ _) rfl
    hl.stretchAllowed
  rw [ticksOf_sendBit] at h
  exact ⟨_, wl, exec_legal _ s q.not_busy hl, h⟩

/-- Settles O31: the sample is the fourth micro-operation, and the last one puts it into RDATA. -/
theorem readBitSamplesBeforeTheFall : Obligations.ReadBitSamplesBeforeTheFall := by
  unfold Obligations.ReadBitSamplesBeforeTheFall
  intro s q hc hl
  obtain ⟨wl, h⟩ := run_command s (readBitProc .resultBit) q hc (List.cons_ne_nil _ _) rfl hl.stretchAllowed
  rw [ticksOf_readBit] at h
  exact ⟨_, wl, exec_legal _ s q.not_busy hl, h⟩

end Sys2Proof.Machine
end

section
/-! SUPPORT. The wire history while the controller drives both lines (10_state.md R21): it is computed from the
micro-operations alone, whatever the environment does. Then its clock rises. -/

namespace Sys2Proof.Machine

/-! ## The history of a driven stretch -/

/-- The two latches, which the pins show while both lines are outputs. -/
def Lines.latches (x : Lines) : Level × Level := (x.outScl, x.outSda)

theorem State.pins_bothOut (s : State) (h : s.lines.bothOut = true) : s.pins = s.lines.latches := by
  obtain ⟨hc, hd⟩ := (Lines.bothOut_iff _).1 h
  rw [State.pins, s.wire_output .scl hc, s.wire_output .sda hd]
  rfl

/-- What the newest pair already says is not recorded again. -/
theorem recordPins_of_head {p : Level × Level} {ws : List (Level × Level)} (h : ws.head? = some p) :
    recordPins p ws = ws := by
  obtain ⟨ws', rfl⟩ := List.head?_eq_some_iff.1 h
  exact recordPins_same p ws'

theorem State.applyPost_wires (p : Post) (s : State) : (s.applyPost p).wires = s.wires := by
  obtain ⟨-, -, -, -, -, -, -, -, -, -, h, -⟩ := State.applyPost_frame p s
  exact h

/-- A micro-operation records the pins as the environment moves and again as it ends. -/
theorem State.effect_wires_eq (s : State) (m : Micro) :
    (s.effect m).wires = recordPins (State.pins { s with env := s.env.move, lines := m.linesAfter s.lines })
      (recordPins s.pinsMoved s.wires) := by
  obtain ⟨op, p⟩ := m
  cases op <;> simp only [State.effect, State.applyPost_wires] <;> rfl

/-- The micro-operation turns neither line. -/
def Micro.turnsNoLine (m : Micro) : Bool :=
  match m.op with
  | .t _ _ => false
  | _ => true

theorem Micro.linesAfter_sameDirs (m : Micro) (x : Lines) (h : m.turnsNoLine = true) :
    x.SameDirs (m.linesAfter x) := by
  obtain ⟨op, p⟩ := m
  cases op with
  | t l d => cases h
  | w l v => exact x.sameDirs_setOut l v
  | s | h | f => exact ⟨rfl, rfl⟩

/-- While the controller drives both lines, only the latches after a micro-operation can be new to the history. -/
theorem State.effect_wires_driven (s : State) (m : Micro) (hb : s.lines.bothOut = true) (ht : m.turnsNoLine = true)
    (hw : s.wires.head? = some s.lines.latches) :
    (s.effect m).wires = recordPins (m.linesAfter s.lines).latches s.wires := by
  have hmoved : s.pinsMoved = s.lines.latches := State.pins_bothOut { s with env := s.env.move } hb
  have hafter : (m.linesAfter s.lines).bothOut = true := (m.linesAfter_sameDirs s.lines ht).bothOut ▸ hb
  rw [State.effect_wires_eq, State.pins_bothOut _ hafter, hmoved, recordPins_of_head hw]

/-- The history `ws` after a stretch of SEQ that is entered with the lines `x` and driven throughout. -/
def drivenHistory : Lines → List Micro → List (Level × Level) → List (Level × Level)
  | _, [], ws => ws
  | x, m :: l, ws => drivenHistory (m.linesAfter x) l (recordPins (m.linesAfter x).latches ws)

theorem drivenHistory_append (l r : List Micro) (x : Lines) (ws : List (Level × Level)) :
    drivenHistory x (l ++ r) ws = drivenHistory (linesAfter x l) r (drivenHistory x l ws) := by
  induction l generalizing x ws with
  | nil => rfl
  | cons m l ih => exact ih _ _

theorem drivenHistory_head (l : List Micro) (x : Lines) (ws : List (Level × Level)) (h : ws.head? = some x.latches) :
    (drivenHistory x l ws).head? = some (linesAfter x l).latches := by
  induction l generalizing x ws with
  | nil => exact h
  | cons m l ih => exact ih _ _ (recordPins_head _ _)

/-- The wire history of a stretch that turns no line, entered with both lines outputs. -/
theorem State.effects_wires_driven (l : List Micro) (s : State) (hb : s.lines.bothOut = true)
    (ht : l.all Micro.turnsNoLine = true) (hw : s.wires.head? = some s.lines.latches) :
    (l.foldl State.effect s).wires = drivenHistory s.lines l s.wires := by
  induction l generalizing s with
  | nil => rfl
  | cons m l ih =>
    rw [List.all_cons, Bool.and_eq_true] at ht
    have hl := s.effect_lines m
    have hstep := s.effect_wires_driven m hb ht.1 hw
    have hout : (s.effect m).lines.bothOut = true := by
      rw [hl, ← (m.linesAfter_sameDirs s.lines ht.1).bothOut, hb]
    rw [List.foldl_cons, ih (s.effect m) hout ht.2 (by rw [hstep, hl, recordPins_head]), hl, hstep, drivenHistory]

/-! ## The history only grows -/

theorem HistoryFollows.append {s t : State} (h : HistoryFollows s t) : ∃ wl, t.wires = wl ++ s.wires := by
  obtain ⟨hw, -⟩ | hw | hw := h
  · exact ⟨[], hw⟩
  · rw [hw]
    exact recordPins_append _ _
  · rw [hw]
    exact recordPins_append_two _ _ _

theorem run_wires_append (k : Nat) (s t : State) (hin : s.inputs = []) (h : run k s = .next t) :
    ∃ wl, t.wires = wl ++ s.wires := by
  refine run_keeps (P := fun u => ∃ wl, u.wires = wl ++ s.wires) (fun u v huv ⟨wl, hu⟩ => ?_) k s t hin
    ⟨[], rfl⟩ h
  obtain ⟨wl', hv⟩ := huv.historyFollows.append
  exact ⟨wl' ++ wl, by rw [hv, hu, List.append_assoc]⟩

/-- A run through a driven stretch and on from there ends with a history that continues the stretch's. -/
theorem run_through_driven (l : List Micro) (s t : State) (g : s.Going) (rest : List Micro) (k : Nat) (hl : l ≠ [])
    (hm : s.seq.todo = l ++ rest) (hs : l.all Micro.straight = true) (ha : stretchAllowed s.lines l = true)
    (hb : s.lines.bothOut = true) (ht : l.all Micro.turnsNoLine = true) (hw : s.wires.head? = some s.lines.latches)
    (h : run (ticksOf s.cfg l + k) s = .next t) : ∃ wl, t.wires = wl ++ drivenHistory s.lines l s.wires := by
  rw [run_add _ _ _ _ (run_straight l s g rest hl hm hs ha)] at h
  obtain ⟨-, -, -, -, -, -, -, -, -, -, hin, -, -, hwires, -⟩ :=
    State.finish_frame ((l.foldl State.effect s).setTodo rest)
  obtain ⟨_, he⟩ := State.effects_eq l s hs
  obtain ⟨wl, hwl⟩ := run_wires_append k _ t (hin.trans ((congrArg State.inputs he).trans g.inputs)) h
  rw [hwires] at hwl
  exact ⟨wl, hwl.trans (congrArg (wl ++ ·) (State.effects_wires_driven l s hb ht hw))⟩

/-! ## The clock rises of a history -/

theorem dataAtRises_cons (q : Level × Level) (ws : List (Level × Level)) :
    ∃ new, dataAtRises (q :: ws) = dataAtRises ws ++ new := by
  cases ws with
  | nil => exact ⟨[], rfl⟩
  | cons p ws => exact ⟨_, rfl⟩

/-- A history that grows keeps its rises. -/
theorem dataAtRises_append (wl ws : List (Level × Level)) :
    ∃ new, dataAtRises (wl ++ ws) = dataAtRises ws ++ new := by
  induction wl with
  | nil => exact ⟨[], (List.append_nil _).symm⟩
  | cons q wl ih =>
    obtain ⟨new, ih⟩ := ih
    obtain ⟨last, hq⟩ := dataAtRises_cons q (wl ++ ws)
    exact ⟨new ++ last, by rw [List.cons_append, hq, ih, List.append_assoc]⟩

/-- One recording adds the data level to the rises exactly when it shows a rise. -/
theorem dataAtRises_recordPins (p q : Level × Level) (ws : List (Level × Level)) (h : ws.head? = some q) :
    dataAtRises (recordPins p ws) = dataAtRises ws ++ if q.1 = false ∧ p.1 = true then [p.2] else [] := by
  obtain ⟨ws, rfl⟩ := List.head?_eq_some_iff.1 h
  by_cases hpq : p = q
  · subst hpq
    simp
  · simp [recordPins, hpq, dataAtRises]

/-- SEND_BIT raises the clock once, with its value on the data line (42_bit_transfer.md R150). -/
theorem dataAtRises_sendBit (p : Post) (b : Level) (x : Lines) (ws : List (Level × Level)) (hx : x.outScl = false)
    (hw : ws.head? = some x.latches) :
    dataAtRises (drivenHistory x (sendBitProc p b) ws) = dataAtRises ws ++ [b] := by
  have hist : drivenHistory x (sendBitProc p b) ws =
      recordPins (false, b) (recordPins (true, b) (recordPins (false, b) ws)) := by
    simp [drivenHistory, sendBitProc, plain, Micro.linesAfter, Lines.latches, hx, recordPins_of_head]
  rw [hist, dataAtRises_recordPins _ (true, b) _ (recordPins_head _ _),
    dataAtRises_recordPins _ (false, b) _ (recordPins_head _ _), dataAtRises_recordPins _ _ _ hw]
  simp

theorem dataAtRises_sendBits (bs : List Level) (x : Lines) (ws : List (Level × Level)) (hx : x.outScl = false)
    (hw : ws.head? = some x.latches) :
    dataAtRises (drivenHistory x (sendBitsProc bs) ws) = dataAtRises ws ++ bs := by
  induction bs generalizing x ws with
  | nil => exact (List.append_nil _).symm
  | cons b bs ih =>
    rw [sendBitsProc, drivenHistory_append, ih _ _ rfl (drivenHistory_head _ _ _ hw), dataAtRises_sendBit _ _ _ _ hx hw,
      List.append_assoc, List.singleton_append]

/-! ## The eight bits of SEND_BYTE -/

/-- The first 56 micro-operations of SEND_BYTE: its eight bits, most significant first. -/
def byteBitsProc (v : Byte) : List Micro :=
  sendBitProc (.beginByte v) (v.getLsbD 7) ++ sendBitsProc (bitsMsbFirst v).tail

/-- The rest of SEND_BYTE: the acknowledgement slot. -/
def ackSlotProc (policy : AckPolicy) : List Micro :=
  plain (.t .sda .input) :: readBitProc .none ++ [{ op := .t .sda .output, post := .ackEnd policy }]

theorem sendByteProc_eq_bits (v : Byte) (policy : AckPolicy) :
    sendByteProc v policy = byteBitsProc v ++ ackSlotProc policy := List.append_assoc _ _ _

theorem ticksOf_byteBits (c : Config) (v : Byte) : ticksOf c (byteBitsProc v) = 8 * (4 + 4 * c.halfTicks) := by
  simp only [byteBitsProc, bitsMsbFirst, List.tail_cons, sendBitsProc, ticksOf_append, ticksOf_sendBit, ticksOf]
  omega

theorem dataAtRises_byteBits (v : Byte) (x : Lines) (ws : List (Level × Level)) (hx : x.outScl = false)
    (hw : ws.head? = some x.latches) :
    dataAtRises (drivenHistory x (byteBitsProc v) ws) = dataAtRises ws ++ bitsMsbFirst v := by
  rw [byteBitsProc, drivenHistory_append, dataAtRises_sendBits _ _ _ rfl (drivenHistory_head _ _ _ hw),
    dataAtRises_sendBit _ _ _ _ hx hw, List.append_assoc]
  rfl

theorem stretchAllowed_byteBits (v : Byte) (x : Lines) (h : x.bothOut = true) :
    stretchAllowed x (byteBitsProc v) = true := by
  have hsafe := (linesSafe_sendByte v .report x h).1
  rw [sendByteProc_eq_bits, linesSafe_append, Bool.and_eq_true] at hsafe
  exact stretchAllowed_of_linesSafe _ _ hsafe.1

/-- A SEND_BYTE that finds the clock low shows its eight bits at its first eight rises, whatever rises come after
(43_byte_transfer.md R168). -/
theorem dataAtRises_sendByte (s a t : State) (v : Byte) (hs : s.Inv) (q : s.Quiet) (hl : Legal (.sendByte v) s)
    (hclk : s.lines.outScl = false) (ha : exec (.sendByte v) s = .next a)
    (ht : run (37 + 36 * s.cfg.halfTicks) a = .next t) :
    ∃ later, dataAtRises t.wires = dataAtRises s.wires ++ (bitsMsbFirst v ++ later) := by
  rw [exec_legal _ s q.not_busy hl] at ha
  cases ha
  obtain ⟨-, hdir, -⟩ := hl
  have hout := (Lines.bothOut_iff s.lines).2 hdir
  have hw : s.wires.head? = some s.lines.latches := by rw [hs.pins, s.pins_bothOut hout]
  have hticks : 37 + 36 * s.cfg.halfTicks = ticksOf s.cfg (byteBitsProc v) + (5 + 4 * s.cfg.halfTicks) := by
    rw [ticksOf_byteBits]
    omega
  rw [hticks] at ht
  obtain ⟨wl, hwl⟩ := run_through_driven (byteBitsProc v) (s.accept (sendByteProc v .report)) t
    (s.accept_going _ q hs.cfg) (ackSlotProc .report) _ (List.cons_ne_nil _ _) (sendByteProc_eq_bits v .report) rfl
    (stretchAllowed_byteBits v _ hout) hout rfl hw ht
  obtain ⟨later, hlater⟩ := dataAtRises_append wl (drivenHistory s.lines (byteBitsProc v) s.wires)
  refine ⟨later, (congrArg dataAtRises hwl).trans (hlater.trans ?_)⟩
  rw [dataAtRises_byteBits v _ _ hclk hw, List.append_assoc]

end Sys2Proof.Machine
end

section
/-! SUPPORT. What the byte transfers leave behind (43_byte_transfer.md R165, R166): TSTATE after SEND_BYTE, and the
effect of READ_BYTE wherever `last` puts its byte. -/

namespace Sys2Proof.Machine

/-- TSTATE over a whole SEND_BYTE in an open transaction (44_transaction.md R180). -/
theorem tstateAtByteEnd_byteStart (t : TState) (nack : Level) (h : t ≠ .idle) :
    tstateAtByteEnd (tstateAtByteStart t) nack =
      if t = .dataPhase then .dataPhase else if nack then .addressPhase else .dataPhase := by
  cases t with
  | idle => exact absurd rfl h
  | startAsserted | addressPhase | dataPhase => cases nack <;> rfl

theorem linesAfter_readByte (x : Lines) (last : Post) :
    linesAfter x (readByteProc last) = { x with outScl := false, dirSda := .output } := rfl

theorem tokensOf_readByte (e : Env) (last : Post) :
    tokensOf e (readByteProc last) = readByteTokens (readDraws e 0) := rfl

/-- The samples are shifted in one by one; the byte then goes where `last` says (20_memory.md R76). -/
theorem regsAfter_readByte (e : Env) (r : Regs) (last : Post) :
    regsAfter e r (readByteProc last) =
      Regs.post { r with bit := e.draw .sda 47, shreg := assemble (readDraws e 0) } last := by
  have hbody : regsAfter e r ({ op := .t .sda .input, post := .clearShreg } :: shiftInProc 8) =
      { r with bit := e.draw .sda 47, shreg := assemble (readDraws e 0) } := rfl
  rw [readByteProc, regsAfter_append, hbody]
  rfl

end Sys2Proof.Machine
end

section
/-! PROOFS. The statements of 43_byte_transfer.md. -/

namespace Sys2Proof.Machine

/-- Settles O32: a host-issued byte's acknowledgement decides nothing, so the run ends with it, and TSTATE has gone
through its two rows of 44_transaction.md R180. -/
theorem sendByteReportsItsAcknowledgement : Obligations.SendByteReportsItsAcknowledgement := by
  unfold Obligations.SendByteReportsItsAcknowledgement
  intro s value q hc hl
  obtain ⟨-, hdir, hopen, -⟩ := id hl
  obtain ⟨wl, h⟩ := run_sendByte (s.accept (sendByteProc value .report)) (s.accept_going _ q hc) value .report []
    ((Lines.bothOut_iff _).2 hdir) (List.append_nil _).symm
  refine ⟨_, wl, exec_legal _ s q.not_busy hl, h.trans ?_⟩
  rw [← tstateAtByteEnd_byteStart _ _ hopen, State.ended, q.1]
  rfl

/-- Settles O33: the procedure is straight; its samples are the fifth micro-operation and every sixth after it. -/
theorem readByteAssemblesEightSamples : Obligations.ReadByteAssemblesEightSamples := by
  unfold Obligations.ReadByteAssemblesEightSamples
  intro s q hc hl
  obtain ⟨wl, h⟩ := run_command s (readByteProc .resultByte) q hc (List.cons_ne_nil _ _) rfl hl.stretchAllowed
  rw [ticksOf_readByte, linesAfter_readByte, tokensOf_readByte, regsAfter_readByte] at h
  exact ⟨_, wl, exec_legal _ s q.not_busy hl, h⟩

/-- Settles O34: the rises add the bits in wire order, the draws are the bits in wire order, and `assemble` gives the
byte back from those. -/
theorem sentByteIsReadBack : Obligations.SentByteIsReadBack := by
  unfold Obligations.SentByteIsReadBack
  refine ⟨fun s v hs q hl hclk => ?_, fun s v hs q hl hdraws => ?_⟩
  · obtain ⟨a, wl, ha, h⟩ := sendByteReportsItsAcknowledgement s v q hs.cfg hl
    refine ⟨a, _, ha, h, ?_⟩
    obtain ⟨later, hlater⟩ := dataAtRises_sendByte s a _ v hs q hl hclk ha h
    rw [hlater, List.drop_left, List.take_left' (show (bitsMsbFirst v).length = 8 from rfl),
      assemble_bitsMsbFirst]
  · obtain ⟨a, wl, ha, h⟩ := readByteAssemblesEightSamples s q hs.cfg hl
    exact ⟨a, _, ha, h, (congrArg assemble hdraws).trans (assemble_bitsMsbFirst v)⟩

end Sys2Proof.Machine
end

section
/-! SUPPORT. The framing commands: a stretch without a wait, whatever the parameters are, and the START and STOP
conditions that START and STOP put on the wire (44_transaction.md R181, R182). -/

namespace Sys2Proof.Machine

/-! ## A stretch without a wait -/

/-- The micro-operation is no wait: it lasts one tick (70_reset_and_hazards.md R282). -/
def Micro.waitless (m : Micro) : Bool :=
  match m.op with
  | .h => false
  | .f => false
  | _ => true

theorem Micro.not_wait (m : Micro) (h : m.waitless = true) : ¬ (m.op = .h ∨ m.op = .f) := by
  rintro (hop | hop) <;> simp [Micro.waitless, hop] at h

/-- A stretch without a wait that decides nothing runs, a tick each, to the fold of its effects. -/
theorem run_waitless (l : List Micro) (s : State) (rest : List Micro) (hin : s.inputs = []) (hl : l ≠ [])
    (hm : s.seq.todo = l ++ rest) (hs : l.all Micro.straight = true) (hw : l.all Micro.waitless = true)
    (ha : stretchAllowed s.lines l = true) :
    run l.length s = .next (State.finish ((l.foldl State.effect s).setTodo rest)) := by
  induction l generalizing s with
  | nil => exact absurd rfl hl
  | cons m l ih =>
    rw [List.all_cons, Bool.and_eq_true] at hs hw
    rw [stretchAllowed, Bool.and_eq_true] at ha
    have htick := (step_quiet s hin).trans (s.tick_eq_effect m (l ++ rest) hm hs.1 ha.1 (m.not_wait hw.1))
    rw [List.length_cons, run_succ _ _ _ htick, List.foldl_cons]
    cases l with
    | nil => rfl
    | cons m' l =>
      obtain ⟨-, hin', -⟩ := s.effect_frame m
      rw [State.finish_running _ m' (l ++ rest) rfl,
        ih ((s.effect m).setTodo (m' :: l ++ rest)) (hin'.trans hin) (by simp) rfl hs.2 hw.2
          ((s.effect_lines m).symm ▸ ha.2),
        State.foldl_effect_setTodo _ _ _ hs.2]
      rfl

/-! ## START and STOP conditions of a history -/

/-- One recording adds a START condition exactly when data falls while the clock stays high. -/
theorem startConditions_recordPins (p q : Level × Level) (ws : List (Level × Level)) (h : ws.head? = some q) :
    startConditions (recordPins p ws) =
      startConditions ws + if q = (true, true) ∧ p = (true, false) then 1 else 0 := by
  obtain ⟨ws, rfl⟩ := List.head?_eq_some_iff.1 h
  by_cases hpq : p = q
  · subst hpq
    have hne : ¬ (p = (true, true) ∧ p = (true, false)) := by rintro ⟨rfl, h⟩; cases h
    rw [recordPins_same, if_neg hne, Nat.add_zero]
  · rw [recordPins, if_neg hpq, startConditions, Nat.add_comm]

/-- One recording adds a STOP condition exactly when data rises while the clock stays high. -/
theorem stopConditions_recordPins (p q : Level × Level) (ws : List (Level × Level)) (h : ws.head? = some q) :
    stopConditions (recordPins p ws) =
      stopConditions ws + if q = (true, false) ∧ p = (true, true) then 1 else 0 := by
  obtain ⟨ws, rfl⟩ := List.head?_eq_some_iff.1 h
  by_cases hpq : p = q
  · subst hpq
    have hne : ¬ (p = (true, false) ∧ p = (true, true)) := by rintro ⟨rfl, h⟩; cases h
    rw [recordPins_same, if_neg hne, Nat.add_zero]
  · rw [recordPins, if_neg hpq, stopConditions, Nat.add_comm]

/-- The pins of a driven START, one micro-operation after the other. -/
theorem drivenHistory_start (x : Lines) (ws : List (Level × Level)) :
    drivenHistory x startProc ws = recordPins (false, false) (recordPins (true, false) (recordPins (true, true)
      (recordPins (x.outScl, true) ws))) := rfl

/-- START with the clock low, or with data high, makes one START condition and no STOP condition
(44_transaction.md R181). -/
theorem conditions_start (x : Lines) (ws : List (Level × Level)) (hw : ws.head? = some x.latches)
    (hx : x.outScl = false ∨ x.outSda = true) :
    startConditions (drivenHistory x startProc ws) = startConditions ws + 1 ∧
      stopConditions (drivenHistory x startProc ws) = stopConditions ws := by
  have h1 := recordPins_head (x.outScl, true) ws
  have h2 := recordPins_head (true, true) (recordPins (x.outScl, true) ws)
  have h3 := recordPins_head (true, false) (recordPins (true, true) (recordPins (x.outScl, true) ws))
  have quiet : ¬ (x.latches = (true, false) ∧ (x.outScl, true) = (true, true)) := by
    simp only [Lines.latches, Prod.mk.injEq]
    rintro ⟨⟨hc, hd⟩, -⟩
    simp [hc, hd] at hx
  rw [drivenHistory_start, startConditions_recordPins _ _ _ h3, startConditions_recordPins _ _ _ h2,
    startConditions_recordPins _ _ _ h1, startConditions_recordPins _ _ _ hw, stopConditions_recordPins _ _ _ h3,
    stopConditions_recordPins _ _ _ h2, stopConditions_recordPins _ _ _ h1, stopConditions_recordPins _ _ _ hw,
    if_neg quiet]
  simp

/-- The pins of a driven STOP: its waits show nothing new. -/
theorem drivenHistory_stopTail (x : Lines) (ws : List (Level × Level)) (hw : ws.head? = some x.latches) :
    drivenHistory x stopTail ws = recordPins (true, true) (recordPins (true, x.outSda) ws) := by
  have hq : ws.head? = some (x.outScl, x.outSda) := hw
  simp [drivenHistory, stopTail, plain, Micro.linesAfter, Lines.latches, recordPins_of_head hq,
    recordPins_of_head (recordPins_head _ _)]

/-- The document's own STOP makes a STOP condition exactly when it finds data low (93_implementation_defined.md U16). -/
theorem conditions_stopTail (x : Lines) (ws : List (Level × Level)) (hw : ws.head? = some x.latches)
    (hx : x.outScl = false) :
    startConditions (drivenHistory x stopTail ws) = startConditions ws ∧
      stopConditions (drivenHistory x stopTail ws) = stopConditions ws + if x.outSda then 0 else 1 := by
  have h1 := recordPins_head (true, x.outSda) ws
  have low : x.latches = (false, x.outSda) := by rw [Lines.latches, hx]
  rw [drivenHistory_stopTail x ws hw, startConditions_recordPins _ _ _ h1, startConditions_recordPins _ _ _ hw,
    stopConditions_recordPins _ _ _ h1, stopConditions_recordPins _ _ _ hw, low]
  cases x.outSda <;> simp

/-- STOP with the clock low: step 0 under STOP_PRELOAD makes sure that it finds data low (44_transaction.md R182). -/
theorem conditions_stop (x : Lines) (preload : Bool) (ws : List (Level × Level)) (hw : ws.head? = some x.latches)
    (hx : x.outScl = false) :
    startConditions (drivenHistory x (stopProc preload) ws) = startConditions ws ∧
      stopConditions (drivenHistory x (stopProc preload) ws) =
        stopConditions ws + if preload = false ∧ x.outSda = true then 0 else 1 := by
  cases preload with
  | false =>
    obtain ⟨hstart, hstop⟩ := conditions_stopTail x ws hw hx
    exact ⟨hstart, hstop.trans (by simp)⟩
  | true =>
    have hpre : drivenHistory x (stopProc true) ws =
        drivenHistory { x with outSda := false } stopTail (recordPins (x.outScl, false) ws) := rfl
    obtain ⟨hstart, hstop⟩ := conditions_stopTail { x with outSda := false } (recordPins (x.outScl, false) ws)
      (recordPins_head _ _) hx
    rw [hpre, hstart, hstop, startConditions_recordPins _ _ _ hw, stopConditions_recordPins _ _ _ hw]
    simp [hx, Lines.latches]

/-- While both lines are outputs the history ends with the latches. -/
theorem State.Inv.wires_driven {s : State} (hs : s.Inv) (hb : s.lines.bothOut = true) :
    s.wires.head? = some s.lines.latches := by
  rw [hs.pins, s.pins_bothOut hb]

/-- A command that turns no line, issued with both lines outputs, leaves the history its micro-operations make. -/
theorem run_command_wires (s t : State) (l : List Micro) (hs : s.Inv) (q : s.Quiet) (hl : l ≠ [])
    (hst : l.all Micro.straight = true) (ha : stretchAllowed s.lines l = true) (ht : l.all Micro.turnsNoLine = true)
    (hb : s.lines.bothOut = true) (h : run (ticksOf s.cfg l) (s.accept l) = .next t) :
    t.wires = drivenHistory s.lines l s.wires := by
  rw [show s.cfg = (s.accept l).cfg from rfl, run_straight l (s.accept l) (s.accept_going l q hs.cfg) [] hl
    (List.append_nil _).symm hst ha] at h
  cases h
  obtain ⟨-, -, -, -, -, -, -, -, -, -, -, -, -, hwires, -⟩ :=
    State.finish_frame ((l.foldl State.effect (s.accept l)).setTodo [])
  exact hwires.trans (State.effects_wires_driven l (s.accept l) hb ht (hs.wires_driven hb))

theorem straight_start : startProc.all Micro.straight = true := rfl

theorem turnsNoLine_stop (preload : Bool) : (stopProc preload).all Micro.turnsNoLine = true := by
  cases preload <;> rfl

theorem length_stop (preload : Bool) : (stopProc preload).length = stopMicros preload := by
  cases preload <;> rfl

theorem linesAfter_stop (x : Lines) (preload : Bool) :
    linesAfter x (stopProc preload) = { x with outScl := true, outSda := true } := by
  cases preload <;> rfl

theorem tokensOf_stop (e : Env) (preload : Bool) : tokensOf e (stopProc preload) = stopTokens preload := by
  cases preload <;> rfl

theorem regsAfter_stop (e : Env) (r : Regs) (preload : Bool) :
    regsAfter e r (stopProc preload) = { r with tstate := .idle } := by
  cases preload <;> rfl

/-! ## Who writes TSTATE (44_transaction.md R180) -/

/-- TSTATE of `t` differs from that of `s` only by a row of the table, at the micro-operation whose post it is. -/
def TstateByTable (s t : State) : Prop :=
  t.tstate ≠ s.tstate → ∃ m rest, s.seq.todo = m :: rest ∧
    ((m.post = .startAsserted ∧ t.tstate = .startAsserted) ∨
      (m.post = .toIdle ∧ t.tstate = .idle) ∨
      ((∃ v, m.post = .beginByte v) ∧ s.tstate = .startAsserted ∧ t.tstate = .addressPhase) ∨
      ((∃ p, m.post = .ackEnd p) ∧ s.tstate = .addressPhase ∧ t.tstate = .dataPhase ∧ t.ackf = false))

theorem tstateAtByteStart_changes (t : TState) (h : tstateAtByteStart t ≠ t) :
    t = .startAsserted ∧ tstateAtByteStart t = .addressPhase := by
  cases t with
  | startAsserted => exact ⟨rfl, rfl⟩
  | idle | addressPhase | dataPhase => exact absurd rfl h

theorem tstateAtByteEnd_changes (t : TState) (nack : Level) (h : tstateAtByteEnd t nack ≠ t) :
    t = .addressPhase ∧ tstateAtByteEnd t nack = .dataPhase ∧ nack = false := by
  cases t with
  | addressPhase =>
    cases nack with
    | false => exact ⟨rfl, rfl, rfl⟩
    | true => exact absurd rfl h
  | idle | startAsserted | dataPhase => exact absurd rfl h

/-- The end of a micro-operation moves TSTATE as its procedure's own doings say. -/
theorem TstateByTable.of_retire {s x : State} (m : Micro) (rest : List Micro) (tok : Token)
    (hm : s.seq.todo = m :: rest) (hx : x.tstate = s.tstate) : TstateByTable s (x.retire tok m.post rest) := by
  intro h
  refine ⟨m, rest, hm, ?_⟩
  obtain ⟨-, -, -, -, ha, ht, -⟩ := State.finish_frame
    (State.applyPost m.post (State.emit tok { x with seq := { x.seq with todo := rest } }))
  rw [← hx] at h ⊢
  rw [State.retire, ht] at h ⊢
  rw [ha]
  cases hp : m.post with
  | startAsserted => exact .inl ⟨rfl, rfl⟩
  | toIdle => exact .inr (.inl ⟨rfl, rfl⟩)
  | beginByte v =>
    rw [hp] at h
    obtain ⟨hb, he⟩ := tstateAtByteStart_changes x.tstate h
    exact .inr (.inr (.inl ⟨⟨v, rfl⟩, hb, he⟩))
  | ackEnd policy =>
    obtain ⟨q, hq⟩ := State.applyPost_ackEnd policy (State.emit tok { x with seq := { x.seq with todo := rest } })
    rw [hp, hq] at h
    rw [hq]
    obtain ⟨hb, he, hn⟩ := tstateAtByteEnd_changes x.tstate x.seq.bit h
    exact .inr (.inr (.inr ⟨⟨policy, rfl⟩, hb, he, hn⟩))
  | none | clearShreg | shiftIn | resultBit | resultByte | storeRx =>
    rw [hp] at h
    exact absurd rfl h

theorem TickCase.tstateByTable {s t : State} (h : TickCase s t) : TstateByTable s t := by
  cases h with
  | waitEnded m rest hm => exact .of_retire m rest _ hm rfl
  | performed m rest bit hm => exact .of_retire m rest _ hm rfl
  | idle | waitBegun | waiting => exact fun h => absurd rfl h

end Sys2Proof.Machine
end

section
/-! PROOFS. The framing statements of 44_transaction.md, and its table of TSTATE. -/

namespace Sys2Proof.Machine

/-- Settles O35: START's four micro-operations last a tick each, whatever the parameters are. -/
theorem startAssertsStartCondition : Obligations.StartAssertsStartCondition := by
  unfold Obligations.StartAssertsStartCondition
  intro s q hl
  have hrun := run_waitless startProc (s.accept startProc) [] q.2.2 (List.cons_ne_nil _ _) rfl rfl rfl
    hl.stretchAllowed
  obtain ⟨wl, he⟩ := State.effects_eq startProc (s.accept startProc) straight_start
  refine ⟨_, wl, exec_legal _ s q.not_busy hl, hrun.trans ?_⟩
  rw [he, State.ended, q.1]
  rfl

/-- Settles O36: the procedure is straight, with step 0 and without. -/
theorem stopReturnsToIdle : Obligations.StopReturnsToIdle := by
  unfold Obligations.StopReturnsToIdle
  intro s q hc hl
  obtain ⟨wl, h⟩ := run_command s (stopProc s.cfg.stopPreload) q hc (stopProc_ne_nil _) (straight_stop _)
    hl.stretchAllowed
  rw [ticksOf_stop, length_stop, linesAfter_stop, tokensOf_stop, regsAfter_stop] at h
  exact ⟨_, wl, exec_legal _ s q.not_busy hl, h⟩

/-- Settles O37: data falls once while the clock is high, and rises only before the clock does. -/
theorem startPutsOneStartCondition : Obligations.StartPutsOneStartCondition := by
  unfold Obligations.StartPutsOneStartCondition
  intro s hs q hl hx
  obtain ⟨-, hdir, -⟩ := id hl
  have hb := (Lines.bothOut_iff s.lines).2 hdir
  obtain ⟨a, wl, ha, h⟩ := startAssertsStartCondition s q hl
  have hacc := exec_legal _ s q.not_busy hl
  rw [ha] at hacc
  cases hacc
  refine ⟨_, _, ha, h, ?_⟩
  rw [run_command_wires s _ startProc hs q (List.cons_ne_nil _ _) rfl hl.stretchAllowed rfl hb h]
  exact conditions_start s.lines s.wires (hs.wires_driven hb) hx

/-- Settles O38: data rises while the clock is high exactly when STOP's clock rise finds data low. -/
theorem stopPutsOneStopCondition : Obligations.StopPutsOneStopCondition := by
  unfold Obligations.StopPutsOneStopCondition
  intro s hs q hl hx
  obtain ⟨-, hdir, -⟩ := id hl
  have hb := (Lines.bothOut_iff s.lines).2 hdir
  obtain ⟨a, wl, ha, h⟩ := stopReturnsToIdle s q hs.cfg hl
  have hacc := exec_legal _ s q.not_busy hl
  rw [ha] at hacc
  cases hacc
  refine ⟨_, _, ha, h, rfl, ?_⟩
  rw [← ticksOf_stop] at h
  rw [run_command_wires s _ (stopProc s.cfg.stopPreload) hs q (stopProc_ne_nil _) (straight_stop _) hl.stretchAllowed
    (turnsNoLine_stop _) hb h]
  exact conditions_stop s.lines _ s.wires (hs.wires_driven hb) hx

/-- Settles O52: only a controller's step moves TSTATE, at a micro-operation whose post is a row of the table. -/
theorem transactionStateTable : Obligations.TransactionStateTable := by
  unfold Obligations.TransactionStateTable
  intro s t h hne
  cases step_case s t h with
  | tick rest ht => exact .inr ((State.tick_case _ _ ht).tstateByTable hne)
  | reset rest hin => exact .inl ⟨by rw [hin]; rfl, rfl⟩
  | taken | accepted | refused | stored | read | driven => exact absurd rfl hne

end Sys2Proof.Machine
end

section
/-! SUPPORT. Where a block command stands between two of its procedures, and how each procedure takes it to the next
place (44_transaction.md R183, R184, R186, R187). -/

namespace Sys2Proof.Machine

/-! ## Places -/

/-- Where a running block command stands: what it has written that lasts, and how many micro-operations it has
performed with what trace. -/
structure Place where
  shreg : Byte
  ackf : Level
  rxbuf : Memory
  code : ErrCode
  micros : Nat
  toks : List Token

/-- What the next procedure writes anew: the lines, the last sample, TSTATE; and what the pins have shown. -/
structure Passing where
  lines : Lines
  bit : Level
  tstate : TState
  shown : List (Level × Level)

/-- `s` when the command issued in it stands at `p`, with `todo` left to do. -/
def State.standing (s : State) (p : Place) (c : Passing) (todo : List Micro) : State :=
  { s with
    lines := c.lines
    seq := { todo := todo, bit := c.bit, code := p.code }
    shreg := p.shreg
    ackf := p.ackf
    tstate := c.tstate
    rxbuf := p.rxbuf
    done := false
    err := .ok
    env := s.env.after p.micros
    trace := p.toks.reverse ++ s.trace
    wires := c.shown ++ s.wires }

/-- After `k` ticks from `a` the command issued in `s` stands at `p` with both lines outputs, `todo` being left. -/
def Reaches (s a : State) (k : Nat) (p : Place) (todo : List Micro) : Prop :=
  ∃ c : Passing, c.lines.bothOut = true ∧ run k a = .next (s.standing p c todo)

/-- The place of a command that has just been accepted. -/
def State.acceptedPlace (s : State) : Place where
  shreg := s.shreg
  ackf := s.ackf
  rxbuf := s.rxbuf
  code := .ok
  micros := 0
  toks := []

/-- The place after START (44_transaction.md R181). -/
def Place.started (p : Place) : Place := { p with micros := p.micros + 4, toks := p.toks ++ startTokens }

/-- The place after a byte `v` acknowledged with the level `nack` (43_byte_transfer.md R165). -/
def Place.sent (v : Byte) (nack : Level) (p : Place) : Place :=
  { p with
    shreg := v
    ackf := nack
    micros := p.micros + 64
    toks := p.toks ++ sendByteTokens v nack }

/-- The place after the bytes `vs`, each ACKed at once. -/
def Place.sentAll (vs : List Byte) (p : Place) : Place := vs.foldl (fun p v => p.sent v false) p

/-- The place after `n` NACKed transmissions of `v` and one more, acknowledged with `nack` (44_transaction.md R184). -/
def Place.resent (n : Nat) (v : Byte) (nack : Level) (p : Place) : Place :=
  { p with
    shreg := v
    ackf := nack
    micros := p.micros + 64 * (n + 1)
    toks := p.toks ++ (List.replicate n (sendByteTokens v true)).flatten ++ sendByteTokens v nack }

/-- `raise BusError(code)` (60_exceptions.md R224). -/
def Place.failed (code : ErrCode) (p : Place) : Place := { p with code := code }

/-- The byte that READ_BYTE reads from `p` on, `e` being the environment at the command's issue. -/
def Place.byteRead (e : Env) (p : Place) : Byte := assemble (readDraws e p.micros)

/-- The place after one byte read into RXBUF[i] and the master's acknowledgement bit (44_transaction.md R187). -/
def Place.readOne (e : Env) (i : Nat) (last : Bool) (p : Place) : Place :=
  { p with
    shreg := p.byteRead e
    rxbuf := p.rxbuf.write i (p.byteRead e)
    micros := p.micros + 57
    toks := p.toks ++ (readByteTokens (readDraws e p.micros) ++ sendBitTokens last) }

/-- The place after the reads from index `i` on, `n` of them. -/
def Place.readAll (e : Env) : Nat → Nat → Place → Place
  | _, 0, p => p
  | i, n + 1, p => Place.readAll e (i + 1) n (p.readOne e i (n == 0))

theorem Place.sent_resent (n : Nat) (v : Byte) (nack : Level) (p : Place) :
    (p.sent v true).resent n v nack = p.resent (n + 1) v nack := by
  simp only [Place.sent, Place.resent, List.replicate_succ, List.flatten_cons, List.append_assoc, Place.mk.injEq,
    true_and, and_true]
  omega

theorem Place.resent_zero (v : Byte) (nack : Level) (p : Place) : p.resent 0 v nack = p.sent v nack := by
  simp [Place.sent, Place.resent]

theorem Place.sentAll_eq (vs : List Byte) (p : Place) :
    p.sentAll vs = { p with
      shreg := vs.getLastD p.shreg
      ackf := if vs = [] then p.ackf else false
      micros := p.micros + 64 * vs.length
      toks := p.toks ++ vs.flatMap (fun v => sendByteTokens v false) } := by
  induction vs generalizing p with
  | nil => simp [Place.sentAll]
  | cons v vs ih =>
    rw [show p.sentAll (v :: vs) = (p.sent v false).sentAll vs from rfl, ih]
    simp only [Place.sent, List.getLastD_cons, List.length_cons, List.flatMap_cons, List.append_assoc, ite_self,
      Place.mk.injEq, true_and, and_true, reduceCtorEq, if_false]
    omega

theorem readDraws_after (e : Env) (m n : Nat) : readDraws (e.after m) n = readDraws e (m + n) := by
  simp only [readDraws, Env.draw_after, Nat.add_assoc]

/-! ## What a NACKed data-phase byte decides (44_transaction.md R184) -/

theorem State.ackDecision_nackedData (v : Byte) (att : Nat) (s : State) (h : s.seq.bit = true) :
    s.ackDecision (.data v att) = s.nackedData v att := by
  simp [State.ackDecision, h]

/-- Below the bound the byte is sent again; the attempts are counted where there is a bound. -/
theorem State.nackedData_again (v : Byte) (att : Nat) (s : State) (h : ∀ m, s.cfg.maxAttempts = some m → att ≠ m) :
    ∃ att', (∀ m, s.cfg.maxAttempts = some m → att' = att + 1) ∧
      s.nackedData v att = s.setTodo (sendByteProc v (.data v att') ++ s.seq.todo) := by
  unfold State.nackedData
  cases hm : s.cfg.maxAttempts with
  | none => exact ⟨att, nofun, rfl⟩
  | some m => exact ⟨att + 1, fun _ _ => rfl, if_neg (h m hm)⟩

theorem State.nackedData_last (v : Byte) (att : Nat) (s : State) (h : s.cfg.maxAttempts = some att) :
    s.nackedData v att = s.raiseBusError .dataNack := by
  simp [State.nackedData, h]

/-! ## One procedure further -/

/-- A state in which a block command is accepted (44_transaction.md R185). -/
structure State.BlockReady (s : State) : Prop where
  quiet : s.Quiet
  cfg : s.cfg.legal = true
  out : s.lines.bothOut = true
  idle : s.tstate = .idle

theorem add_ticks_succ (k n t : Nat) : k + t + n * t = k + (n + 1) * t := by
  ring

/-- The ticks of SEND_BYTE (70_reset_and_hazards.md R281, R282). -/
def byteTicks (c : Config) : Nat := 37 + 36 * c.halfTicks

section

variable {s a : State} {k : Nat} {p : Place} (b : s.BlockReady)
include b

theorem State.BlockReady.reaches_accept (l : List Micro) : Reaches s (s.accept l) 0 s.acceptedPlace l :=
  ⟨⟨s.lines, false, s.tstate, []⟩, b.out, rfl⟩

theorem State.BlockReady.going (c : Passing) (todo : List Micro) : (s.standing p c todo).Going :=
  ⟨b.cfg, b.quiet.2.2, b.quiet.2.1⟩

/-- A stretch that decides nothing, with more to come: it leaves both lines outputs, the byte `shreg` and the buffer
`rxbuf`. -/
theorem Reaches.stretch {l rest : List Micro} (h : Reaches s a k p (l ++ rest)) (hl : l ≠ []) (hrest : rest ≠ [])
    (hs : l.all Micro.straight = true)
    (hsafe : ∀ x : Lines, x.bothOut = true → linesSafe x l = true ∧ (linesAfter x l).bothOut = true)
    (shreg : Byte) (rxbuf : Memory)
    (hr : ∀ bit t, ∃ bit' t', regsAfter (s.env.after p.micros) ⟨bit, p.shreg, t, s.rdata, p.rxbuf⟩ l =
      ⟨bit', shreg, t', s.rdata, rxbuf⟩) :
    Reaches s a (k + ticksOf s.cfg l) { p with
      shreg := shreg
      rxbuf := rxbuf
      micros := p.micros + l.length
      toks := p.toks ++ tokensOf (s.env.after p.micros) l } rest := by
  obtain ⟨c, hout, h⟩ := h
  obtain ⟨m, rest, rfl⟩ := List.exists_cons_of_ne_nil hrest
  obtain ⟨hsafe, hafter⟩ := hsafe c.lines hout
  obtain ⟨wl, h'⟩ := run_stretch l (s.standing p c (l ++ m :: rest)) (b.going c _) (m :: rest) hl rfl hs
    (stretchAllowed_of_linesSafe l _ hsafe)
  obtain ⟨bit, t, hregs⟩ := hr c.bit c.tstate
  refine ⟨⟨linesAfter c.lines l, bit, t, wl ++ c.shown⟩, hafter, (run_add _ _ _ _ h).trans (h'.trans ?_)⟩
  rw [show regsAfter (s.standing p c (l ++ m :: rest)).env (s.standing p c (l ++ m :: rest)).regs l = _ from hregs]
  simp only [State.standing, Env.after_add, List.reverse_append, List.append_assoc]
  rfl

theorem Reaches.start {rest : List Micro} (h : Reaches s a k p (startProc ++ rest)) (hrest : rest ≠ []) :
    Reaches s a (k + 4) p.started rest :=
  h.stretch b (List.cons_ne_nil _ _) hrest straight_start linesSafe_start p.shreg p.rxbuf fun _ _ => ⟨_, _, rfl⟩

/-- A byte sent, up to what its acknowledgement decides. -/
theorem Reaches.byte {v : Byte} {policy : AckPolicy} {rest : List Micro} {nack : Level}
    (h : Reaches s a k p (sendByteProc v policy ++ rest)) (hd : s.env.draw .sda (p.micros + 61) = nack) :
    ∃ c : Passing, c.lines.bothOut = true ∧ c.bit = nack ∧ run (k + byteTicks s.cfg) a =
      .next (State.finish (State.ackDecision policy (s.standing (p.sent v nack) c rest))) := by
  obtain ⟨c, hout, h⟩ := h
  obtain ⟨wl, h'⟩ := run_sendByte (s.standing p c (sendByteProc v policy ++ rest)) (b.going c _) v policy rest hout rfl
  rw [show (s.standing p c (sendByteProc v policy ++ rest)).env.draw .sda 61 = nack from
    (Env.draw_after _ _ _ _).trans hd] at h'
  refine ⟨⟨{ c.lines with outScl := false, outSda := v.getLsbD 0 }, nack,
    tstateAtByteEnd (tstateAtByteStart c.tstate) nack, wl ++ c.shown⟩, hout, rfl,
    (run_add _ _ _ _ h).trans (h'.trans ?_)⟩
  simp only [State.standing, Place.sent, Env.after_add, List.reverse_append, List.append_assoc]
  rfl

/-- An ACKed byte: the next procedure begins. -/
theorem Reaches.acked {v : Byte} {policy : AckPolicy} {rest : List Micro}
    (h : Reaches s a k p (sendByteProc v policy ++ rest)) (hrest : rest ≠ [])
    (hd : s.env.draw .sda (p.micros + 61) = false) : Reaches s a (k + byteTicks s.cfg) (p.sent v false) rest := by
  obtain ⟨c, hout, hbit, h⟩ := h.byte b hd
  obtain ⟨m, rest, rfl⟩ := List.exists_cons_of_ne_nil hrest
  refine ⟨c, hout, h.trans (congrArg Host.Outcome.next ?_)⟩
  have decided : State.ackDecision policy (s.standing (p.sent v false) c (m :: rest)) =
      s.standing (p.sent v false) c (m :: rest) := by
    cases policy <;> simp [State.ackDecision, State.standing, hbit]
  rw [decided]
  rfl

/-- A NACK that raises the bus error `code` leaves only a STOP (60_exceptions.md R224). -/
theorem Reaches.raised {v : Byte} {policy : AckPolicy} {rest : List Micro} (code : ErrCode)
    (h : Reaches s a k p (sendByteProc v policy ++ rest)) (hd : s.env.draw .sda (p.micros + 61) = true)
    (hdec : ∀ x : State, x.cfg = s.cfg → x.seq.bit = true → x.ackDecision policy = x.raiseBusError code) :
    Reaches s a (k + byteTicks s.cfg) ((p.sent v true).failed code) (stopProc s.cfg.stopPreload) := by
  obtain ⟨c, hout, hbit, h⟩ := h.byte b hd
  rw [hdec (s.standing (p.sent v true) c rest) rfl hbit] at h
  obtain ⟨m, l, hstop⟩ := List.exists_cons_of_ne_nil (stopProc_ne_nil s.cfg.stopPreload)
  rw [State.finish_running _ m l hstop] at h
  exact ⟨c, hout, h⟩

/-- A NACKed address byte is not sent again (44_transaction.md R183). -/
theorem Reaches.nackedAddress {v : Byte} {rest : List Micro} (h : Reaches s a k p (sendByteProc v .address ++ rest))
    (hd : s.env.draw .sda (p.micros + 61) = true) :
    Reaches s a (k + byteTicks s.cfg) ((p.sent v true).failed .addrNack) (stopProc s.cfg.stopPreload) :=
  h.raised b .addrNack hd fun x _ hbit => by simp [State.ackDecision, hbit]

/-- A data-phase byte NACKed for the MAX_ATTEMPTS-th time is not sent again (44_transaction.md R184). -/
theorem Reaches.nackedLast {v : Byte} {att : Nat} {rest : List Micro}
    (h : Reaches s a k p (sendByteProc v (.data v att) ++ rest)) (hm : s.cfg.maxAttempts = some att)
    (hd : s.env.draw .sda (p.micros + 61) = true) :
    Reaches s a (k + byteTicks s.cfg) ((p.sent v true).failed .dataNack) (stopProc s.cfg.stopPreload) :=
  h.raised b .dataNack hd fun x hx hbit =>
    (x.ackDecision_nackedData v att hbit).trans (x.nackedData_last v att (hx ▸ hm))

/-- A data-phase byte NACKed fewer than MAX_ATTEMPTS times is sent again (44_transaction.md R184). -/
theorem Reaches.nackedAgain {v : Byte} {att : Nat} {rest : List Micro}
    (h : Reaches s a k p (sendByteProc v (.data v att) ++ rest)) (hm : ∀ m, s.cfg.maxAttempts = some m → att < m)
    (hd : s.env.draw .sda (p.micros + 61) = true) :
    ∃ att', (∀ m, s.cfg.maxAttempts = some m → att' = att + 1) ∧
      Reaches s a (k + byteTicks s.cfg) (p.sent v true) (sendByteProc v (.data v att') ++ rest) := by
  obtain ⟨c, hout, hbit, h⟩ := h.byte b hd
  obtain ⟨att', hatt, hdec⟩ := State.nackedData_again v att (s.standing (p.sent v true) c rest) fun m e => (hm m e).ne
  rw [State.ackDecision_nackedData v att _ hbit, hdec] at h
  exact ⟨att', hatt, c, hout, h⟩

/-- A data-phase byte NACKed `n` times within the bound, then ACKed. -/
theorem Reaches.transient (n : Nat) {v : Byte} {att : Nat} {rest : List Micro}
    (h : Reaches s a k p (sendByteProc v (.data v att) ++ rest)) (hrest : rest ≠ [])
    (hm : ∀ m, s.cfg.maxAttempts = some m → att + n ≤ m)
    (hd : ∀ j, j < n → s.env.draw .sda (p.micros + 61 + 64 * j) = true)
    (hlast : s.env.draw .sda (p.micros + 61 + 64 * n) = false) :
    Reaches s a (k + (n + 1) * byteTicks s.cfg) (p.resent n v false) rest := by
  induction n generalizing k p att with
  | zero =>
    rw [Place.resent_zero, Nat.zero_add, Nat.one_mul]
    exact h.acked b hrest hlast
  | succ n ih =>
    obtain ⟨att', hatt, h⟩ := h.nackedAgain b (fun m e => by have := hm m e; omega) (hd 0 (Nat.succ_pos n))
    have shift (j : Nat) : (p.sent v true).micros + 61 + 64 * j = p.micros + 61 + 64 * (j + 1) := by
      simp only [Place.sent]
      omega
    have hstep := ih h (fun m e => by rw [hatt m e]; have := hm m e; omega)
      (fun j hj => shift j ▸ hd (j + 1) (Nat.succ_lt_succ hj)) (shift n ▸ hlast)
    rw [Place.sent_resent, add_ticks_succ] at hstep
    exact hstep

/-- A data-phase byte NACKed on each of its attempts up to the last. -/
theorem Reaches.exhausted (n : Nat) {v : Byte} {att : Nat} {rest : List Micro}
    (h : Reaches s a k p (sendByteProc v (.data v att) ++ rest)) (hm : s.cfg.maxAttempts = some (att + n))
    (hd : ∀ j, j ≤ n → s.env.draw .sda (p.micros + 61 + 64 * j) = true) :
    Reaches s a (k + (n + 1) * byteTicks s.cfg) ((p.resent n v true).failed .dataNack)
      (stopProc s.cfg.stopPreload) := by
  induction n generalizing k p att with
  | zero =>
    rw [Place.resent_zero, Nat.zero_add, Nat.one_mul]
    exact h.nackedLast b hm (hd 0 (Nat.le_refl 0))
  | succ n ih =>
    obtain ⟨att', hatt, h⟩ := h.nackedAgain b (fun m e => by cases hm.symm.trans e; omega) (hd 0 (Nat.zero_le _))
    have shift (j : Nat) : (p.sent v true).micros + 61 + 64 * j = p.micros + 61 + 64 * (j + 1) := by
      simp only [Place.sent]
      omega
    have hstep := ih h (by rw [hatt _ hm, hm]; congr 1; omega) (fun j hj => shift j ▸ hd (j + 1) (Nat.succ_le_succ hj))
    rw [Place.sent_resent, add_ticks_succ] at hstep
    exact hstep

/-- The bytes of a payload, each ACKed at once. -/
theorem Reaches.payload (vs : List Byte) {rest : List Micro} (h : Reaches s a k p (payloadProc vs ++ rest))
    (hrest : rest ≠ []) (hd : ∀ j, j < vs.length → s.env.draw .sda (p.micros + 61 + 64 * j) = false) :
    Reaches s a (k + vs.length * byteTicks s.cfg) (p.sentAll vs) rest := by
  induction vs generalizing k p with
  | nil => simpa [payloadProc, Place.sentAll] using h
  | cons v vs ih =>
    rw [payloadProc, List.append_assoc] at h
    have hbyte := h.acked b (List.append_ne_nil_of_right_ne_nil _ hrest) (hd 0 (Nat.succ_pos _))
    have shift (j : Nat) : (p.sent v false).micros + 61 + 64 * j = p.micros + 61 + 64 * (j + 1) := by
      simp only [Place.sent]
      omega
    have hall := ih hbyte (fun j hj => shift j ▸ hd (j + 1) (Nat.succ_lt_succ hj))
    rw [add_ticks_succ] at hall
    exact hall

/-- One byte read into RXBUF[i] and the master's acknowledgement bit, whichever it is. -/
theorem Reaches.readOne {i : Nat} {last : Bool} {rest : List Micro}
    (h : Reaches s a k p (readByteProc (.storeRx i) ++ sendBitProc .none last ++ rest)) (hrest : rest ≠ []) :
    Reaches s a (k + (30 + 36 * s.cfg.halfTicks)) (p.readOne s.env i last) rest := by
  have hrun := h.stretch b (List.cons_ne_nil _ _) hrest rfl
    (fun x hx => by
      obtain ⟨hread, hout⟩ := linesSafe_readByte x (.storeRx i) nofun ((Lines.bothOut_iff x).1 hx).1
      obtain ⟨hbit, hout'⟩ := linesSafe_sendBit _ last hout
      rw [linesSafe_append, linesAfter_append, hread, hbit]
      exact ⟨rfl, hout'⟩)
    (p.byteRead s.env) (p.rxbuf.write i (p.byteRead s.env))
    (fun bit t => by
      rw [regsAfter_append, regsAfter_readByte, readDraws_after]
      exact ⟨_, _, rfl⟩)
  rw [tokensOf_append, tokensOf_readByte, readDraws_after, ticksOf_append, ticksOf_readByte, ticksOf_sendBit] at hrun
  rw [show 30 + 36 * s.cfg.halfTicks = 26 + 32 * s.cfg.halfTicks + (4 + 4 * s.cfg.halfTicks) by omega]
  exact hrun

/-- The reads of READ_BLOCK (44_transaction.md R187). -/
theorem Reaches.reads (n i : Nat) {rest : List Micro} (h : Reaches s a k p (readsProc i n ++ rest))
    (hrest : rest ≠ []) :
    Reaches s a (k + n * (30 + 36 * s.cfg.halfTicks)) (p.readAll s.env i n) rest := by
  induction n generalizing k p i with
  | zero => simpa [readsProc, Place.readAll] using h
  | succ n ih =>
    rw [readsProc, List.append_assoc] at h
    have hall := ih (i + 1) (h.readOne b (List.append_ne_nil_of_right_ne_nil _ hrest))
    rw [add_ticks_succ] at hall
    exact hall

/-- The STOP that ends the command, on every path (44_transaction.md R182, 60_exceptions.md R224). -/
theorem Reaches.stopped {k' n : Nat} {toks : List Token} (h : Reaches s a k p (stopProc s.cfg.stopPreload))
    (hk : k + (stopMicros s.cfg.stopPreload - 2 + 4 * s.cfg.halfTicks) = k')
    (hn : p.micros + stopMicros s.cfg.stopPreload = n) (ht : p.toks ++ stopTokens s.cfg.stopPreload = toks) :
    ∃ wl, run k' a = .next { s.ended n toks wl p.code with
      lines := { s.lines with outScl := true, outSda := true }
      shreg := p.shreg
      ackf := p.ackf
      rxbuf := p.rxbuf } := by
  subst hk hn ht
  obtain ⟨c, hout, h⟩ := h
  obtain ⟨wl, h'⟩ := run_stretch (stopProc s.cfg.stopPreload) (s.standing p c (stopProc s.cfg.stopPreload))
    (b.going c _) [] (stopProc_ne_nil _) (List.append_nil _).symm (straight_stop _)
    (stretchAllowed_of_linesSafe _ _ (linesSafe_stop _ _ hout))
  have hlines : { c.lines with outScl := true, outSda := true } = { s.lines with outScl := true, outSda := true } := by
    obtain ⟨hc, hd⟩ := (Lines.bothOut_iff _).1 hout
    obtain ⟨hc', hd'⟩ := (Lines.bothOut_iff _).1 b.out
    dsimp only
    rw [hc, hd, hc', hd']
  rw [linesAfter_stop, regsAfter_stop, tokensOf_stop, length_stop,
    show (s.standing p c (stopProc s.cfg.stopPreload)).lines = c.lines from rfl, hlines] at h'
  refine ⟨wl ++ c.shown, ?_⟩
  rw [← ticksOf_stop]
  refine (run_add _ _ _ _ h).trans (h'.trans (congrArg Host.Outcome.next ?_))
  simp only [State.finish, State.setTodo, State.moved, State.setRegs, State.standing, State.ended, Env.after_add,
    List.reverse_append, List.append_assoc, ← b.idle, ← b.quiet.1]
  rfl

end

end Sys2Proof.Machine
end

section
/-! SUPPORT. The block commands in the pieces their procedures are made of, the places they come to, and what their
reads leave behind (44_transaction.md R185 to R187, R192). -/

namespace Sys2Proof.Machine

/-! ## The two procedures (44_transaction.md R186, R187) -/

/-- The data-phase bytes WRITE_BLOCK sends: the register byte, then the payload. -/
def State.dataBytes (s : State) (reg count : Byte) : List Byte := reg :: s.txBytes 0 count.toNat

/-- START, the address byte with WRITE, and `l`: both block commands begin so. -/
def addressedProc (addr : Byte) (l : List Micro) : List Micro :=
  startProc ++ (sendByteProc (addr <<< 1) .address ++ l)

/-- READ_BLOCK from its second START on. -/
def readPhaseProc (preload : Bool) (addr : Byte) (n : Nat) : List Micro :=
  startProc ++ (sendByteProc (addr <<< 1 ||| 1#8) .address ++ (readsProc 0 n ++ stopProc preload))

theorem addrByte_write (addr : Byte) : addrByte addr .write = addr <<< 1 := by
  simp [addrByte, rwBit]

theorem commandProc_writeBlock (s : State) (addr reg count : Byte) :
    commandProc (.writeBlock addr reg count) s =
      addressedProc addr (payloadProc (s.dataBytes reg count) ++ stopProc s.cfg.stopPreload) := by
  simp only [commandProc, writeBlockProc, sendAddressProc, addrByte_write, addressedProc, State.dataBytes, payloadProc,
    countOperand, List.append_assoc]

theorem commandProc_readBlock (s : State) (addr reg count : Byte) :
    commandProc (.readBlock addr reg count) s =
      addressedProc addr (sendDataProc reg ++ readPhaseProc s.cfg.stopPreload addr count.toNat) := by
  simp only [commandProc, readBlockProc, sendAddressProc, addrByte_write, addressedProc, readPhaseProc, countOperand,
    List.append_assoc]
  rfl

theorem payloadProc_append (us vs : List Byte) : payloadProc (us ++ vs) = payloadProc us ++ payloadProc vs := by
  induction us with
  | nil => rfl
  | cons u us ih => rw [List.cons_append, payloadProc, ih, payloadProc, List.append_assoc]

theorem drop_eq_getD_cons (vs : List Byte) (p : Nat) (d : Byte) (h : p < vs.length) :
    vs.drop p = vs.getD p d :: vs.drop (p + 1) := by
  rw [List.drop_eq_getElem_cons h, List.getD_eq_getElem vs d h]

/-- A payload up to its `p`-th byte, that byte, and the bytes after it. -/
theorem payloadProc_split (vs : List Byte) (p : Nat) (h : p < vs.length) :
    payloadProc vs =
      payloadProc (vs.take p) ++ (sendDataProc (vs.getD p 0#8) ++ payloadProc (vs.drop (p + 1))) := by
  conv_lhs => rw [← List.take_append_drop p vs, drop_eq_getD_cons vs p 0#8 h]
  rw [payloadProc_append, payloadProc]

theorem State.dataBytes_length (s : State) (reg count : Byte) : (s.dataBytes reg count).length = count.toNat + 1 := by
  rw [State.dataBytes, List.length_cons, State.txBytes_length]

theorem State.txBytes_getLastD (s : State) (i n : Nat) (d : Byte) :
    (s.txBytes i (n + 1)).getLastD d = s.txByte (i + n) := by
  induction n generalizing i d with
  | zero => rfl
  | succ n ih =>
    rw [State.txBytes, List.getLastD_cons, ih (i + 1)]
    congr 1
    omega

/-- The last data-phase byte is the last payload byte, wherever the bytes are cut. -/
theorem State.dataBytes_drop_getLastD (s : State) (reg count : Byte) (p : Nat) (hp : p ≤ count.toNat)
    (hc : 1 ≤ count.toNat) :
    ((s.dataBytes reg count).drop (p + 1)).getLastD ((s.dataBytes reg count).getD p 0#8) =
      s.txByte (count.toNat - 1) := by
  have hlt : p < (s.dataBytes reg count).length := by rw [State.dataBytes_length]; omega
  have hlast : (s.dataBytes reg count).getLastD 0#8 = s.txByte (count.toNat - 1) := by
    obtain ⟨n, hn⟩ := Nat.exists_eq_add_of_le' hc
    rw [State.dataBytes, hn, List.getLastD_cons, State.txBytes_getLastD, Nat.zero_add, Nat.add_sub_cancel]
  rw [← hlast, ← List.getLastD_cons (a := 0#8), ← drop_eq_getD_cons _ _ _ hlt, List.getLastD_eq_getLast?,
    List.getLastD_eq_getLast?, List.getLast?_drop, if_neg (by omega)]

/-! ## What the reads leave behind (20_memory.md R62) -/

theorem Place.byteRead_eq (e : Env) (p : Place) (d m : Nat) (h : p.micros = d + m) :
    p.byteRead e = assemble (readDraws (e.after d) m) := by
  rw [Place.byteRead, h, readDraws_after]

theorem Place.readAll_frame (e : Env) (i n : Nat) (p : Place) :
    (p.readAll e i n).ackf = p.ackf ∧ (p.readAll e i n).code = p.code ∧
      (p.readAll e i n).micros = p.micros + 57 * n := by
  induction n generalizing i p with
  | zero => exact ⟨rfl, rfl, rfl⟩
  | succ n ih =>
    obtain ⟨ha, hc, hm⟩ := ih (i + 1) (p.readOne e i (n == 0))
    refine ⟨ha, hc, hm.trans ?_⟩
    simp only [Place.readOne]
    omega

section

variable {e : Env} {i d : Nat} {p : Place} (h : p.micros = d + (200 + 57 * i))
include h

theorem Place.readOne_micros (last : Bool) : (p.readOne e i last).micros = d + (200 + 57 * (i + 1)) := by
  simp only [Place.readOne, h]
  omega

theorem Place.readAll_toks (n : Nat) : (p.readAll e i n).toks = p.toks ++ readsTokens (e.after d) i n := by
  induction n generalizing i p with
  | zero => exact (List.append_nil _).symm
  | succ n ih =>
    rw [Place.readAll, ih (Place.readOne_micros h _), readsTokens, readDraws_after, ← h]
    simp only [Place.readOne, List.append_assoc]

theorem Place.readAll_shreg (n : Nat) (hn : 1 ≤ n) :
    (p.readAll e i n).shreg = assemble (readDraws (e.after d) (200 + 57 * (i + n - 1))) := by
  induction n, hn using Nat.le_induction generalizing i p with
  | base => exact Place.byteRead_eq e p d _ h
  | succ n hn ih =>
    rw [Place.readAll, ih (Place.readOne_micros h _), show i + 1 + n - 1 = i + (n + 1) - 1 by omega]

theorem Place.readAll_rxbuf (n j : Nat) :
    (p.readAll e i n).rxbuf.read j =
      if i ≤ j ∧ j < i + n then some (assemble (readDraws (e.after d) (200 + 57 * j))) else p.rxbuf.read j := by
  induction n generalizing i p with
  | zero => rw [if_neg (by omega)]; rfl
  | succ n ih =>
    rw [Place.readAll, ih (Place.readOne_micros h _)]
    by_cases hj : j = i
    · subst hj
      rw [if_neg (by omega), if_pos (by omega), ← Place.byteRead_eq e p d _ h]
      exact Memory.read_write_same _ _ _
    · have hother : (p.readOne e i (n == 0)).rxbuf.read j = p.rxbuf.read j := Memory.read_write_other _ _ _ _ hj
      rw [hother]
      congr 1
      simp only [eq_iff_iff]
      omega

end

/-! ## Ticks (70_reset_and_hazards.md R281, R282) -/

theorem two_le_stopMicros (preload : Bool) : 2 ≤ stopMicros preload := by
  cases preload <;> decide

theorem ticks_writeBlock (c : Config) (addr reg count : Byte) :
    (costOf c.stopPreload (.writeBlock addr reg count)).ticks c.halfTicks =
      4 + (count.toNat + 2) * byteTicks c + (stopMicros c.stopPreload - 2 + 4 * c.halfTicks) := by
  obtain ⟨n, hn⟩ := Nat.exists_eq_add_of_le' (two_le_stopMicros c.stopPreload)
  have hwork : 4 + 64 * (count.toNat + 2) + (n + 2) - (27 * (count.toNat + 2) + 2) =
      4 + 37 * (count.toNat + 2) + n := by omega
  simp only [Cost.ticks, costOf, byteTicks, hn, hwork, Nat.add_sub_cancel]
  ring

theorem ticks_readBlock (c : Config) (addr reg count : Byte) :
    (costOf c.stopPreload (.readBlock addr reg count)).ticks c.halfTicks =
      4 + 2 * byteTicks c + 4 + byteTicks c + count.toNat * (30 + 36 * c.halfTicks) +
        (stopMicros c.stopPreload - 2 + 4 * c.halfTicks) := by
  obtain ⟨n, hn⟩ := Nat.exists_eq_add_of_le' (two_le_stopMicros c.stopPreload)
  have hwork : 200 + 57 * count.toNat + (n + 2) - (83 + 27 * count.toNat) = 119 + 30 * count.toNat + n := by
    omega
  simp only [Cost.ticks, costOf, byteTicks, hn, hwork, Nat.add_sub_cancel]
  ring

/-! ## From the issue to the data phase -/

theorem Legal.blockReady {i : Instr} {s : State} {addr reg count : Byte} (hl : Legal i s) (q : s.Quiet)
    (hc : s.cfg.legal = true) (hi : i = .writeBlock addr reg count ∨ i = .readBlock addr reg count) :
    s.BlockReady := by
  obtain ⟨-, hdir, hidle, -⟩ := hl
  obtain rfl | rfl := hi <;> exact ⟨q, hc, (Lines.bothOut_iff _).2 hdir, hidle⟩

theorem Legal.count_pos {i : Instr} {s : State} {addr reg count : Byte} (hl : Legal i s)
    (hi : i = .writeBlock addr reg count ∨ i = .readBlock addr reg count) : 1 ≤ count.toNat := by
  obtain ⟨-, -, -, hcount⟩ := hl
  obtain rfl | rfl := hi <;> exact hcount.1

/-- The place after START and the address byte with WRITE, ACKed. -/
def State.addressedPlace (s : State) (addr : Byte) : Place := (s.acceptedPlace.started).sent (addr <<< 1) false

theorem State.BlockReady.reaches_address {s : State} (b : s.BlockReady) (addr : Byte) (l : List Micro) :
    Reaches s (s.accept (addressedProc addr l)) 4 s.acceptedPlace.started
      (sendByteProc (addr <<< 1) .address ++ l) := by
  simpa using (b.reaches_accept (addressedProc addr l)).start b
    (List.append_ne_nil_of_left_ne_nil (List.cons_ne_nil _ _) l)

theorem State.BlockReady.reaches_addressed {s : State} (b : s.BlockReady) (addr : Byte) {l : List Micro} (hl : l ≠ [])
    (hd : ackDraw s.env 0 = false) :
    Reaches s (s.accept (addressedProc addr l)) (4 + byteTicks s.cfg) (s.addressedPlace addr) l :=
  (b.reaches_address addr l).acked b hl hd

theorem payloadProc_stop_ne_nil (vs : List Byte) (preload : Bool) : payloadProc vs ++ stopProc preload ≠ [] :=
  List.append_ne_nil_of_right_ne_nil _ (stopProc_ne_nil preload)

theorem Config.legal_maxAttempts {c : Config} (hc : c.legal = true) {m : Nat} (hm : c.maxAttempts = some m) :
    3 ≤ m := by
  simp only [Config.legal, Bool.and_eq_true, hm, decide_eq_true_eq] at hc
  obtain ⟨⟨⟨-, hm⟩, -⟩, -⟩ := hc
  exact hm

/-- Both block commands begin with START and the address byte. -/
theorem commandProc_block {i : Instr} {addr reg count : Byte} (s : State)
    (hi : i = .writeBlock addr reg count ∨ i = .readBlock addr reg count) :
    ∃ l, commandProc i s = addressedProc addr l := by
  obtain rfl | rfl := hi
  · exact ⟨_, commandProc_writeBlock s addr reg count⟩
  · exact ⟨_, commandProc_readBlock s addr reg count⟩

/-- A legal command runs as its procedure does from its acceptance. -/
theorem Legal.runs {i : Instr} {s : State} (hl : Legal i s) (q : s.Quiet) {l : List Micro} (hproc : commandProc i s = l)
    {k : Nat} {f : List (Level × Level) → State} (h : ∃ wl, run k (s.accept l) = .next (f wl)) :
    ∃ a wl, exec i s = .next a ∧ run k a = .next (f wl) := by
  obtain ⟨wl, h⟩ := h
  exact ⟨_, wl, exec_legal i s q.not_busy hl, hproc ▸ h⟩

/-- The command that has a data-phase byte at position `p`: START and the address byte, the bytes before it, that byte,
and a tail. -/
theorem commandProc_dataByte {i : Instr} {addr reg count : Byte} {p : Nat} (s : State)
    (hi : (i = .writeBlock addr reg count ∧ p ≤ count.toNat) ∨ (i = .readBlock addr reg count ∧ p = 0)) :
    ∃ tail, commandProc i s = addressedProc addr (payloadProc ((s.dataBytes reg count).take p) ++
      (sendDataProc ((s.dataBytes reg count).getD p 0#8) ++ tail)) := by
  obtain ⟨rfl, hp⟩ | ⟨rfl, rfl⟩ := hi
  · have hlt : p < (s.dataBytes reg count).length := by rw [State.dataBytes_length]; omega
    exact ⟨payloadProc ((s.dataBytes reg count).drop (p + 1)) ++ stopProc s.cfg.stopPreload, by
      rw [commandProc_writeBlock, payloadProc_split _ p hlt]
      simp only [List.append_assoc]⟩
  · exact ⟨_, commandProc_readBlock s addr reg count⟩

/-- The acknowledgement of the `j`-th byte from a place on that the command has reached after `i` bytes. -/
theorem draw_eq_ackDraw (e : Env) {n : Nat} (i j : Nat) (h : n = 4 + 64 * i) :
    e.draw .sda (n + 61 + 64 * j) = ackDraw e (i + j) := by
  rw [ackDraw]
  congr 1
  omega

/-- The place before the `p`-th data-phase byte, every byte so far ACKed at once. -/
def State.dataPlace (s : State) (addr reg count : Byte) (p : Nat) : Place :=
  { s.acceptedPlace with
    shreg := ((s.dataBytes reg count).take p).getLastD (addr <<< 1)
    ackf := false
    micros := 4 + 64 * (p + 1)
    toks := startTokens ++ sendByteTokens (addr <<< 1) false ++
      ((s.dataBytes reg count).take p).flatMap (fun v => sendByteTokens v false) }

theorem State.addressedPlace_sentAll (s : State) {addr reg count : Byte} {p : Nat} (hp : p ≤ count.toNat) :
    (s.addressedPlace addr).sentAll ((s.dataBytes reg count).take p) = s.dataPlace addr reg count p := by
  have hlen : min p (count.toNat + 1) = p := by omega
  simp only [Place.sentAll_eq, State.addressedPlace, State.dataPlace, Place.sent, Place.started, State.acceptedPlace,
    List.length_take, State.dataBytes_length, hlen, ite_self, List.nil_append, Place.mk.injEq, true_and, and_true]
  omega

theorem State.BlockReady.reaches_dataByte {s : State} (b : s.BlockReady) (addr reg : Byte) {count : Byte} {p : Nat}
    (v : Byte) (tail : List Micro) (hp : p ≤ count.toNat) (hd : ∀ j, j ≤ p → ackDraw s.env j = false) :
    Reaches s
      (s.accept (addressedProc addr (payloadProc ((s.dataBytes reg count).take p) ++ (sendDataProc v ++ tail))))
      (4 + (p + 1) * byteTicks s.cfg) (s.dataPlace addr reg count p) (sendDataProc v ++ tail) := by
  have hl : sendDataProc v ++ tail ≠ [] := List.cons_ne_nil _ _
  have hlen : ((s.dataBytes reg count).take p).length = p := by
    rw [List.length_take, State.dataBytes_length]
    omega
  have haddr := b.reaches_addressed addr (List.append_ne_nil_of_right_ne_nil
    (payloadProc ((s.dataBytes reg count).take p)) hl) (hd 0 (Nat.zero_le p))
  have hall := haddr.payload b _ hl fun j hj => (draw_eq_ackDraw s.env 1 j rfl).trans (hd (1 + j) (by omega))
  rw [hlen, add_ticks_succ, s.addressedPlace_sentAll hp] at hall
  exact hall

theorem flatten_replicate_succ (n : Nat) (l : List Token) :
    (List.replicate (n + 1) l).flatten = (List.replicate n l).flatten ++ l := by
  simp [List.replicate_succ']

/-- The place after the `p`-th data-phase byte of WRITE_BLOCK, NACKed `k` times, and the bytes after it. -/
theorem State.dataPlace_sentAll (s : State) {addr reg count : Byte} {p k : Nat} (hp : p ≤ count.toNat)
    (hc : 1 ≤ count.toNat) :
    ((s.dataPlace addr reg count p).resent k ((s.dataBytes reg count).getD p 0#8) false).sentAll
      ((s.dataBytes reg count).drop (p + 1)) =
    { s.acceptedPlace with
      shreg := s.txByte (count.toNat - 1)
      ackf := false
      micros := 4 + 64 * (count.toNat + 2 + k)
      toks := startTokens ++ sendByteTokens (addr <<< 1) false ++
        ((s.dataBytes reg count).take p).flatMap (fun v => sendByteTokens v false) ++
        (List.replicate k (sendByteTokens ((s.dataBytes reg count).getD p 0#8) true)).flatten ++
        ((s.dataBytes reg count).drop p).flatMap (fun v => sendByteTokens v false) } := by
  have hlt : p < (s.dataBytes reg count).length := by rw [State.dataBytes_length]; omega
  rw [← s.dataBytes_drop_getLastD reg count p hp hc, drop_eq_getD_cons _ p 0#8 hlt, List.flatMap_cons]
  simp only [Place.sentAll_eq, Place.resent, State.dataPlace, List.length_drop, State.dataBytes_length, ite_self,
    List.append_assoc, Place.mk.injEq, true_and, and_true]
  omega

/-! ## READ_BLOCK's way to its second address byte -/

/-- The place after READ_BLOCK's register byte, NACKed `k` times, and the second START. -/
def State.restartedPlace (s : State) (addr reg : Byte) (k : Nat) : Place :=
  { s.acceptedPlace with
    shreg := reg
    ackf := false
    micros := 64 * k + 136
    toks := startTokens ++ sendByteTokens (addr <<< 1) false ++ (List.replicate k (sendByteTokens reg true)).flatten ++
      sendByteTokens reg false ++ startTokens }

theorem State.addressedPlace_restarted (s : State) (addr reg : Byte) (k : Nat) :
    ((s.addressedPlace addr).resent k reg false).started = s.restartedPlace addr reg k := by
  simp only [State.addressedPlace, State.restartedPlace, Place.started, Place.resent, Place.sent, State.acceptedPlace,
    List.nil_append, List.append_assoc, Place.mk.injEq, true_and, and_true]
  omega

/-- A READ_BLOCK whose register byte is NACKed `k` times within the bound comes to its second address byte. -/
theorem State.BlockReady.reaches_readAddress {s : State} (b : s.BlockReady) (addr reg : Byte) (n k : Nat)
    (hk : ∀ m, s.cfg.maxAttempts = some m → k < m) (haddr : ackDraw s.env 0 = false)
    (hnack : ∀ j, 1 ≤ j → j ≤ k → ackDraw s.env j = true) (hack : ackDraw s.env (k + 1) = false) :
    Reaches s (s.accept (addressedProc addr (sendDataProc reg ++ readPhaseProc s.cfg.stopPreload addr n)))
      (8 + (k + 2) * byteTicks s.cfg) (s.restartedPlace addr reg k)
      (sendByteProc (addr <<< 1 ||| 1#8) .address ++ (readsProc 0 n ++ stopProc s.cfg.stopPreload)) := by
  have haddressed := b.reaches_addressed addr
    (List.cons_ne_nil _ _ : sendDataProc reg ++ readPhaseProc s.cfg.stopPreload addr n ≠ []) haddr
  have hsent := haddressed.transient b k (List.cons_ne_nil _ _)
    (fun m hm => by have := hk m hm; omega)
    (fun j hj => (draw_eq_ackDraw s.env 1 j rfl).trans (hnack _ (by omega) (by omega)))
    ((draw_eq_ackDraw s.env 1 k rfl).trans (Nat.add_comm k 1 ▸ hack))
  have hstart := hsent.start b (List.cons_ne_nil _ _)
  rw [s.addressedPlace_restarted, show 4 + byteTicks s.cfg + (k + 1) * byteTicks s.cfg + 4 =
    8 + (k + 2) * byteTicks s.cfg by ring] at hstart
  exact hstart

/-- The place after READ_BLOCK's second address byte, ACKed. -/
def State.readingPlace (s : State) (addr reg : Byte) (k : Nat) : Place :=
  (s.restartedPlace addr reg k).sent (addr <<< 1 ||| 1#8) false

/-! ## The levels READ_BLOCK writes and samples (44_transaction.md R192) -/

theorem dataWrites_append (l r : List Token) : dataWrites (l ++ r) = dataWrites r ++ dataWrites l := by
  induction l with
  | nil => exact (List.append_nil _).symm
  | cons tok l ih =>
    cases tok with
    | w line v => cases line <;> simp [dataWrites, ih]
    | _ => exact ih

theorem dataSamples_append (l r : List Token) : dataSamples (l ++ r) = dataSamples r ++ dataSamples l := by
  induction l with
  | nil => exact (List.append_nil _).symm
  | cons tok l ih =>
    cases tok with
    | s line v => cases line <;> simp [dataSamples, ih]
    | _ => exact ih

theorem dataWrites_reverse_append (l r : List Token) :
    dataWrites (l ++ r).reverse = dataWrites l.reverse ++ dataWrites r.reverse := by
  rw [List.reverse_append, dataWrites_append]

theorem dataSamples_reverse_append (l r : List Token) :
    dataSamples (l ++ r).reverse = dataSamples l.reverse ++ dataSamples r.reverse := by
  rw [List.reverse_append, dataSamples_append]

theorem dataWrites_sendByte (v : Byte) (nack : Level) :
    dataWrites (sendByteTokens v nack).reverse = bitsMsbFirst v := rfl

theorem dataSamples_sendByte (v : Byte) (nack : Level) : dataSamples (sendByteTokens v nack).reverse = [nack] := rfl

theorem dataWrites_start : dataWrites startTokens.reverse = [true, false] := rfl

theorem dataSamples_start : dataSamples startTokens.reverse = [] := rfl

theorem dataWrites_stop (preload : Bool) :
    dataWrites (stopTokens preload).reverse = (if preload then [false] else []) ++ [true] := by
  cases preload <;> rfl

theorem dataSamples_stop (preload : Bool) : dataSamples (stopTokens preload).reverse = [] := by
  cases preload <;> rfl

/-- The master's acknowledgement bits are the only data writes of the reads. -/
theorem dataWrites_reads (e : Env) (i n : Nat) (hn : 1 ≤ n) :
    dataWrites (readsTokens e i n).reverse = List.replicate (n - 1) false ++ [true] := by
  induction n, hn using Nat.le_induction generalizing i with
  | base => rfl
  | succ n hn ih =>
    have hlast : (n == 0) = false := beq_false_of_ne (by omega)
    rw [readsTokens, dataWrites_reverse_append, dataWrites_reverse_append, ih, hlast, Nat.add_sub_cancel]
    conv_rhs => rw [← Nat.sub_add_cancel hn, List.replicate_succ]
    rfl

theorem dataSamples_reads (e : Env) (i n : Nat) : (dataSamples (readsTokens e i n).reverse).length = 8 * n := by
  induction n generalizing i with
  | zero => rfl
  | succ n ih =>
    rw [readsTokens, dataSamples_reverse_append, dataSamples_reverse_append, List.length_append, ih,
      show (dataSamples _ ++ dataSamples _).length = 8 from rfl]
    omega

end Sys2Proof.Machine
end

section
/-! SUPPORT. What a command keeps from micro-operation to micro-operation, and why a block command raises data under a
high clock only in its STOP (44_transaction.md R190). -/

namespace Sys2Proof.Machine

/-! ## From micro-operation to micro-operation -/

/-- What one whole micro-operation does to all but the registers. -/
structure MicroStep (s : State) (m : Micro) (rest : List Micro) (t : State) : Prop where
  cfg : t.cfg = s.cfg
  inputs : t.inputs = s.inputs
  timer : t.timer = s.timer
  lines : t.lines = m.linesAfter s.lines
  wires : t.wires = (s.effect m).wires
  todo : t.seq.todo = rest ∨ ((∃ policy, m.post = .ackEnd policy) ∧
    ((∃ v att, t.seq.todo = sendByteProc v (.data v att) ++ rest) ∨ t.seq.todo = stopProc s.cfg.stopPreload))

theorem MicroStep.of_retire (s x : State) (m : Micro) (rest : List Micro) (tok : Token)
    (hx : x = { s.settle with lines := m.linesAfter s.lines, seq := x.seq }) :
    MicroStep s m rest (x.retire tok m.post rest) := by
  obtain ⟨hcfg, hlines, htimer, -, -, hin, -, -, hwires, -⟩ := State.retire_frame tok m.post rest x
  have htodo := State.retire_todo tok m.post rest x
  rw [hx] at hcfg hlines htimer hin hwires htodo
  rw [hx]
  exact ⟨hcfg, hin, htimer, hlines, hwires.trans (s.effect_wires_eq m).symm, htodo⟩

theorem State.microStep_spec (s t : State) (m : Micro) (rest : List Micro) (hm : s.seq.todo = m :: rest)
    (h : s.microStep = .next t) : MicroStep s m rest t := by
  obtain ⟨op, p⟩ := m
  rw [State.microStep, hm] at h
  cases op with
  | w l v =>
    simp only [State.writeLine] at h
    split at h
    · cases h
      exact .of_retire s _ ⟨.w l v, p⟩ rest _ rfl
    · cases h
  | s l =>
    simp only [State.sampleLine] at h
    split at h
    · cases h
      exact .of_retire s _ ⟨.s l, p⟩ rest _ rfl
    · cases h
  | t l d =>
    cases h
    exact .of_retire s _ ⟨.t l d, p⟩ rest _ rfl
  | h =>
    cases h
    exact .of_retire s _ ⟨.h, p⟩ rest _ rfl
  | f =>
    cases h
    exact .of_retire s _ ⟨.f, p⟩ rest _ rfl

theorem run_idle (k : Nat) (s : State) (hin : s.inputs = []) (h : s.seq.todo = []) : run k s = .next s := by
  induction k with
  | zero => rfl
  | succ k ih => rw [run_succ k s s ((step_quiet s hin).trans (s.tick_idle h)), ih]

/-- A run that answers answers on its way. -/
theorem run_split (j k : Nat) (s t : State) (h : run (j + k) s = .next t) :
    ∃ u, run j s = .next u ∧ run k u = .next t := by
  induction j generalizing s with
  | zero => exact ⟨s, rfl, Nat.zero_add k ▸ h⟩
  | succ j ih =>
    rw [Nat.succ_add] at h
    obtain ⟨u, hu, hr⟩ := run_succ_inv _ s t h
    obtain ⟨v, hv, hk⟩ := ih u hr
    exact ⟨v, (run_succ j s u hu).trans hv, hk⟩

/-- The controller, left alone, keeps its parameters (10_state.md R40). -/
theorem run_cfg (k : Nat) (s t : State) (hin : s.inputs = []) (h : run k s = .next t) : t.cfg = s.cfg := by
  induction k generalizing s with
  | zero =>
    cases h
    rfl
  | succ k ih =>
    obtain ⟨u, hu, hr⟩ := run_succ_inv k s t h
    rw [step_quiet s hin] at hu
    have f := State.tick_frame s u hu
    exact (ih u (f.inputs.trans hin) hr).trans f.cfg

/-- Before the last tick of its next micro-operation a command is busy. -/
theorem run_busy_within (j : Nat) (s : State) (g : s.Going) (m : Micro) (rest : List Micro)
    (hm : s.seq.todo = m :: rest) (hj : j < microTicks s.cfg m.op) : ∃ u, run j s = .next u ∧ u.busy = true := by
  have busy (u : State) (hu : u.seq = s.seq) : u.busy = true :=
    u.busy_iff.2 (by rw [hu, hm]; exact List.cons_ne_nil _ _)
  by_cases hw : m.op = .h ∨ m.op = .f
  · have hleft : s.waitLeft (microTicks s.cfg m.op) = microTicks s.cfg m.op := if_pos g.timer
    obtain ⟨u, hu, hseq⟩ := run_wait_seq j s m rest g.inputs hm hw (hleft.symm ▸ hj)
    exact ⟨u, hu, busy u hseq⟩
  · have h0 : j = 0 := by
      obtain ⟨op, p⟩ := m
      cases op with
      | h => exact absurd (.inl rfl) hw
      | f => exact absurd (.inr rfl) hw
      | _ => exact Nat.lt_one_iff.1 hj
    exact ⟨s, h0 ▸ rfl, busy s rfl⟩

theorem microTicks_pos {c : Config} (op : MicroOp) (hc : c.legal = true) : 0 < microTicks c op := by
  cases op with
  | h => exact Config.legal_halfTicks c hc
  | f => exact Config.legal_fullTicks c hc
  | _ => exact Nat.one_pos

/-- What holds at a command's acceptance `a`, and is kept from the beginning of each of its micro-operations to the
beginning of the next, holds when it has ended. -/
theorem run_keeps_micro {P : State → Prop} {a : State} (ga : a.Going) (ha : P a)
    (hP : ∀ n u v m rest, run n a = .next u → u.Going → u.seq.todo = m :: rest → P u → MicroStep u m rest v → P v)
    (k : Nat) (t : State) (h : run k a = .next t) (ht : t.busy = false) : P t := by
  have main : ∀ k n u, run n a = .next u → u.Going → P u → run k u = .next t → P t := by
    intro k
    induction k using Nat.strong_induction_on with
    | _ k ih =>
      intro n u hn g hu hk
      cases hm : u.seq.todo with
      | nil =>
        rw [run_idle k u g.inputs hm] at hk
        cases hk
        exact hu
      | cons m rest =>
        by_cases hlt : k < microTicks u.cfg m.op
        · obtain ⟨v, hv, hbusy⟩ := run_busy_within k u g m rest hm hlt
          cases hk.symm.trans hv
          rw [ht] at hbusy
          cases hbusy
        · obtain ⟨j, rfl⟩ := Nat.exists_eq_add_of_le (Nat.le_of_not_lt hlt)
          obtain ⟨v, hv, hj⟩ := run_split _ j u t hk
          have hspec := u.microStep_spec v m rest hm
            ((ticksRefineMicroOperations u m rest g.legal g.inputs g.timer hm).symm.trans hv)
          have gv : v.Going := ⟨hspec.cfg ▸ g.legal, hspec.inputs.trans g.inputs, hspec.timer.trans g.timer⟩
          have hpos := microTicks_pos m.op g.legal
          exact ih j (by omega) _ v ((run_add _ _ _ _ hn).trans hv) gv (hP n u v m rest hn g hm hu hspec) hj
  exact main k 0 a rfl ga ha h

/-! ## Micro-operations that raise no data under a high clock -/

/-- The clock latch after a micro-operation that finds it at `c`. -/
def Micro.clockAfter (c : Level) (m : Micro) : Level :=
  match m.op with
  | .w .scl v => v
  | _ => c

/-- The micro-operation, finding the clock latch at `c`, raises no data under a high clock; the clock is low where an
acknowledgement may call for a STOP or a repeated byte. -/
def Micro.calm (c : Level) (m : Micro) : Bool :=
  (match m.op with
    | .w .sda v => !(c && v)
    | .t .sda _ => !c
    | .t .scl _ => false
    | _ => true) &&
  (match m.post with
    | .ackEnd _ => !(m.clockAfter c)
    | _ => true)

/-- Every micro-operation of a stretch, which finds the clock latch at `c`, is calm, and the clock ends low. -/
def calmToLow : Level → List Micro → Bool
  | c, [] => !c
  | c, m :: l => m.calm c && calmToLow (m.clockAfter c) l

theorem calmToLow_append {c : Level} {l r : List Micro} (hl : calmToLow c l = true) (hr : calmToLow false r = true) :
    calmToLow c (l ++ r) = true := by
  induction l generalizing c with
  | nil =>
    cases c with
    | false => exact hr
    | true => cases hl
  | cons m l ih =>
    rw [calmToLow, Bool.and_eq_true] at hl
    rw [List.cons_append, calmToLow, hl.1, ih hl.2, Bool.and_self]

theorem calmToLow_start : calmToLow false startProc = true := rfl

theorem calmToLow_sendByte (v : Byte) (policy : AckPolicy) : calmToLow false (sendByteProc v policy) = true := rfl

theorem calmToLow_payload (vs : List Byte) : calmToLow false (payloadProc vs) = true := by
  induction vs with
  | nil => rfl
  | cons v vs ih => exact calmToLow_append (calmToLow_sendByte v _) ih

theorem calmToLow_reads (i n : Nat) : calmToLow false (readsProc i n) = true := by
  induction n generalizing i with
  | zero => rfl
  | succ n ih => exact calmToLow_append (l := readByteProc (.storeRx i) ++ sendBitProc .none (n == 0)) rfl (ih (i + 1))

/-- A block command up to its STOP: its first micro-operation raises data, the others are calm. -/
theorem commandProc_block_calm {i : Instr} {addr reg count : Byte} (s : State)
    (hi : i = .writeBlock addr reg count ∨ i = .readBlock addr reg count) :
    ∃ l, commandProc i s = plain (.w .sda true) :: (l ++ stopProc s.cfg.stopPreload) ∧ calmToLow true l = true := by
  have hfirst (l : List Micro) (hl : calmToLow false l = true) :
      calmToLow true (startProc.tail ++ (sendByteProc (addr <<< 1) .address ++ l)) = true :=
    calmToLow_append rfl (calmToLow_append (calmToLow_sendByte _ _) hl)
  obtain rfl | rfl := hi
  · refine ⟨_, ?_, hfirst _ (calmToLow_payload (s.dataBytes reg count))⟩
    rw [commandProc_writeBlock, addressedProc]
    simp only [List.append_assoc]
    rfl
  · refine ⟨_, ?_, hfirst (sendDataProc reg ++ (startProc ++ (sendByteProc (addr <<< 1 ||| 1#8) .address ++
      readsProc 0 count.toNat))) (calmToLow_append (calmToLow_sendByte _ _) (calmToLow_append calmToLow_start
        (calmToLow_append (calmToLow_sendByte _ _) (calmToLow_reads _ _))))⟩
    rw [commandProc_readBlock, addressedProc, readPhaseProc]
    simp only [List.append_assoc]
    rfl

theorem Micro.linesAfter_outScl (m : Micro) (x : Lines) : (m.linesAfter x).outScl = m.clockAfter x.outScl := by
  obtain ⟨op, p⟩ := m
  cases op with
  | w l v => cases l <;> rfl
  | t l d => cases l <;> rfl
  | _ => rfl

theorem Micro.calm_ackEnd {m : Micro} {c : Level} {policy : AckPolicy} (h : m.calm c = true)
    (hp : m.post = .ackEnd policy) : m.clockAfter c = false := by
  simp only [Micro.calm, hp, Bool.and_eq_true, Bool.not_eq_true'] at h
  exact h.2

/-! ## The wire history of a calm micro-operation -/

/-- The environment leaves the data line where it is at the beginning of the next micro-operation. -/
def State.EnvHoldsData (s : State) : Prop := s.env.move.level .sda = s.env.level .sda

/-- An environment that holds data leaves the pins where they are while the clock is an output. -/
theorem State.pinsMoved_eq (s : State) (hd : s.lines.dirScl = .output) (he : s.EnvHoldsData) :
    s.pinsMoved = s.pins := by
  have hclk (e : Env) : State.wire { s with env := e } .scl = s.lines.outScl := State.wire_output _ .scl hd
  have hsda : State.wire { s with env := s.env.move } .sda = s.wire .sda := by
    simp only [State.wire]
    cases s.lines.dir .sda with
    | output => rfl
    | input => exact he
  rw [State.pinsMoved, State.pins, hclk, hsda, State.pins, show s.wire .scl = _ from hclk s.env]

/-- The pins after a micro-operation, the registers apart. -/
def State.pinsAfter (s : State) (m : Micro) : Level × Level :=
  State.pins { s with env := s.env.move, lines := m.linesAfter s.lines }

/-- A calm micro-operation under a high clock leaves low data low. -/
theorem State.pinsAfter_low (s : State) (m : Micro) (hclk : s.lines.outScl = true) (hc : m.calm s.lines.outScl = true)
    (ha : m.allowed s.lines = true) (hlow : s.pinsMoved.2 = false) : (s.pinsAfter m).2 = false := by
  obtain ⟨op, p⟩ := m
  rw [hclk] at hc
  cases op with
  | w l v =>
    cases l with
    | scl => exact hlow
    | sda =>
      have hv : v = false := by
        simp [Micro.calm] at hc
        exact hc.1
      have hdir : s.lines.dir .sda = .output := of_decide_eq_true ha
      subst hv
      exact State.wire_output { s with env := s.env.move, lines := s.lines.setOut .sda false } .sda hdir
  | t l d => cases l <;> simp [Micro.calm] at hc
  | _ => exact hlow

/-- A calm micro-operation puts no STOP condition on the wire, when the environment holds data under a high clock. -/
theorem State.effect_stopConditions (s : State) (m : Micro) (hw : s.wires.head? = some s.pins)
    (hd : s.lines.dirScl = .output) (hc : m.calm s.lines.outScl = true) (ha : m.allowed s.lines = true)
    (he : s.lines.outScl = true → s.EnvHoldsData) : stopConditions (s.effect m).wires = stopConditions s.wires := by
  have hpins : s.pins.1 = s.lines.outScl := s.wire_output .scl hd
  have hmoved : s.pinsMoved.1 = s.lines.outScl := State.wire_output { s with env := s.env.move } .scl hd
  have first : ¬ (s.pins = (true, false) ∧ s.pinsMoved = (true, true)) := by
    rintro ⟨hp, hq⟩
    rw [hp] at hpins
    rw [s.pinsMoved_eq hd (he hpins.symm), hp] at hq
    cases hq
  have second : ¬ (s.pinsMoved = (true, false) ∧ s.pinsAfter m = (true, true)) := by
    rintro ⟨hp, hq⟩
    rw [hp] at hmoved
    have := s.pinsAfter_low m hmoved.symm hc ha (by rw [hp])
    rw [hq] at this
    cases this
  rw [s.effect_wires_eq m, stopConditions_recordPins _ _ _ (recordPins_head _ _), stopConditions_recordPins _ _ _ hw,
    if_neg first]
  exact congrArg (stopConditions s.wires + ·) (if_neg second)

/-! ## A block command on its way to its STOP -/

/-- The history `ws` ends with a STOP condition, the only one since `base` of them. -/
def StoppedOnce (base : Nat) (ws : List (Level × Level)) : Prop :=
  ∃ w, ws = (true, true) :: w ∧ w.head? = some (true, false) ∧ stopConditions w = base

/-- Calm micro-operations remain before the STOP, and no STOP condition has been added to `base`. -/
def Framed (base : Nat) (s : State) : Prop :=
  ∃ l, s.seq.todo = l ++ stopProc true ∧ calmToLow s.lines.outScl l = true ∧ stopConditions s.wires = base

/-- What remains is driven and decides nothing, and its history ends with the one STOP condition. -/
def Stopping (base : Nat) (s : State) : Prop :=
  s.lines.bothOut = true ∧ s.seq.todo.all Micro.straight = true ∧ s.seq.todo.all Micro.turnsNoLine = true ∧
    StoppedOnce base (drivenHistory s.lines s.seq.todo s.wires)

theorem recordPins_of_ne {p q : Level × Level} {ws : List (Level × Level)} (h : ws.head? = some q) (hne : p ≠ q) :
    recordPins p ws = p :: ws := by
  obtain ⟨ws', rfl⟩ := List.head?_eq_some_iff.1 h
  exact if_neg hne

/-- STOP with step 0 shows data low, the clock high, data high. -/
theorem drivenHistory_stop_preload (x : Lines) (ws : List (Level × Level)) (hx : x.outScl = false) :
    drivenHistory x (stopProc true) ws =
      (true, true) :: recordPins (true, false) (recordPins (false, false) ws) := by
  have hstep0 : drivenHistory x (stopProc true) ws =
      drivenHistory { x with outSda := false } stopTail
        (recordPins (Lines.latches { x with outSda := false }) ws) := rfl
  rw [hstep0, drivenHistory_stopTail _ _ (recordPins_head _ _),
    recordPins_of_ne (recordPins_head (true, false) _) (by decide), Lines.latches, hx]

theorem bothOut_of_linesSafe_stop (x : Lines) (h : linesSafe x (stopProc true) = true) : x.bothOut = true := by
  obtain ⟨hsda, -, h⟩ := (linesSafe_cons x (plain (.w .sda false)) stopTail).1 h
  obtain ⟨-, -, h⟩ := (linesSafe_cons _ (plain .f) _).1 h
  obtain ⟨hscl, -, -⟩ := (linesSafe_cons _ (plain (.w .scl true)) _).1 h
  exact (Lines.bothOut_iff x).2 ⟨of_decide_eq_true hscl, of_decide_eq_true hsda⟩

/-- Where only the STOP is left, its history is determined. -/
theorem Framed.stopping {base : Nat} {s : State} (hs : s.Inv) (htodo : s.seq.todo = stopProc true)
    (hclk : s.lines.outScl = false) (hbase : stopConditions s.wires = base) : Stopping base s := by
  have hout := bothOut_of_linesSafe_stop s.lines (htodo ▸ hs.lines)
  refine ⟨hout, by rw [htodo]; rfl, by rw [htodo]; rfl, _, by rw [htodo, drivenHistory_stop_preload _ _ hclk],
    recordPins_head _ _, ?_⟩
  rw [stopConditions_recordPins _ _ _ (recordPins_head _ _), stopConditions_recordPins _ _ _ hs.pins, hbase]
  simp

theorem Stopping.step {base : Nat} {s t : State} {m : Micro} {rest : List Micro} (h : Stopping base s) (hs : s.Inv)
    (hm : s.seq.todo = m :: rest) (hstep : MicroStep s m rest t) : Stopping base t := by
  obtain ⟨hout, hst, hturn, honce⟩ := h
  rw [hm] at hst hturn honce
  rw [List.all_cons, Bool.and_eq_true] at hst hturn
  have htodo : t.seq.todo = rest := by
    obtain h | ⟨⟨policy, hp⟩, -⟩ := hstep.todo
    · exact h
    · exact absurd hp (m.straight_post hst.1 policy)
  have hwires := hstep.wires.trans (s.effect_wires_driven m hout hturn.1 (hs.wires_driven hout))
  refine ⟨?_, htodo ▸ hst.2, htodo ▸ hturn.2, ?_⟩
  · rw [hstep.lines, ← (m.linesAfter_sameDirs s.lines hturn.1).bothOut, hout]
  · rw [htodo, hstep.lines, hwires]
    exact honce

theorem Framed.step {base : Nat} {s t : State} {m : Micro} {rest : List Micro} (h : Framed base s) (hs : s.Inv)
    (hp : s.cfg.stopPreload = true) (hm : s.seq.todo = m :: rest) (hd : s.lines.dirScl = .output)
    (he : s.lines.outScl = true → s.EnvHoldsData) (hstep : MicroStep s m rest t) :
    Framed base t ∨ Stopping base t := by
  obtain ⟨l, htodo, hcalm, hbase⟩ := h
  cases l with
  | nil => exact .inr ((Framed.stopping hs htodo (by simpa [calmToLow] using hcalm) hbase).step hs hm hstep)
  | cons m' l =>
    obtain ⟨rfl, rfl⟩ := List.cons.inj (hm.symm.trans htodo)
    rw [calmToLow, Bool.and_eq_true] at hcalm
    obtain ⟨hc, hl⟩ := hcalm
    have hsafe := hs.lines
    rw [hm, linesSafe_cons] at hsafe
    have hbase' : stopConditions t.wires = base := by
      rw [hstep.wires, s.effect_stopConditions m hs.pins hd hc hsafe.1 he, hbase]
    have hclk : t.lines.outScl = m.clockAfter s.lines.outScl := by rw [hstep.lines, m.linesAfter_outScl]
    obtain h | ⟨⟨policy, hpost⟩, ⟨v, att, h⟩ | h⟩ := hstep.todo
    · exact .inl ⟨l, h, hclk ▸ hl, hbase'⟩
    · rw [Micro.calm_ackEnd hc hpost] at hclk hl
      refine .inl ⟨sendByteProc v (.data v att) ++ l, h.trans (List.append_assoc _ _ _).symm, ?_, hbase'⟩
      rw [hclk]
      exact calmToLow_append (calmToLow_sendByte v _) hl
    · rw [Micro.calm_ackEnd hc hpost] at hclk
      exact .inl ⟨[], by rw [h, hp]; rfl, by rw [hclk]; rfl, hbase'⟩

/-- The first micro-operation of a block command issued with both lines high changes no pin. -/
theorem framed_of_first {base : Nat} {s t : State} {l : List Micro} (hs : s.Inv)
    (hl : calmToLow true l = true) (hout : s.lines.bothOut = true) (hscl : s.lines.outScl = true)
    (hsda : s.lines.outSda = true) (hbase : stopConditions s.wires = base)
    (hstep : MicroStep s (plain (.w .sda true)) (l ++ stopProc true) t) : Framed base t := by
  have htodo : t.seq.todo = l ++ stopProc true := by
    obtain h | ⟨⟨policy, hp⟩, -⟩ := hstep.todo
    · exact h
    · cases hp
  have hlatches : ((plain (.w .sda true)).linesAfter s.lines).latches = s.lines.latches := by
    simp [Micro.linesAfter, plain, Lines.latches, hsda]
  have hwires := hstep.wires.trans (s.effect_wires_driven (plain (.w .sda true)) hout rfl (hs.wires_driven hout))
  rw [hlatches, recordPins_of_head (hs.wires_driven hout)] at hwires
  refine ⟨l, htodo, ?_, hwires ▸ hbase⟩
  rw [hstep.lines, show ((plain (.w .sda true)).linesAfter s.lines).outScl = s.lines.outScl from rfl, hscl]
  exact hl

theorem Stopping.ended {base : Nat} {s : State} (h : Stopping base s) (hb : s.busy = false) :
    StoppedOnce base s.wires := by
  obtain ⟨-, -, -, h⟩ := h
  rwa [s.not_busy_iff.1 hb] at h

theorem Framed.busy {base : Nat} {s : State} (h : Framed base s) : s.busy = true := by
  obtain ⟨l, h, -⟩ := h
  rw [s.busy_iff, h]
  exact List.append_ne_nil_of_right_ne_nil _ (stopProc_ne_nil true)

end Sys2Proof.Machine
end

section
/-! PROOFS. The block commands of 44_transaction.md: the success paths, the error exits, the one STOP. -/

namespace Sys2Proof.Machine

/-- Settles O42: the first address byte's NACK leaves only a STOP. -/
theorem addressNackEndsTheBlock : Obligations.AddressNackEndsTheBlock := by
  unfold Obligations.AddressNackEndsTheBlock
  intro s i addr reg count q hc hl hi hd
  have b := hl.blockReady q hc hi
  obtain ⟨l, hproc⟩ := commandProc_block s hi
  refine hl.runs q hproc (((b.reaches_address addr l).nackedAddress b hd).stopped b ?ticks rfl rfl)
  unfold byteTicks
  omega

/-- Settles O44: the attempts up to the bound are NACKed, and the last one leaves only a STOP. -/
theorem dataNackAtTheBound : Obligations.DataNackAtTheBound := by
  unfold Obligations.DataNackAtTheBound
  intro s i addr reg count p m q hc hl hi hm hack hnack
  have hp : p ≤ count.toNat := by
    obtain ⟨-, hp⟩ | ⟨-, rfl⟩ := hi
    · exact hp
    · exact Nat.zero_le _
  have b := hl.blockReady q hc (hi.imp And.left And.left)
  obtain ⟨n, rfl⟩ := Nat.exists_eq_add_of_le' ((by decide : 1 ≤ 3).trans (Config.legal_maxAttempts hc hm))
  obtain ⟨tail, hproc⟩ := commandProc_dataByte s hi
  have hbyte := b.reaches_dataByte addr reg ((s.dataBytes reg count).getD p 0#8) tail hp hack
  have hend := hbyte.exhausted b n (hm.trans (congrArg some (Nat.add_comm n 1))) fun j hj =>
    (draw_eq_ackDraw s.env (p + 1) j rfl).trans (hnack (p + 1 + j) (by omega) (by omega))
  refine hl.runs q hproc (hend.stopped b ?ticks ?micros ?toks)
  case ticks =>
    unfold byteTicks
    ring
  case micros =>
    simp only [Place.failed, Place.resent, State.dataPlace]
    omega
  case toks =>
    simp only [Place.failed, Place.resent, State.dataPlace, flatten_replicate_succ, List.append_assoc]
    rfl

/-- Settles O45: the byte's `k` NACKs stand between its first transmission and the bytes after it. -/
theorem transientNackIsInvisible : Obligations.TransientNackIsInvisible := by
  unfold Obligations.TransientNackIsInvisible
  intro s addr reg count p k q hc hl hk hp hack hnack hrest
  have b := hl.blockReady q hc (.inl rfl)
  have hlt : p < (s.dataBytes reg count).length := by rw [State.dataBytes_length]; omega
  have hproc : commandProc (.writeBlock addr reg count) s = _ := commandProc_writeBlock s addr reg count
  rw [payloadProc_split _ p hlt, List.append_assoc, List.append_assoc] at hproc
  have hstop := payloadProc_stop_ne_nil ((s.dataBytes reg count).drop (p + 1)) s.cfg.stopPreload
  have hbyte := b.reaches_dataByte addr reg ((s.dataBytes reg count).getD p 0#8)
    (payloadProc ((s.dataBytes reg count).drop (p + 1)) ++ stopProc s.cfg.stopPreload) hp hack
  have hsent := hbyte.transient b k hstop (fun m hm => by have := hk m hm; omega)
    (fun j hj => (draw_eq_ackDraw s.env (p + 1) j rfl).trans (hnack _ (by omega) (by omega)))
    ((draw_eq_ackDraw s.env (p + 1) k rfl).trans (hrest _ (by omega) (by omega)))
  have hmicros : ((s.dataPlace addr reg count p).resent k ((s.dataBytes reg count).getD p 0#8) false).micros =
      4 + 64 * (p + k + 2) := by
    simp only [Place.resent, State.dataPlace]
    omega
  have hall := hsent.payload b _ (stopProc_ne_nil _) fun j hj => by
    rw [List.length_drop, State.dataBytes_length] at hj
    exact (draw_eq_ackDraw s.env (p + k + 2) j hmicros).trans (hrest _ (by omega) (by omega))
  rw [s.dataPlace_sentAll hp (hl.count_pos (.inl rfl)), List.length_drop, State.dataBytes_length] at hall
  refine hl.runs q hproc (hall.stopped b ?ticks ?micros rfl)
  case ticks =>
    obtain ⟨n, hn⟩ := Nat.exists_eq_add_of_le hp
    rw [ticks_writeBlock, hn, show p + n + 1 - (p + 1) = n by omega]
    unfold byteTicks
    ring
  case micros =>
    simp only [costOf]
    omega

/-- Settles O39: the case of O45 in which no byte is NACKed. -/
theorem writeBlockSendsItsBytes : Obligations.WriteBlockSendsItsBytes := by
  unfold Obligations.WriteBlockSendsItsBytes
  intro s addr reg count q hc hl hack
  obtain ⟨a, wl, ha, h⟩ := transientNackIsInvisible s addr reg count 0 0 q hc hl
    (fun m hm => by have := Config.legal_maxAttempts hc hm; omega) (Nat.zero_le _)
    (fun j hj => hack j (by omega)) (fun j hj hj' => absurd hj' (by omega)) (fun j _ hj => hack j hj)
  refine ⟨a, wl, ha, ?_⟩
  simpa only [Nat.zero_mul, Nat.mul_zero, Nat.add_zero, List.take_zero, List.flatMap_nil, List.replicate_zero,
    List.flatten_nil, List.append_nil, List.drop_zero, List.flatMap_cons, List.append_assoc] using h

/-- Settles O43: after a register byte ACKed at once, the second address byte's NACK leaves only a STOP. -/
theorem readAddressNackEndsTheRead : Obligations.ReadAddressNackEndsTheRead := by
  unfold Obligations.ReadAddressNackEndsTheRead
  intro s addr reg count q hc hl haddr hreg hnack
  have b := hl.blockReady q hc (.inr rfl)
  have hread := b.reaches_readAddress addr reg count.toNat 0
    (fun m hm => by have := Config.legal_maxAttempts hc hm; omega) haddr (fun j hj hj' => absurd hj' (by omega)) hreg
  refine hl.runs q (commandProc_readBlock s addr reg count) ((hread.nackedAddress b hnack).stopped b ?ticks rfl ?toks)
  case ticks =>
    unfold byteTicks
    omega
  case toks =>
    simp only [Place.failed, Place.sent, State.restartedPlace, List.replicate_zero, List.flatten_nil, List.append_nil]

/-- Settles O56: the second address byte is ACKed, and the reads sample 64 micro-operations later for each NACK. -/
theorem readBlockRetriesItsRegisterByte : Obligations.ReadBlockRetriesItsRegisterByte := by
  unfold Obligations.ReadBlockRetriesItsRegisterByte
  intro s addr reg count k q hc hl hk haddr hnack hreg hread
  have b := hl.blockReady q hc (.inr rfl)
  have hmicros : (s.readingPlace addr reg k).micros = 64 * k + (200 + 57 * 0) := rfl
  have hsecond := (b.reaches_readAddress addr reg count.toNat k hk haddr hnack hreg).acked b
    (List.append_ne_nil_of_right_ne_nil _ (stopProc_ne_nil _))
    ((congrArg (s.env.draw .sda) (by simp only [State.restartedPlace]; omega)).trans hread)
  have hall : Reaches s _ _ ((s.readingPlace addr reg k).readAll s.env 0 count.toNat) _ :=
    hsecond.reads b count.toNat 0 (stopProc_ne_nil _)
  obtain ⟨hackf, hcode, hend⟩ := Place.readAll_frame s.env 0 count.toNat (s.readingPlace addr reg k)
  obtain ⟨a, wl, ha, h⟩ := hl.runs q (commandProc_readBlock s addr reg count) (hall.stopped b
    (k' := (costOf s.cfg.stopPreload (.readBlock addr reg count)).ticks s.cfg.halfTicks +
      k * (37 + 36 * s.cfg.halfTicks)) (by rw [ticks_readBlock]; unfold byteTicks; ring)
    (n := (costOf s.cfg.stopPreload (.readBlock addr reg count)).micros + 64 * k)
    (by rw [hend, hmicros]; simp only [costOf]; omega)
    (congrArg (· ++ stopTokens s.cfg.stopPreload) (Place.readAll_toks hmicros count.toNat)))
  rw [hackf, hcode, Place.readAll_shreg hmicros _ (hl.count_pos (.inr rfl)), Nat.zero_add] at h
  refine ⟨a, wl, ((s.readingPlace addr reg k).readAll s.env 0 count.toNat).rxbuf, ha, h, fun i hi => ?_,
    fun i hi => ?_⟩
  · exact (Place.readAll_rxbuf hmicros count.toNat i).trans (if_pos (by omega))
  · exact (Place.readAll_rxbuf hmicros count.toNat i).trans (if_neg (by omega))

/-- Settles O40: the case of O56 in which no byte is NACKed. -/
theorem readBlockStoresItsBytes : Obligations.ReadBlockStoresItsBytes := by
  unfold Obligations.ReadBlockStoresItsBytes
  intro s addr reg count q hc hl haddr hreg hread
  obtain ⟨a, wl, m, ha, h, hm⟩ := readBlockRetriesItsRegisterByte s addr reg count 0 q hc hl
    (fun m hm => by have := Config.legal_maxAttempts hc hm; omega) haddr (fun j hj hj' => absurd hj' (by omega)) hreg
    hread
  refine ⟨a, wl, m, ha, ?_, hm⟩
  simpa only [Nat.zero_mul, Nat.mul_zero, Nat.add_zero, List.replicate_zero, List.flatten_nil, List.append_nil,
    Env.after_zero] using h

/-- Settles O41: O40's trace, read token by token. -/
theorem readBlockAcknowledgesAllButTheLast : Obligations.ReadBlockAcknowledgesAllButTheLast := by
  unfold Obligations.ReadBlockAcknowledgesAllButTheLast
  intro s addr reg count q hc hl haddr hreg hread
  obtain ⟨a, wl, m, ha, h, -⟩ := readBlockStoresItsBytes s addr reg count q hc hl haddr hreg hread
  refine ⟨a, _, _, ha, h, q.not_busy, rfl, ?_, ?_⟩
  · simp only [dataWrites_reverse_append, dataWrites_start, dataWrites_sendByte,
      dataWrites_reads _ _ _ (hl.count_pos (.inr rfl)), dataWrites_stop, addrByte_write, List.append_assoc]
    rfl
  · simp only [dataSamples_reverse_append, List.length_append, dataSamples_start, dataSamples_sendByte,
      dataSamples_reads, dataSamples_stop, List.length_nil, List.length_singleton]
    omega

/-- Settles O48: a block command is at its first micro-operation, on its way through calm ones, or in its STOP. -/
theorem exactlyOneStopPerBlock : Obligations.ExactlyOneStopPerBlock := by
  unfold Obligations.ExactlyOneStopPerBlock
  intro s a t i addr reg count k hs q hl hi hp hscl hsda ha henv ht hb
  have hbusy := q.not_busy
  rw [exec_legal i s hbusy hl] at ha
  cases ha
  obtain ⟨l, hproc, hcalm⟩ := commandProc_block_calm s hi
  rw [hp] at hproc
  have b := hl.blockReady q hs.cfg hi
  have inv (n : Nat) (u : State) (hu : run n (s.accept (commandProc i s)) = .next u) : u.Inv :=
    run_keeps (P := State.Inv) (fun _ _ h hu => h.keeps_inv hu) n
      (s.accept (commandProc i s)) u q.2.2 (hs.accept hbusy hl) hu
  have clock (n : Nat) (u : State) (hu : run n (s.accept (commandProc i s)) = .next u) : u.lines.dirScl = .output := by
    have hclk := clockStaysAnUnsampledOutput s (s.accept (commandProc i s)) u i n q hs.cfg hl
    obtain rfl | rfl := hi <;>
      exact (hclk (fun _ _ _ => ⟨nofun, nofun, nofun⟩) nofun nofun (exec_legal _ s hbusy hl) hu).1
  have phase := run_keeps_micro (P := fun u => u = s.accept (commandProc i s) ∨ Framed (stopConditions s.wires) u ∨
    Stopping (stopConditions s.wires) u) (s.accept_going _ q hs.cfg) (.inl rfl) ?step k t ht hb
  case step =>
    intro n u v m rest hn g hm hu hstep
    obtain rfl | h | h := hu
    · obtain ⟨rfl, rfl⟩ := List.cons.inj (hm.symm.trans hproc)
      exact .inr (.inl (framed_of_first (inv n _ hn) hcalm b.out hscl hsda rfl hstep))
    · have hpre : u.cfg.stopPreload = true :=
        (congrArg Config.stopPreload (run_cfg n (s.accept (commandProc i s)) u q.2.2 hn)).trans hp
      exact .inr (h.step (inv n u hn) hpre hm (clock n u hn)
        (henv n u hn (u.busy_iff.2 (by rw [hm]; exact List.cons_ne_nil _ _)) g.timer) hstep)
    · exact .inr (.inr (h.step (inv n u hn) hm hstep))
  obtain rfl | h | h := phase
  · exact absurd (State.not_busy_iff _ |>.1 hb) (commandProc_ne_nil i s)
  · rw [h.busy] at hb
    cases hb
  · exact h.ended hb

end Sys2Proof.Machine
end

section
/-! SUPPORT. Why a block command with a bounded MAX_ATTEMPTS comes to its STOP whatever the acknowledgements are
(44_transaction.md R183, R184, 60_exceptions.md R231). -/

namespace Sys2Proof.Machine

/-! ## Arrivals -/

/-- The command issued in `s` and accepted as `a` comes, at some tick, to `todo` with `code` as what it will report and
ACKF at `nack`. -/
def Arrives (s a : State) (code : ErrCode) (nack : Level) (todo : List Micro) : Prop :=
  ∃ k p, Reaches s a k p todo ∧ p.code = code ∧ p.ackf = nack

/-- The command comes to the STOP of one of the two error exits (60_exceptions.md R221, R222, R224). -/
def Fails (s a : State) : Prop :=
  Arrives s a .addrNack true (stopProc s.cfg.stopPreload) ∨ Arrives s a .dataNack true (stopProc s.cfg.stopPreload)

section

variable {s a : State} {nack : Level} {rest : List Micro} (b : s.BlockReady)
include b

theorem Arrives.start (h : Arrives s a .ok nack (startProc ++ rest)) (hrest : rest ≠ []) :
    Arrives s a .ok nack rest := by
  obtain ⟨k, p, h, hcode, hack⟩ := h
  exact ⟨_, _, h.start b hrest, hcode, hack⟩

theorem Arrives.reads {i n : Nat} (h : Arrives s a .ok nack (readsProc i n ++ rest)) (hrest : rest ≠ []) :
    Arrives s a .ok nack rest := by
  obtain ⟨k, p, h, hcode, hack⟩ := h
  obtain ⟨hack', hcode', -⟩ := Place.readAll_frame s.env i n p
  exact ⟨_, _, h.reads b n i hrest, hcode'.trans hcode, hack'.trans hack⟩

/-- An address byte is ACKed, or leaves the STOP of ADDR_NACK. -/
theorem Arrives.address {v : Byte} (h : Arrives s a .ok nack (sendByteProc v .address ++ rest)) (hrest : rest ≠ []) :
    Arrives s a .ok false rest ∨ Fails s a := by
  obtain ⟨k, p, h, hcode, -⟩ := h
  cases hd : s.env.draw .sda (p.micros + 61) with
  | false => exact .inl ⟨_, _, h.acked b hrest hd, hcode, rfl⟩
  | true => exact .inr (.inl ⟨_, _, h.nackedAddress b hd, rfl, rfl⟩)

/-- A data-phase byte with `n` attempts left after this one is ACKed in the end, or leaves the STOP of DATA_NACK. -/
theorem Arrives.attempts (n : Nat) {v : Byte} {att : Nat} (hm : s.cfg.maxAttempts = some (att + n))
    (h : Arrives s a .ok nack (sendByteProc v (.data v att) ++ rest)) (hrest : rest ≠ []) :
    Arrives s a .ok false rest ∨ Fails s a := by
  induction n generalizing att nack with
  | zero =>
    obtain ⟨k, p, h, hcode, -⟩ := h
    cases hd : s.env.draw .sda (p.micros + 61) with
    | false => exact .inl ⟨_, _, h.acked b hrest hd, hcode, rfl⟩
    | true => exact .inr (.inr ⟨_, _, h.nackedLast b hm hd, rfl, rfl⟩)
  | succ n ih =>
    obtain ⟨k, p, h, hcode, -⟩ := h
    cases hd : s.env.draw .sda (p.micros + 61) with
    | false => exact .inl ⟨_, _, h.acked b hrest hd, hcode, rfl⟩
    | true =>
      obtain ⟨att', hatt, h⟩ := h.nackedAgain b (fun m e => by cases hm.symm.trans e; omega) hd
      exact ih (att := att') (by rw [hatt _ hm, hm]; congr 1; omega) ⟨_, _, h, hcode, rfl⟩

theorem Arrives.dataByte {v : Byte} {m : Nat} (hm : s.cfg.maxAttempts = some m)
    (h : Arrives s a .ok nack (sendDataProc v ++ rest)) (hrest : rest ≠ []) :
    Arrives s a .ok false rest ∨ Fails s a := by
  obtain ⟨n, rfl⟩ := Nat.exists_eq_add_of_le ((by decide : 1 ≤ 3).trans (Config.legal_maxAttempts b.cfg hm))
  exact h.attempts b n hm hrest

theorem Arrives.payload (vs : List Byte) {m : Nat} (hm : s.cfg.maxAttempts = some m)
    (h : Arrives s a .ok false (payloadProc vs ++ rest)) (hrest : rest ≠ []) :
    Arrives s a .ok false rest ∨ Fails s a := by
  induction vs with
  | nil => exact .inl h
  | cons v vs ih =>
    rw [payloadProc, List.append_assoc] at h
    obtain h | hf := h.dataByte b hm (List.append_ne_nil_of_right_ne_nil _ hrest)
    · exact ih h
    · exact .inr hf

/-- READ_BLOCK from its second START on. -/
theorem Arrives.readPhase {addr : Byte} {n : Nat}
    (h : Arrives s a .ok nack (readPhaseProc s.cfg.stopPreload addr n)) :
    Arrives s a .ok false (stopProc s.cfg.stopPreload) ∨ Fails s a := by
  obtain h | hf := (h.start b (List.cons_ne_nil _ _)).address b
    (List.append_ne_nil_of_right_ne_nil _ (stopProc_ne_nil _))
  · exact .inl (h.reads b (stopProc_ne_nil _))
  · exact .inr hf

/-- Once at its STOP the command ends with both lines high, and reports what it came with. -/
theorem Arrives.ends {code : ErrCode} (h : Arrives s a code nack (stopProc s.cfg.stopPreload)) :
    ∃ k t, run k a = .next t ∧ t.busy = false ∧ t.done = true ∧ t.tstate = .idle ∧
      t.lines = { outScl := true, outSda := true, dirScl := .output, dirSda := .output } ∧
      t.err = code ∧ t.ackf = nack := by
  obtain ⟨k, p, h, hcode, hack⟩ := h
  obtain ⟨wl, h⟩ := h.stopped b rfl rfl rfl
  obtain ⟨hscl, hsda⟩ := (Lines.bothOut_iff _).1 b.out
  exact ⟨_, _, h, b.quiet.not_busy, rfl, b.idle, by dsimp only; rw [hscl, hsda], hcode, hack⟩

/-- A block command comes to its STOP, by the success path or by an error exit. -/
theorem State.BlockReady.arrives_or_fails {i : Instr} {addr reg count : Byte} {m : Nat}
    (hi : i = .writeBlock addr reg count ∨ i = .readBlock addr reg count) (hm : s.cfg.maxAttempts = some m) :
    Arrives s (s.accept (commandProc i s)) .ok false (stopProc s.cfg.stopPreload) ∨
      Fails s (s.accept (commandProc i s)) := by
  have issued (l : List Micro) : Arrives s (s.accept (addressedProc addr l)) .ok s.ackf
      (sendByteProc (addr <<< 1) .address ++ l) := ⟨_, _, b.reaches_address addr l, rfl, rfl⟩
  obtain rfl | rfl := hi
  · rw [commandProc_writeBlock]
    obtain h | hf := (issued _).address b (payloadProc_stop_ne_nil _ _)
    · exact h.payload b _ hm (stopProc_ne_nil _)
    · exact .inr hf
  · rw [commandProc_readBlock]
    obtain h | hf := (issued _).address b (List.cons_ne_nil _ _)
    · obtain h | hf := h.dataByte b hm (List.cons_ne_nil _ _)
      · exact h.readPhase b
      · exact .inr hf
    · exact .inr hf

end

end Sys2Proof.Machine
end

section
/-! SUPPORT. Why a data-phase byte that is NACKed for ever keeps the command in its data phase: what has left the data
phase sends no data-phase byte again (44_transaction.md R180, R184, 60_exceptions.md R231). -/

namespace Sys2Proof.Machine

/-! ## The data phase and what comes after it -/

/-- The micro-operation does not take TSTATE out of DATA_PHASE (44_transaction.md R180). -/
def Micro.keepsDataPhase (m : Micro) : Bool :=
  match m.post with
  | .startAsserted => false
  | .toIdle => false
  | _ => true

/-- The micro-operation awaits no acknowledgement of a data-phase byte. -/
def Micro.sendsNoData (m : Micro) : Bool :=
  match m.post with
  | .ackEnd (.data _ _) => false
  | _ => true

/-- No data-phase byte is left to send. -/
def State.PastData (s : State) : Prop := s.seq.todo.all Micro.sendsNoData = true

/-- TSTATE is DATA_PHASE, and stays so until only what sends no data-phase byte is left. -/
def State.InData (s : State) : Prop :=
  s.tstate = .dataPhase ∧
    ∃ l r, s.seq.todo = l ++ r ∧ l.all Micro.keepsDataPhase = true ∧ r.all Micro.sendsNoData = true

theorem keepsDataPhase_sendByte (v : Byte) (policy : AckPolicy) :
    (sendByteProc v policy).all Micro.keepsDataPhase = true := rfl

theorem keepsDataPhase_payload (vs : List Byte) : (payloadProc vs).all Micro.keepsDataPhase = true := by
  induction vs with
  | nil => rfl
  | cons v vs ih => rw [payloadProc, List.all_append, ih, sendDataProc, keepsDataPhase_sendByte, Bool.and_self]

theorem sendsNoData_stop (preload : Bool) : (stopProc preload).all Micro.sendsNoData = true := by
  cases preload <;> rfl

theorem sendsNoData_of_straight {l : List Micro} (h : l.all Micro.straight = true) :
    l.all Micro.sendsNoData = true := by
  rw [List.all_eq_true] at h ⊢
  intro m hm
  have hp := m.straight_post (h m hm)
  unfold Micro.sendsNoData
  split
  · rename_i he
    exact absurd he (hp _)
  · rfl

theorem sendsNoData_readPhase (preload : Bool) (addr : Byte) (n : Nat) :
    (readPhaseProc preload addr n).all Micro.sendsNoData = true := by
  have haddr : (sendByteProc (addr <<< 1 ||| 1#8) .address).all Micro.sendsNoData = true := rfl
  rw [readPhaseProc, List.all_append, List.all_append, List.all_append, haddr, sendsNoData_stop,
    sendsNoData_of_straight (straight_reads 0 n)]
  rfl

theorem sendByte_sends_data (v : Byte) (att : Nat) (rest : List Micro) :
    (sendByteProc v (.data v att) ++ rest).all Micro.sendsNoData = false := rfl

/-- A block command's data phase, and what comes after it. -/
theorem commandProc_data {i : Instr} {addr reg count : Byte} (s : State)
    (hi : i = .writeBlock addr reg count ∨ i = .readBlock addr reg count) :
    ∃ l r, commandProc i s = addressedProc addr (l ++ r) ∧ l.all Micro.keepsDataPhase = true ∧
      r.all Micro.sendsNoData = true := by
  obtain rfl | rfl := hi
  · exact ⟨_, _, commandProc_writeBlock s addr reg count, keepsDataPhase_payload _, sendsNoData_stop _⟩
  · exact ⟨_, _, commandProc_readBlock s addr reg count, keepsDataPhase_sendByte _ _, sendsNoData_readPhase _ _ _⟩

/-- An acknowledgement that is not a data-phase byte's brings no byte back. -/
theorem State.retire_todo_of_sendsNoData (tok : Token) (m : Micro) (rest : List Micro) (s : State)
    (h : m.sendsNoData = true) :
    (s.retire tok m.post rest).seq.todo = rest ∨
      (s.retire tok m.post rest).seq.todo = stopProc s.cfg.stopPreload := by
  rw [State.retire, State.finish_todo]
  obtain ⟨op, p⟩ := m
  cases p with
  | ackEnd policy =>
    cases policy with
    | report => exact .inl rfl
    | data v att => cases h
    | address =>
      cases hb : s.seq.bit with
      | false => exact .inl (by simp [State.applyPost, State.ackDecision, hb])
      | true => exact .inr (by simp [State.applyPost, State.ackDecision, State.raiseBusError, hb])
  | _ => exact .inl rfl

theorem State.PastData.retire {x : State} {m : Micro} {rest : List Micro} (tok : Token) (h : x.PastData)
    (hm : x.seq.todo = m :: rest) : (x.retire tok m.post rest).PastData := by
  rw [State.PastData, hm, List.all_cons, Bool.and_eq_true] at h
  obtain ⟨hhead, htail⟩ := h
  unfold State.PastData
  obtain ht | ht := State.retire_todo_of_sendsNoData tok m rest x hhead <;> rw [ht]
  · exact htail
  · exact sendsNoData_stop _

theorem State.retire_keeps_dataPhase {x : State} {m : Micro} {rest : List Micro} (tok : Token)
    (hm : x.seq.todo = m :: rest) (hk : m.keepsDataPhase = true) (ht : x.tstate = .dataPhase) :
    (x.retire tok m.post rest).tstate = .dataPhase := by
  by_contra hne
  obtain ⟨m', rest', hm', hrow⟩ := TstateByTable.of_retire (s := x) m rest tok hm rfl (ht.symm ▸ hne)
  obtain ⟨rfl, -⟩ := List.cons.inj (hm.symm.trans hm')
  obtain ⟨hp, -⟩ | ⟨hp, -⟩ | ⟨-, hstart, -⟩ | ⟨-, haddr, -⟩ := hrow
  · simp [Micro.keepsDataPhase, hp] at hk
  · simp [Micro.keepsDataPhase, hp] at hk
  · exact absurd (ht.symm.trans hstart) nofun
  · exact absurd (ht.symm.trans haddr) nofun

theorem State.InData.retire {x : State} {m : Micro} {rest : List Micro} (tok : Token) (h : x.InData)
    (hm : x.seq.todo = m :: rest) : (x.retire tok m.post rest).InData ∨ (x.retire tok m.post rest).PastData := by
  obtain ⟨ht, l, r, hlr, hl, hr⟩ := h
  cases l with
  | nil =>
    have hpast : x.PastData := (congrArg (List.all · Micro.sendsNoData) hlr).trans hr
    exact .inr (hpast.retire tok hm)
  | cons m' l =>
    rw [List.cons_append] at hlr
    obtain ⟨rfl, rfl⟩ := List.cons.inj (hm.symm.trans hlr)
    rw [List.all_cons, Bool.and_eq_true] at hl
    obtain ⟨hhead, htail⟩ := hl
    have ht' := State.retire_keeps_dataPhase tok hm hhead ht
    obtain h | ⟨-, ⟨v, att, h⟩ | h⟩ := State.retire_todo tok m.post (l ++ r) x
    · exact .inl ⟨ht', l, r, h, htail, hr⟩
    · refine .inl ⟨ht', sendByteProc v (.data v att) ++ l, r, by rw [h, List.append_assoc], ?_, hr⟩
      rw [List.all_append, keepsDataPhase_sendByte, htail, Bool.and_self]
    · exact .inr (show List.all _ _ = true from h ▸ sendsNoData_stop _)

/-! ## What a controller's step keeps -/

theorem TickCase.keeps_pastData (s t : State) (h : TickCase s t) (hs : s.PastData) : t.PastData := by
  cases h with
  | idle | waitBegun | waiting => exact hs
  | waitEnded m rest hm hw => exact State.PastData.retire (x := { s with timer := 0 }) _ hs hm
  | performed m rest bit hm =>
    exact State.PastData.retire (x := { s.settle with
      lines := m.linesAfter s.lines, seq := { s.seq with bit := bit } }) _ hs hm

theorem TickCase.keeps_inData (s t : State) (h : TickCase s t) (hs : s.InData ∨ s.PastData) :
    t.InData ∨ t.PastData := by
  obtain hs | hs := hs
  · cases h with
    | idle | waitBegun | waiting => exact .inl hs
    | waitEnded m rest hm hw => exact State.InData.retire (x := { s with timer := 0 }) _ hs hm
    | performed m rest bit hm =>
      exact State.InData.retire (x := { s.settle with
        lines := m.linesAfter s.lines, seq := { s.seq with bit := bit } }) _ hs hm
  · exact .inr (h.keeps_pastData s t hs)

theorem State.retire_done (tok : Token) (p : Post) (rest : List Micro) (s : State) (h : s.done = true) :
    (s.retire tok p rest).done = true := by
  obtain ⟨-, -, -, hdone, -⟩ :=
    State.applyPost_frame p (State.emit tok { s with seq := { s.seq with todo := rest } })
  unfold State.retire State.finish
  split
  · rfl
  · exact hdone.trans h

/-- Only an acceptance clears DONE (10_state.md R33, R34). -/
theorem TickCase.keeps_done (s t : State) (h : TickCase s t) (hs : s.done = true) : t.done = true := by
  cases h with
  | idle | waitBegun | waiting => exact hs
  | waitEnded m rest hm hw => exact State.retire_done _ _ _ _ hs
  | performed m rest bit hm => exact State.retire_done _ _ _ _ hs

theorem run_inputs (k : Nat) (s t : State) (hin : s.inputs = []) (h : run k s = .next t) : t.inputs = [] := by
  induction k generalizing s with
  | zero =>
    cases h
    exact hin
  | succ k ih =>
    obtain ⟨u, hu, hr⟩ := run_succ_inv k s t h
    rw [step_quiet s hin] at hu
    exact ih u ((State.tick_frame s u hu).inputs.trans hin) hr

/-! ## The run of a byte that is NACKed for ever -/

/-- Up to the place at which a data-phase byte begins the command runs, is not done, and is not past its data. -/
theorem Reaches.before {s a : State} {j k : Nat} {p : Place} {v : Byte} {att : Nat} {rest : List Micro}
    (h : Reaches s a k p (sendByteProc v (.data v att) ++ rest)) (hin : a.inputs = []) (hj : j ≤ k) :
    ∃ u, run j a = .next u ∧ u.busy = true ∧ u.done = false ∧ ¬ u.PastData := by
  obtain ⟨n, rfl⟩ := Nat.exists_eq_add_of_le hj
  obtain ⟨c, -, h⟩ := h
  obtain ⟨u, hu, hn⟩ := run_split j n a _ h
  have uin := run_inputs j a u hin hu
  have hdata : ¬ u.PastData := fun hpast => by
    have hend : State.PastData _ := run_keeps TickCase.keeps_pastData n u _ uin hpast hn
    exact absurd ((sendByte_sends_data v att rest).symm.trans hend) nofun
  refine ⟨u, hu, u.busy_iff.2 fun h0 => hdata (congrArg (List.all · Micro.sendsNoData) h0), ?_, hdata⟩
  · by_contra hdone
    have hend := run_keeps (P := fun x => x.done = true) TickCase.keeps_done n u _ uin (by simpa using hdone) hn
    cases hend

/-- With MAX_ATTEMPTS = INF a data-phase byte is sent again after each of `n` NACKs. -/
theorem Reaches.retried (n : Nat) {s a : State} {k att : Nat} {p : Place} {v : Byte} {rest : List Micro}
    (b : s.BlockReady) (h : Reaches s a k p (sendByteProc v (.data v att) ++ rest)) (hm : s.cfg.maxAttempts = none)
    (hd : ∀ j, s.env.draw .sda (p.micros + 61 + 64 * j) = true) :
    ∃ att' p', p'.toks = p.toks ++ (List.replicate n (sendByteTokens v true)).flatten ∧
      Reaches s a (k + n * byteTicks s.cfg) p' (sendByteProc v (.data v att') ++ rest) := by
  induction n generalizing k p att with
  | zero => exact ⟨att, p, (List.append_nil _).symm, by simpa using h⟩
  | succ n ih =>
    obtain ⟨att₁, -, h⟩ := h.nackedAgain b (fun m e => by simp [hm] at e) (hd 0)
    have hd' (j : Nat) : s.env.draw .sda ((p.sent v true).micros + 61 + 64 * j) = true := by
      rw [show (p.sent v true).micros + 61 + 64 * j = p.micros + 61 + 64 * (j + 1) by simp only [Place.sent]; omega]
      exact hd (j + 1)
    obtain ⟨att', p', htoks, h⟩ := ih h hd'
    rw [add_ticks_succ] at h
    refine ⟨att', p', htoks.trans ?_, h⟩
    simp only [Place.sent, List.replicate_succ, List.flatten_cons, List.append_assoc]

theorem State.ackDecision_acked (policy : AckPolicy) (s : State) (h : s.seq.bit = false) :
    s.ackDecision policy = s := by
  cases policy <;> simp [State.ackDecision, h]

theorem State.finish_tstate (s : State) : s.finish.tstate = s.tstate := by
  obtain ⟨-, -, -, -, -, h, -⟩ := s.finish_frame
  exact h

/-- START and an ACKed address byte bring TSTATE to DATA_PHASE (44_transaction.md R180). -/
theorem State.BlockReady.addressed_inData {s : State} (b : s.BlockReady) (addr : Byte) {l r : List Micro}
    (hl : l.all Micro.keepsDataPhase = true) (hr : r.all Micro.sendsNoData = true)
    (hd : ackDraw s.env 0 = false) :
    ∃ t, run (4 + byteTicks s.cfg) (s.accept (addressedProc addr (l ++ r))) = .next t ∧ t.InData := by
  obtain ⟨w, hstart⟩ := run_stretch startProc (s.accept (addressedProc addr (l ++ r))) (s.accept_going _ b.quiet b.cfg)
    (sendByteProc (addr <<< 1) .address ++ (l ++ r)) (List.cons_ne_nil _ _) rfl straight_start
    (stretchAllowed_of_linesSafe _ _ (linesSafe_start _ b.out).1)
  obtain ⟨u, hu, g, hcfg, henv, hout, htodo, hstate⟩ :
      ∃ u, run 4 (s.accept (addressedProc addr (l ++ r))) = .next u ∧ u.Going ∧ u.cfg = s.cfg ∧
        u.env = s.env.after 4 ∧ u.lines.bothOut = true ∧
        u.seq.todo = sendByteProc (addr <<< 1) .address ++ (l ++ r) ∧ u.tstate = .startAsserted :=
    ⟨_, hstart, ⟨b.cfg, b.quiet.2.2, b.quiet.2.1⟩, rfl, rfl, (linesSafe_start _ b.out).2, rfl, rfl⟩
  obtain ⟨wl, h⟩ := run_sendByte u g _ _ _ hout htodo
  have hack : u.env.draw .sda 61 = false := by rw [henv, Env.draw_after]; exact hd
  rw [hack, hstate, State.ackDecision_acked _ _ rfl] at h
  rw [← hcfg]
  exact ⟨_, (run_add _ _ _ _ hu).trans h, State.finish_tstate _, l, r, State.finish_todo _, hl, hr⟩

end Sys2Proof.Machine
end

section
/-! PROOFS. The statements of 60_exceptions.md. -/

namespace Sys2Proof.Machine

/-- Settles O16: the legality a command is issued with is that no check fails. -/
theorem illegalCommandIsRefused : Obligations.IllegalCommandIsRefused := by
  unfold Obligations.IllegalCommandIsRefused
  exact exec_illegal

/-- Settles O18: a word that decodes is its command, accepted or refused by the checks; any other word fails the first
check. -/
theorem commandWriteIsAcceptedOrRefused : Obligations.CommandWriteIsAcceptedOrRefused := by
  unfold Obligations.CommandWriteIsAcceptedOrRefused
  intro s w rest hin hb
  refine ⟨fun ⟨i, hd, hl⟩ => ?_, fun hl => ?_⟩
  · rw [stepIssuesDecodedCommand s w rest i hin hd]
    exact legalCommandIsAccepted i { s with inputs := rest } hb hl
  · cases hd : decode w with
    | ok i =>
      rw [stepIssuesDecodedCommand s w rest i hin hd]
      exact illegalCommandIsRefused i { s with inputs := rest } hb (hl i hd)
    | error r => exact undecodableWordIsRefused s w rest r hin hb hd

/-- Settles O47: every acknowledgement is drawn one way or the other, and each way leads to a STOP. -/
theorem boundedBlockAlwaysEnds : Obligations.BoundedBlockAlwaysEnds := by
  unfold Obligations.BoundedBlockAlwaysEnds
  intro s i addr reg count m q hc hl hi hm
  have b := hl.blockReady q hc hi
  have reported : ∃ code nack, Arrives s (s.accept (commandProc i s)) code nack (stopProc s.cfg.stopPreload) ∧
      ((code = .ok ∧ nack = false) ∨ (code = .addrNack ∧ nack = true) ∨ (code = .dataNack ∧ nack = true)) := by
    obtain h | h | h := b.arrives_or_fails hi hm
    · exact ⟨_, _, h, .inl ⟨rfl, rfl⟩⟩
    · exact ⟨_, _, h, .inr (.inl ⟨rfl, rfl⟩)⟩
    · exact ⟨_, _, h, .inr (.inr ⟨rfl, rfl⟩)⟩
  obtain ⟨code, nack, h, hreport⟩ := reported
  obtain ⟨k, t, ht, hbusy, hdone, hidle, hlines, rfl, rfl⟩ := h.ends b
  exact ⟨_, k, t, exec_legal i s q.not_busy hl, ht, hbusy, hdone, hidle, hlines, hreport⟩

/-- Settles O46: the byte begins again and again, so every tick comes before one of its beginnings, and what could take
TSTATE out of DATA_PHASE comes after the last. -/
theorem unboundedRetryNeverEnds : Obligations.UnboundedRetryNeverEnds := by
  unfold Obligations.UnboundedRetryNeverEnds
  intro s i addr reg count p q hc hl hi hm hack hnack
  have hp : p ≤ count.toNat := by
    obtain ⟨-, hp⟩ | ⟨-, rfl⟩ := hi
    · exact hp
    · exact Nat.zero_le _
  have hblock := hi.imp And.left And.left
  have b := hl.blockReady q hc hblock
  obtain ⟨tail, hproc⟩ := commandProc_dataByte s hi
  obtain ⟨l, r, hproc', hkeeps, hspares⟩ := commandProc_data s hblock
  have reached := b.reaches_dataByte addr reg ((s.dataBytes reg count).getD p 0#8) tail hp hack
  have begins (n : Nat) := reached.retried n b hm
    fun j => (draw_eq_ackDraw s.env (p + 1) j rfl).trans (hnack (p + 1 + j) (by omega))
  rw [← hproc] at begins
  obtain ⟨t₀, hdata, hin⟩ := b.addressed_inData addr hkeeps hspares (hack 0 (Nat.zero_le p))
  rw [← hproc'] at hdata
  have ticks (n : Nat) : 4 + (p + 1) * byteTicks s.cfg + n * byteTicks s.cfg =
      4 + (p + 1 + n) * (37 + 36 * s.cfg.halfTicks) := by
    unfold byteTicks
    ring
  refine ⟨_, exec_legal i s q.not_busy hl, fun k => ?_, fun n => ?_⟩
  · obtain ⟨att, p', -, h⟩ := begins k
    have hk : k ≤ 4 + (p + 1) * byteTicks s.cfg + k * byteTicks s.cfg := by
      have : k ≤ k * byteTicks s.cfg := Nat.le_mul_of_pos_right k (by unfold byteTicks; omega)
      omega
    obtain ⟨u, hu, hbusy, hdone, hpast⟩ := h.before q.2.2 hk
    refine ⟨u, hu, hbusy, hdone, fun hle => ?_⟩
    obtain ⟨j, rfl⟩ := Nat.exists_eq_add_of_le (show 4 + byteTicks s.cfg ≤ k by unfold byteTicks; omega)
    rw [run_add _ j _ _ hdata] at hu
    have hquiet := run_inputs _ (s.accept _) t₀ q.2.2 hdata
    obtain ⟨ht, -⟩ | h := run_keeps TickCase.keeps_inData j t₀ u hquiet (.inl hin) hu
    · exact ht
    · exact absurd h hpast
  · obtain ⟨att, p', htoks, c, -, h⟩ := begins n
    rw [ticks] at h
    exact ⟨_, h, congrArg (fun toks : List Token => toks.reverse ++ s.trace) htoks⟩

end Sys2Proof.Machine
end

section
/-! SUPPORT. A command that decides nothing on its way: it is busy until the last tick of its last micro-operation, and
leaves one token for each of them (70_reset_and_hazards.md R281, R282). -/

namespace Sys2Proof.Machine

/-! ## One micro-operation that leaves the rest of SEQ as it is -/

/-- The micro-operation leaves the rest of SEQ as it is: if it ends a SEND_BYTE, the host asked for the byte, and its
acknowledgement is a result (30_encoding.md R103). -/
def Micro.keepsRest (m : Micro) : Bool :=
  match m.post with
  | .ackEnd .report => true
  | .ackEnd .address => false
  | .ackEnd (.data _ _) => false
  | _ => true

theorem State.retire_keepsRest (tok : Token) (m : Micro) (rest : List Micro) (s : State) (h : m.keepsRest = true) :
    (s.retire tok m.post rest).seq.todo = rest := by
  rw [State.retire, State.finish_todo]
  obtain ⟨op, p⟩ := m
  cases p with
  | ackEnd policy =>
    cases policy with
    | report => rfl
    | address | data => cases h
  | _ => rfl

/-- The untimed micro-operation, where its `require` holds. -/
theorem State.microStep_allowed (s : State) (m : Micro) (rest : List Micro) (hm : s.seq.todo = m :: rest)
    (ha : m.allowed s.lines = true) :
    ∃ bit, s.microStep = .next (State.retire (m.token s.env) m.post rest
      { s.settle with lines := m.linesAfter s.lines, seq := { s.seq with bit := bit } }) := by
  obtain ⟨op, p⟩ := m
  rw [State.microStep, hm]
  cases op with
  | w l v =>
    have hd : s.lines.dir l = .output := of_decide_eq_true ha
    exact ⟨s.seq.bit, by simp only [State.writeLine, hd]; rfl⟩
  | s l =>
    have hd : s.lines.dir l = .input := of_decide_eq_true ha
    exact ⟨s.env.move.level l, by simp only [State.sampleLine, hd]; rfl⟩
  | t | h | f => exact ⟨s.seq.bit, rfl⟩

/-- A whole micro-operation that leaves the rest of SEQ as it is, tick by tick: one token more, and the next one's
turn. -/
theorem run_keepsRest (s : State) (g : s.Going) (m : Micro) (rest : List Micro) (hm : s.seq.todo = m :: rest)
    (hk : m.keepsRest = true) (ha : m.allowed s.lines = true) :
    ∃ t, run (microTicks s.cfg m.op) s = .next t ∧ t.Going ∧ t.cfg = s.cfg ∧ t.lines = m.linesAfter s.lines ∧
      t.seq.todo = rest ∧ t.trace = m.token s.env :: s.trace := by
  obtain ⟨bit, h⟩ := s.microStep_allowed m rest hm ha
  obtain ⟨hcfg, hlines, htimer, -, -, hin, -, htrace, -⟩ := State.retire_frame (m.token s.env) m.post rest
    { s.settle with lines := m.linesAfter s.lines, seq := { s.seq with bit := bit } }
  exact ⟨_, (ticksRefineMicroOperations s m rest g.legal g.inputs g.timer hm).trans h,
    ⟨hcfg ▸ g.legal, hin.trans g.inputs, htimer.trans g.timer⟩, hcfg, hlines,
    State.retire_keepsRest _ m rest _ hk, htrace⟩

/-! ## The whole of SEQ -/

/-- A SEQ of which every micro-operation leaves the rest as it is is busy for exactly its ticks, and leaves one token
for each micro-operation. -/
theorem run_todo (l : List Micro) (s : State) (g : s.Going) (hm : s.seq.todo = l)
    (hk : l.all Micro.keepsRest = true) (ha : stretchAllowed s.lines l = true) :
    (∀ j, j < ticksOf s.cfg l → ∃ u, run j s = .next u ∧ u.busy = true) ∧
      ∃ t, run (ticksOf s.cfg l) s = .next t ∧ t.busy = false ∧ t.trace.length = s.trace.length + l.length := by
  induction l generalizing s with
  | nil => exact ⟨fun j hj => absurd hj j.not_lt_zero, s, rfl, s.not_busy_iff.2 hm, rfl⟩
  | cons m l ih =>
    rw [List.all_cons, Bool.and_eq_true] at hk
    rw [stretchAllowed, Bool.and_eq_true] at ha
    obtain ⟨v, hv, gv, hcfg, hlines, htodo, htrace⟩ := run_keepsRest s g m l hm hk.1 ha.1
    obtain ⟨hbusy, t, ht, hidle, hlen⟩ := ih v gv htodo hk.2 (hlines ▸ ha.2)
    rw [hcfg] at hbusy ht
    refine ⟨fun j hj => ?_, t, (run_add _ _ s v hv).trans ht, hidle, ?_⟩
    · obtain hlt | hle := Nat.lt_or_ge j (microTicks s.cfg m.op)
      · exact run_busy_within j s g m l hm hlt
      · obtain ⟨k, rfl⟩ := Nat.exists_eq_add_of_le hle
        obtain ⟨u, hu, hub⟩ := hbusy k (Nat.lt_of_add_lt_add_left hj)
        exact ⟨u, (run_add _ k s v hv).trans hu, hub⟩
    · rw [hlen, htrace, List.length_cons, List.length_cons]
      omega

/-! ## The eleven primitives and their rows -/

theorem keepsRest_primitive {i : Instr} (s : State) (hi : isPrimitive i = true) :
    (commandProc i s).all Micro.keepsRest = true := by
  cases i with
  | stop => cases hp : s.cfg.stopPreload <;> simp only [commandProc, hp] <;> rfl
  | writeBlock | readBlock => cases hi
  | _ => rfl

theorem length_primitive {i : Instr} (s : State) (hi : isPrimitive i = true) :
    (commandProc i s).length = (costOf s.cfg.stopPreload i).micros := by
  cases i with
  | stop => exact length_stop _
  | writeBlock | readBlock => cases hi
  | _ => rfl

theorem ticksOf_sendBits (c : Config) (bits : List Level) :
    ticksOf c (sendBitsProc bits) = bits.length * (4 + 4 * c.halfTicks) := by
  induction bits with
  | nil => simp [sendBitsProc, ticksOf]
  | cons b bits ih =>
    rw [sendBitsProc, ticksOf_append, ticksOf_sendBit, ih, List.length_cons, Nat.add_comm, ← Nat.succ_mul]

theorem ticksOf_sendByte (c : Config) (v : Byte) (policy : AckPolicy) :
    ticksOf c (sendByteProc v policy) = 37 + 36 * c.halfTicks := by
  have hbits : (bitsMsbFirst v).tail.length = 7 := rfl
  rw [sendByteProc, ticksOf_append, ticksOf_append, ticksOf_append, ticksOf_sendBit, ticksOf_sendBits, hbits]
  simp only [ticksOf, plain, ticksOf_readBit, microTicks]
  omega

theorem ticksOf_primitive {i : Instr} (s : State) (hi : isPrimitive i = true) :
    ticksOf s.cfg (commandProc i s) = (costOf s.cfg.stopPreload i).ticks s.cfg.halfTicks := by
  cases i with
  | setLine => simp [commandProc, costOf, Cost.ticks, ticksOf, setLineProc, plain, microTicks]
  | setDir => simp [commandProc, costOf, Cost.ticks, ticksOf, setDirProc, plain, microTicks]
  | readLine => simp [commandProc, costOf, Cost.ticks, ticksOf, readLineProc, microTicks]
  | waitHalf => simp [commandProc, costOf, Cost.ticks, ticksOf, waitHalfProc, plain, microTicks]
  | waitFull => simp [commandProc, costOf, Cost.ticks, ticksOf, waitFullProc, plain, microTicks, Config.fullTicks]
  | start => simp [commandProc, costOf, Cost.ticks, ticksOf_start]
  | sendBit => exact ticksOf_sendBit _ _ _
  | readBit => exact ticksOf_readBit _ _
  | sendByte => exact ticksOf_sendByte _ _ _
  | readByte => exact ticksOf_readByte _ _
  | stop => exact ticksOf_stop _ _
  | writeBlock | readBlock => cases hi

end Sys2Proof.Machine
end

section
/-! PROOFS. The statements of 70_reset_and_hazards.md. -/

namespace Sys2Proof.Machine

/-- Settles O54: no primitive decides anything on its way, so it lasts the sum of its micro-operations' ticks, which is
its row of R281. -/
theorem primitivesLastTheirTicks : Obligations.PrimitivesLastTheirTicks := by
  unfold Obligations.PrimitivesLastTheirTicks
  intro s i q hc hl hi
  have hp := isPrimitive_of_not_block hi
  obtain ⟨hbusy, t, ht, hidle, hlen⟩ := run_todo (commandProc i s) (s.accept (commandProc i s))
    (s.accept_going _ q hc) rfl (keepsRest_primitive s hp) hl.stretchAllowed
  rw [State.accept_cfg, ticksOf_primitive s hp] at hbusy ht
  rw [length_primitive s hp] at hlen
  exact ⟨_, t, exec_legal i s q.not_busy hl, hbusy, ht, hidle, hlen⟩

/-- Settles O12: the controller's step has the parameters in its frame, and nothing the outside does writes them. -/
theorem parametersNeverChange : Obligations.ParametersNeverChange := by
  unfold Obligations.ParametersNeverChange
  intro s t h
  cases step_case s t h with
  | tick rest ht => exact (State.tick_frame _ t ht).cfg
  | taken | accepted | refused | stored | read | driven | reset => rfl

/-- Settles O8: the step is the reset event, whose fields are the reset state's. -/
theorem resetEventAbandonsCommand : Obligations.ResetEventAbandonsCommand := by
  unfold Obligations.ResetEventAbandonsCommand
  intro s rest hin
  exact ⟨State.resetEvent { s with inputs := rest }, step_take s .reset rest hin, State.resetEvent_lines _,
    State.resetEvent_tstate _, State.resetEvent_seq _, rfl, State.resetEvent_done _, State.resetEvent_err _,
    State.resetEvent_timer _, State.resetEvent_trace _, State.resetEvent_wires _, State.resetEvent_cfg _,
    State.resetEvent_inputs _⟩

/-- Settles O24: with an empty SEQ and no entry in `inputs` every tick gives the state back. -/
theorem idleBlockDoesNothing : Obligations.IdleBlockDoesNothing := by
  unfold Obligations.IdleBlockDoesNothing
  intro s k q
  have hempty := s.not_busy_iff.1 q.not_busy
  obtain ⟨-, -, hin⟩ := q
  exact run_idle k s hin hempty

end Sys2Proof.Machine
end

section
/-! PROOFS. The host port outside CMD and TXBUF (93_implementation_defined.md U6). -/

namespace Sys2Proof.Machine

/-- 10_state.md section 7: the port's map has no other number that a write acts on. -/
theorem State.writePort_unmapped (s : State) (num : Nat) (val : Word) (hcmd : num ≠ 0x000)
    (htx : ¬ (0x100 ≤ num ∧ num < 0x100 + s.cfg.maxCount)) : s.writePort num val = .next s := by
  rw [State.writePort, if_neg hcmd, if_neg htx]

/-- Settles O55: the step is the port's write in the state with the action taken, and the port has no register there. -/
theorem unmappedWriteHasNoEffect : Obligations.UnmappedWriteHasNoEffect := by
  unfold Obligations.UnmappedWriteHasNoEffect
  intro s num val rest hin hcmd htx
  calc step s = State.writePort num val { s with inputs := rest } := step_take s _ rest hin
    _ = .next { s with inputs := rest } := State.writePort_unmapped _ num val hcmd htx

end Sys2Proof.Machine
end
